-- ==== Sys2Proof/Word.lean ====
section
/-! DEFINITION. The word types of the Huffman codec core: bytes, 64-bit register words, symbols and bit
sequences (spec/00_scope.md rules R9 and R10). Their plainest arithmetic is BitVec's and List's own. -/

namespace Sys2Proof

/-- One byte of a buffer (R9, R60). -/
abbrev Byte := BitVec 8

/-- One 64-bit register word; the registers are unsigned (R10). -/
abbrev Word := BitVec 64

/-- A symbol of `W` bits held zero-extended, as `zext_64` writes it (R6, R31): `W` is at most 64. -/
abbrev Symbol := BitVec 64

/-- A bit sequence, first element first (R9); `true` is the bit 1. -/
abbrev Bits := List Bool

end Sys2Proof
end

