-- ==== Sys2Proof/Syntax.lean ====
section
/-! DEFINITION. The instructions: the thirteen commands of the host command interface (spec/30_encoding.md rule R93), one
constructor per row of spec/opcode_table.json. A command word carries no operand (R92), so no constructor has one. -/

namespace Sys2Proof

/-- The thirteen commands (R93). -/
inductive Instr where
  /-- BYTES_OF, opcode 0x01 (R124). -/
  | bytesOf
  /-- VALUE_OF_BYTES, opcode 0x02 (R125). -/
  | valueOfBytes
  /-- BITS_OF, opcode 0x03 (R126). -/
  | bitsOf
  /-- VALUE_OF_BITS, opcode 0x04 (R127). -/
  | valueOfBits
  /-- FRAME, opcode 0x05 (R144). -/
  | frame
  /-- UNFRAME, opcode 0x06 (R145). -/
  | unframe
  /-- BUILD, opcode 0x07 (R176). -/
  | build
  /-- FREQ, opcode 0x08 (R177). -/
  | freq
  /-- LOOKUP, opcode 0x09 (R178). -/
  | lookup
  /-- SERIALIZE, opcode 0x0A (R205). -/
  | serialize
  /-- DESERIALIZE, opcode 0x0B (R206). -/
  | deserialize
  /-- ENCODE, opcode 0x0C (R250). -/
  | encode
  /-- DECODE, opcode 0x0D (R251). -/
  | decode
  deriving DecidableEq, Repr

end Sys2Proof
end

