-- ==== Sys2Proof/Decode.lean ====
section
/-! DEFINITION. Decoding a command word (spec/30_encoding.md rules R90 to R96), total on all words and refusing by name,
and after it the encoder. A command is one 64-bit word; on a byte-addressed bus its least significant byte lies lowest
(spec/20_memory.md rule R61). -/

namespace Sys2Proof

/-- Why a command word is illegal (R94). -/
inductive IllegalReason where
  /-- RSVD, bits 63:8, is not 0. -/
  | reservedBitsSet
  /-- OPCODE is 0x00. -/
  | opcodeZero
  /-- OPCODE is one of 0x0E .. 0xFF, reserved for later command-interface versions. -/
  | opcodeReserved
  deriving DecidableEq, Repr

/-- What a command word decodes to (R96): a command, or ILLEGAL with the reason. -/
inductive Decoded where
  | legal (i : Instr)
  | illegal (why : IllegalReason)
  deriving DecidableEq, Repr

/-- OPCODE, bits 7:0 of a command word (R90). -/
def opcodeField (w : Word) : Byte := w.setWidth 8

/-- RSVD, bits 63:8 of a command word (R90). -/
def reservedField (w : Word) : BitVec 56 := w.extractLsb' 8 56

/-- The opcode map of R93, read from opcode to command; `none` outside it. -/
def commandOfOpcode (op : Byte) : Option Instr :=
  match op.toNat with
  | 0x01 => some .bytesOf
  | 0x02 => some .valueOfBytes
  | 0x03 => some .bitsOf
  | 0x04 => some .valueOfBits
  | 0x05 => some .frame
  | 0x06 => some .unframe
  | 0x07 => some .build
  | 0x08 => some .freq
  | 0x09 => some .lookup
  | 0x0A => some .serialize
  | 0x0B => some .deserialize
  | 0x0C => some .encode
  | 0x0D => some .decode
  | _ => none

/-- `decode_cmd` of R96. -/
def decodeCmd (w : Word) : Decoded :=
  if reservedField w ≠ 0 then .illegal .reservedBitsSet
  else match commandOfOpcode (opcodeField w) with
    | some i => .legal i
    | none => if opcodeField w = 0 then .illegal .opcodeZero else .illegal .opcodeReserved

/-- The command a decoded word stands for, if it is legal. -/
def Decoded.toInstr : Decoded → Option Instr
  | .legal i => some i
  | .illegal _ => none

/-- The value of a little-endian byte sequence: the first byte is the least significant (R61, R142). -/
def leBytesValue : List Byte → Nat
  | [] => 0
  | b :: bs => b.toNat + 256 * leBytesValue bs

/-- Decoding the bytes of one host register write to CMD, least significant byte first (R61), with the bytes after it;
fewer than eight bytes are no whole register word and have no meaning (R73). -/
def decodeBytes (bytes : List Byte) : Option (Decoded × List Byte) :=
  if bytes.length < 8 then none
  else some (decodeCmd (BitVec.ofNat 64 (leBytesValue (bytes.take 8))), bytes.drop 8)

/-- The bytes of a command word as the bus carries them, least significant first (R61). -/
def wordBytes (w : Word) : List Byte := (List.range 8).map fun b => w.extractLsb' (8 * b) 8

/-- The command the decoder reads from a word whose low `nbits` bits are those of `w` and whose other bits are 0, laid
out as eight bytes, lowest first. -/
def decodeTableWord (nbits w : Nat) : Option Instr :=
  match decodeBytes (wordBytes (BitVec.ofNat 64 (w % 2 ^ nbits))) with
  | some (d, _) => d.toInstr
  | none => none

/-- OPCODE of each command (R93). -/
def opcodeOf : Instr → Byte
  | .bytesOf => 0x01
  | .valueOfBytes => 0x02
  | .bitsOf => 0x03
  | .valueOfBits => 0x04
  | .frame => 0x05
  | .unframe => 0x06
  | .build => 0x07
  | .freq => 0x08
  | .lookup => 0x09
  | .serialize => 0x0A
  | .deserialize => 0x0B
  | .encode => 0x0C
  | .decode => 0x0D

/-- The command word of a command: OPCODE in bits 7:0, RSVD 0 (R90); the value `CMD <mnemonic>` writes (R99). -/
def encodeCmd (i : Instr) : Word := (opcodeOf i).setWidth 64

end Sys2Proof
end

