-- ==== Sys2Proof/Config.lean ====
section
/-! DEFINITION. What an implementation of the block fixes (spec/00_scope.md rule R7, spec/93_implementation_defined.md
section 4), the reference configuration, and the FREE VALUES: the values the spec leaves unspecified, as opaque
constants nothing in Lean can evaluate. The derived parameters are in Sys2Proof/Machine/Params.lean. -/

namespace Sys2Proof

/-- The implementation parameters (R7; 93 section 4). A machine's configuration never changes; it stands in
`State.cfg`, so that a statement about every state is a statement about every configuration. -/
structure Config where
  /-- `SYM_BYTES`, bytes per symbol: 1, 2, 4 or 8 (R6). -/
  symBytes : Nat
  /-- `KEY_SIGNED`: leaves are created in two's-complement key order (R165). -/
  keySigned : Bool
  /-- `IN_CAP`, bytes. -/
  inCap : Nat
  /-- `OUT_CAP`, bytes. -/
  outCap : Nat
  /-- `BIT_CAP`, bits. -/
  bitCap : Nat
  /-- `MAX_DISTINCT`, the most distinct symbols the counter and the code table hold. -/
  maxDistinct : Nat
  /-- `REG_BASE`, where the platform puts the register window (R75). -/
  regBase : Nat
  /-- `IN_BASE` (R75). -/
  inBase : Nat
  /-- `BITS_BASE` (R75). -/
  bitsBase : Nat
  /-- `OUT_BASE` (R75). -/
  outBase : Nat
  /-- `RESET_ACTIVE_LEVEL`: the level at which the reset input is asserted (R300). -/
  resetActiveLevel : Bool
  /-- `RESET_SYNC`: whether reset is synchronous. No rule depends on it (R300), and in a model of whole
  transactions nothing can show it, so no definition reads it (assumption 12). -/
  resetSync : Bool
  deriving DecidableEq, Repr

/-- The reference configuration of R7. The platform parameters (bases, reset level and synchrony) have no reference
value in the spec and no rule depends on them: DESIGN CHOICE, assumption 12. -/
def Config.reference : Config where
  symBytes := 1
  keySigned := false
  inCap := 4096
  outCap := 4096
  bitCap := 65536
  maxDistinct := 256
  regBase := 0
  inBase := 0
  bitsBase := 0
  outBase := 0
  resetActiveLevel := true
  resetSync := true

/-- FREE VALUE. The byte at offset `a` of a buffer whose contents became unspecified as the `g`-th draw: after reset
(R50, R300) or after a failed command whose write set holds the buffer (R281). One draw per byte, fixed until the byte
is written (93 section 1). -/
opaque Config.freeByte (g a : Nat) : Byte

/-- FREE VALUE. What the host reads, as the `g`-th draw, from a byte of the running command's write set (R80) or from a
buffer while reset is asserted (R300): a fresh draw per read. -/
opaque Config.freeByteRead (g : Nat) : Byte

/-- FREE VALUE. What the host reads, as the `g`-th draw, from a register of the running command's write set (R80) or
while reset is asserted (R300): a fresh draw per read. Also the "last value read" of a register a script branches on
without having read it (assumption 10). -/
opaque Config.freeWord (g : Nat) : Word

/-- FREE VALUE. The latency of the command accepted as the `g`-th draw, counted in host steps between acceptance and
completion: unspecified and finite (R280, R309). -/
opaque Config.latency (g : Nat) : Nat

end Sys2Proof
end

