-- ==== Sys2Proof/Machine/Params.lean ====
section
/-! DEFINITION. The parameters R7 derives from the others, and where the platform puts the windows (R61, R75). -/

namespace Sys2Proof

/-- `ceil_div(a, b)` on natural numbers (R10). -/
def ceilDiv (a b : Nat) : Nat := (a + b - 1) / b

/-- `W`, bits per symbol (R6). -/
def Config.w (c : Config) : Nat := 8 * c.symBytes

/-- `NODE_CAP`, node store entries (R7). -/
def Config.nodeCap (c : Config) : Nat := 2 * c.maxDistinct - 1

/-- `MAX_CODE_LEN`, the longest code the code table holds (R7, R172). -/
def Config.maxCodeLen (c : Config) : Nat := c.maxDistinct - 1

/-- `CODE_WORDS`, how many CODE_W registers there are (R7). -/
def Config.codeWords (c : Config) : Nat := ceilDiv c.maxCodeLen 64

/-- `FREQ_WIDTH`, the bits of a frequency counter (R7): 64 in every configuration. -/
abbrev freqWidth : Nat := 64

/-- A frequency: a count of the frequency table (R45) or of a node (R46), `FREQ_WIDTH` bits wide. -/
abbrev Count := BitVec freqWidth

/-- The offset of a bus address inside a window at `base`; an address below it is outside the window (R61, R75). -/
def windowOffset (base addr : Nat) : Option Nat :=
  if base ≤ addr then some (addr - base) else none

/-- The register number a bus access of `n` bytes at address `addr` reaches: register k is at byte offsets
8k .. 8k + 7 of the window, and only the whole aligned 64-bit word has a meaning (R61, R73). DESIGN CHOICE: an address
below the window is no register either, and is refused under the same name (assumption 12). -/
def busRegister (c : Config) (addr n : Nat) : Option Nat :=
  match windowOffset c.regBase addr with
  | none => none
  | some off => if n = 8 ∧ off % 8 = 0 then some (off / 8) else none

end Sys2Proof
end

