-- ==== Sys2Proof/Machine/Types.lean ====
section
/-! DEFINITION. The kinds of data the machine's state is made of: buffer spaces, trees, error kinds, the engine's phase,
registers by name, host transactions and host script statements, and the records the pure codec functions return. -/

namespace Sys2Proof.Machine

/-- The three buffer spaces (R44, R60). -/
inductive Space where
  | input
  | bits
  | output
  deriving DecidableEq, Repr

/-- The base address of a buffer's window in the system address map (R75). -/
def bufferBase (c : Config) : Space → Nat
  | .input => c.inBase
  | .bits => c.bitsBase
  | .output => c.outBase

/-- The error kinds of R13 and R270; success is no error kind. -/
inductive ErrKind where
  | truncatedInput
  | malformedTree
  | truncatedPayload
  | capacity
  | noTree
  | noSymbol
  | illegalCmd
  deriving DecidableEq, Repr

/-- A non-empty tree (R14): `Empty` exists only as a whole tree, so it is `none` of `Option CodeTree`. -/
inductive CodeTree where
  | leaf (sym : Symbol) (freq : Count)
  | node (left right : CodeTree) (freq : Count)
  deriving DecidableEq, Repr

/-- The frequency table FT (R45): the present symbols with their counts, in ascending symbol order; an absent symbol has
count 0. -/
abbrev FreqTable := List (Symbol × Count)

/-- The code table CT (R47): each present symbol's code in root-to-leaf order; other symbols are absent. -/
abbrev CodeTable := List (Symbol × Bits)

/-- The written bytes of a buffer, by offset, strictly rising; an offset not listed holds no written byte. -/
abbrev Memory := List Host.Cell

/-- A buffer memory (R44): its written bytes, and the draw its other bytes' unspecified values come from (R50, R281). -/
structure Buffer where
  cells : Memory
  gen : Nat
  deriving DecidableEq, Repr

/-- The engine's phase (R41). In EXEC it holds the latched decoded command `op`, and how many more host steps happen
before it completes: the remaining latency, finite and otherwise unspecified (R280, R309). -/
inductive Phase where
  | idle
  | exec (op : Decoded) (wait : Nat)
  deriving DecidableEq, Repr

/-- The registers by name (R21 to R39); every other register number is reserved (R40). -/
inductive Reg where
  | id | cfg | capIn | capOut | capBits | capDistinct
  | ctrl | cmd | status
  | inLen | bitLen | outLen | start | value | expCount
  | symCount | distinct | treeBits | payloadBits | freq | codeLen
  | codeW (j : Nat)
  | reserved
  deriving DecidableEq, Repr

/-- Bits `hi` down to `lo` of a register (R10). -/
structure Field where
  hi : Nat
  lo : Nat
  deriving DecidableEq, Repr

/-- One host transaction with the block (R61, R62, R97). A register read may carry the value the script's author
expects (R97, `RD <reg> -> <expected>`), which changes nothing. -/
inductive Txn where
  | regRead (n : Nat) (expected : Option Word)
  | regWrite (n : Nat) (v : Word)
  | bufRead (sp : Space) (a : Nat)
  | bufWrite (sp : Space) (a : Nat) (v : Byte)
  deriving DecidableEq, Repr

/-- What a host read returned. -/
inductive Reading where
  | reg (n : Nat) (v : Word) (expected : Option Word)
  | byte (sp : Space) (a : Nat) (v : Byte)
  deriving DecidableEq, Repr

/-- The statements of a host script (R97). `wrOld` is the second half of the pseudo-statement `WR <reg>.<field>, v`
(R98); the `bus` statements are the accesses of R61 and R62 on a byte-addressed bus; `resetPin` is the platform driving
the block's reset input (R300). Labels are numbers. -/
inductive Stmt where
  | wr (reg : Nat) (v : Word)
  | rd (reg : Nat) (expected : Option Word)
  | wb (sp : Space) (off : Nat) (bytes : List Byte)
  | rb (sp : Space) (off n : Nat)
  | cmd (i : Instr)
  | label (l : Nat)
  | bnz (reg : Nat) (f : Field) (l : Nat)
  | wrOld (reg : Nat) (f : Field) (v : Word)
  | busRegWr (addr n : Nat) (v : Word)
  | busRegRd (addr n : Nat)
  | busBufWr (sp : Space) (addr n v : Nat)
  | busBufRd (sp : Space) (addr n : Nat)
  | resetPin (level : Bool)
  deriving DecidableEq, Repr

/-- What the tree builder makes of an input (R176). -/
structure Built where
  syms : List Symbol
  freqTable : FreqTable
  tree : Option CodeTree
  codeTable : CodeTable
  deriving DecidableEq, Repr

/-- What the stream encoder makes of an input (R250): the built tables, the serialized tree and the payload. -/
structure Encoded where
  built : Built
  treeBits : Bits
  payload : Bits
  deriving DecidableEq, Repr

/-- What the stream decoder makes of a bit stream (R251): the tree, the bits it took, the symbols, the payload bits
consumed, and whether a partial final code was dropped. -/
structure DecodedStream where
  tree : Option CodeTree
  k : Nat
  out : List Symbol
  used : Nat
  part : Bool
  deriving DecidableEq, Repr

end Sys2Proof.Machine
end

