-- ==== Sys2Proof/Machine/Codec.lean ====
section
/-! DEFINITION. The pure functions of the primitive codec (spec/40_primitives.md rules R120 to R123) and of the bit packer
(spec/41_framer.md rules R140 to R143), the only place byte and bit order are decided (R70). -/

namespace Sys2Proof.Machine

/-- The number whose bit p is the p-th element of the list. -/
def lsbValue : Bits → Nat
  | [] => 0
  | b :: bs => b.toNat + 2 * lsbValue bs

/-- `v[W-1:0]`, zero-extended (R31, R92): the symbol a register word stands for. -/
def symbolOf (c : Config) (v : Word) : Symbol := (v.setWidth c.w).setWidth 64

/-- Where bit i of a symbol's bit sequence stands in the symbol: i = 8b + j is symbol bit 8b + 7 - j (R68). The map is
its own inverse. -/
def symbolBit (i : Nat) : Nat := 8 * (i / 8) + (7 - i % 8)

/-- `bytes_of` (R120): little-endian bytes. -/
def bytesOf (c : Config) (v : Symbol) : List Byte :=
  (List.range c.symBytes).map fun b => v.extractLsb' (8 * b) 8

/-- `value_of_bytes` (R121). -/
def valueOfBytes (c : Config) (bytes : List Byte) (start : Nat) : Except ErrKind Symbol :=
  if start + c.symBytes > bytes.length then .error .truncatedInput
  else .ok (BitVec.ofNat 64 (leBytesValue ((bytes.drop start).take c.symBytes)))

/-- `bits_of` (R122): byte 0 first, each byte most significant bit first. -/
def bitsOf (c : Config) (v : Symbol) : Bits := (List.range c.w).map fun i => v.getLsbD (symbolBit i)

/-- `value_of_bits` (R123): symbol bit p is stream bit start + `symbolBit p`. -/
def valueOfBits (c : Config) (bits : Bits) (start : Nat) : Except ErrKind Symbol :=
  if start + c.w > bits.length then .error .truncatedInput
  else .ok (BitVec.ofNat 64
    (lsbValue ((List.range c.w).map fun p => bits.getD (start + symbolBit p) false)))

/-- Byte k of `pack` (R140): stream bit 8k + j at bit 7 - j, bits beyond the sequence 0. -/
def packByte (bits : Bits) (k : Nat) : Byte :=
  BitVec.ofNat 8 (lsbValue ((List.range 8).map fun q => bits.getD (8 * k + (7 - q)) false))

/-- `pack` (R140). -/
def pack (bits : Bits) : List Byte := (List.range (ceilDiv bits.length 8)).map (packByte bits)

/-- `unpack` (R141): bit i is bit 7 - (i mod 8) of byte i div 8. -/
def unpack (bytes : List Byte) (n : Nat) : Bits :=
  (List.range n).map fun i => (bytes.getD (i / 8) 0).getLsbD (7 - i % 8)

/-- `u64_le` (R142): a 64-bit count as eight bytes, least significant first. -/
def u64le (n : Nat) : List Byte := (List.range 8).map fun b => (BitVec.ofNat 64 n).extractLsb' (8 * b) 8

/-- `frame` (R143). -/
def frameBytes (bits : Bits) : List Byte := u64le bits.length ++ pack bits

end Sys2Proof.Machine
end

