-- ==== Sys2Proof/Machine/State.lean ====
section
/-! DEFINITION. The state of the machine as plain data, what stops a step, and the state after reset
(spec/10_state.md). Every register, flag, buffer and hidden table of the block is a field; after them the host agent's
own state (R20, R97) and two fields of the model's own. -/

namespace Sys2Proof.Machine

/-- The machine's state. ID and the CFG and CAP registers are constants of `cfg` (R21 to R23), CMD holds no value (R25),
and the CTRL and STATUS words are the fields named here, their reserved bits reading 0 (R24, R26); STATUS.BUSY is
`phase` (R41). `Reg` values are assembled in Sys2Proof/Machine/Ops.lean. -/
structure State where
  /-- The configuration: ID, CFG, CAP_IN, CAP_OUT, CAP_BITS, CAP_DISTINCT (R7, R21 to R23). -/
  cfg : Config
  /-- CTRL bit 0 (R24). -/
  acceptTrunc : Bool
  /-- CTRL bit 1 (R24). -/
  irqEn : Bool
  /-- STATUS bit 1 (R26). -/
  done : Bool
  /-- STATUS bit 2 (R26). -/
  ovr : Bool
  /-- STATUS bits 11:8, ERR; `none` is code 0 (R26, R270). -/
  err : Option ErrKind
  /-- STATUS bit 16 (R26). -/
  freqValid : Bool
  /-- STATUS bit 17 (R26). -/
  tableValid : Bool
  /-- STATUS bit 18 (R26). -/
  treeValid : Bool
  /-- STATUS bit 19 (R26). -/
  treeEmpty : Bool
  /-- STATUS bit 20, PARTIAL (R26). -/
  partialFlag : Bool
  /-- STATUS bits 31:24 (R26). -/
  lastOp : Byte
  /-- IN_LEN (R27). -/
  inLen : Word
  /-- BIT_LEN (R28). -/
  bitLen : Word
  /-- OUT_LEN (R29). -/
  outLen : Word
  /-- START (R30). -/
  start : Word
  /-- VALUE (R31). -/
  value : Word
  /-- EXP_COUNT (R32). -/
  expCount : Word
  /-- SYM_COUNT (R33). -/
  symCount : Word
  /-- DISTINCT (R34). -/
  distinct : Word
  /-- TREE_BITS (R35). -/
  treeBits : Word
  /-- PAYLOAD_BITS (R36). -/
  payloadBits : Word
  /-- FREQ (R37). -/
  freq : Word
  /-- CODE_LEN (R38). -/
  codeLen : Word
  /-- CODE_W[0 .. CODE_WORDS) (R39). -/
  codeW : List Word
  /-- The engine's phase, latched command and remaining latency; STATUS.BUSY (R26, R41). -/
  phase : Phase
  /-- The IN buffer (R44). -/
  inBuf : Buffer
  /-- The BITS buffer (R44). -/
  bitsBuf : Buffer
  /-- The OUT buffer (R44). -/
  outBuf : Buffer
  /-- FT (R45). -/
  freqTable : FreqTable
  /-- T (R46); `none` is `Empty`. -/
  tree : Option CodeTree
  /-- CT (R47). -/
  codeTable : CodeTable
  /-- The reset input is asserted (R300). -/
  inReset : Bool
  /-- The host's script (R97). -/
  script : List Stmt
  /-- The number of the script's next statement. -/
  scriptPos : Nat
  /-- The transactions the current statement still has to perform (R97, R99). -/
  pending : List Txn
  /-- What the host's reads returned, newest first. -/
  seen : List Reading
  /-- MODEL'S OWN: latencies the environment has chosen for the next commands, in host steps; when it is empty the
  latency is a free value (assumption 4). -/
  latencies : List Nat
  /-- MODEL'S OWN: the number of the next free value to draw (assumption 2). -/
  draws : Nat
  deriving DecidableEq, Repr

/-- Why the machine stops in a fault. -/
inductive Fault where
  /-- Raised by a host write to IN, BITS, CTRL, IN_LEN, BIT_LEN, START, VALUE or EXP_COUNT while BUSY = 1: "a model
  refuses such a host step (a fault naming the transaction)" (R304). Safe: no claim covers a host that does this. -/
  | inputWriteWhileBusy (t : Txn)
  deriving DecidableEq, Repr

/-- Why a step has no meaning. -/
inductive Refusal where
  /-- Raised by exec for an instruction that has no meaning yet. Safe. -/
  | notModelled (mnemonic : String)
  /-- Raised by a host register access that is not the whole aligned 64-bit word of a register in the window: "a model
  refuses it" (R61, R73); an address below the window is the model's own case of it (assumption 12). Safe. -/
  | partialRegisterAccess (addr n : Nat)
  /-- Raised by a bus access to a buffer's window at an address below the window (assumption 12). Safe. -/
  | addressOutsideWindow (sp : Space) (addr : Nat)
  /-- Raised by a taken script branch to a label the script does not define; such a script is ill-formed, and the spec
  gives it no meaning (R97, assumption 10). Safe. -/
  | undefinedLabel (l : Nat)
  deriving DecidableEq, Repr

/-- The buffer contents reset leaves: every byte unspecified, from draw `g` (R50). -/
def Buffer.unwritten (g : Nat) : Buffer := ⟨[], g⟩

/-- The state right after reset (R50, R300) of a block of configuration `c`, its buffers' bytes drawn from `g` on. FT, T
and CT are unspecified and unreachable while their valid flags are 0 (R50); they are written here as empty (assumption
3). The host has no script. -/
def State.resetWith (c : Config) (g : Nat) : State where
  cfg := c
  acceptTrunc := false
  irqEn := false
  done := false
  ovr := false
  err := none
  freqValid := false
  tableValid := false
  treeValid := false
  treeEmpty := false
  partialFlag := false
  lastOp := 0
  inLen := 0
  bitLen := 0
  outLen := 0
  start := 0
  value := 0
  expCount := 0
  symCount := 0
  distinct := 0
  treeBits := 0
  payloadBits := 0
  freq := 0
  codeLen := 0
  codeW := List.replicate c.codeWords 0
  phase := .idle
  inBuf := Buffer.unwritten g
  bitsBuf := Buffer.unwritten (g + 1)
  outBuf := Buffer.unwritten (g + 2)
  freqTable := []
  tree := none
  codeTable := []
  inReset := false
  script := []
  scriptPos := 0
  pending := []
  seen := []
  latencies := []
  draws := g + 3

/-- The machine right after reset, in the reference configuration of R7. -/
def State.reset : State := State.resetWith Config.reference 0

end Sys2Proof.Machine
end

