-- ==== Sys2Proof/Machine/Flags.lean ====
section
/-! DEFINITION. The STATUS and CTRL words, the irq output and the flag computations (spec/10_state.md rules R24, R26, R43,
R48; spec/60_exceptions.md rules R270, R286). -/

namespace Sys2Proof.Machine

/-- The error code of R270; 0 is OK. -/
def errCode : Option ErrKind → BitVec 4
  | none => 0
  | some .truncatedInput => 1
  | some .malformedTree => 2
  | some .truncatedPayload => 3
  | some .capacity => 4
  | some .noTree => 5
  | some .noSymbol => 6
  | some .illegalCmd => 7

/-- A flag at bit i of a register word. -/
def flagAt (b : Bool) (i : Nat) : Word := (BitVec.ofBool b).setWidth 64 <<< i

/-- STATUS.BUSY (R26): 1 exactly when the phase is EXEC (R41). -/
def State.busy (s : State) : Bool :=
  match s.phase with
  | .idle => false
  | .exec _ _ => true

/-- The STATUS word (R26); reserved bits read 0. -/
def State.statusWord (s : State) : Word :=
  flagAt s.busy 0 ||| flagAt s.done 1 ||| flagAt s.ovr 2 ||| (errCode s.err).setWidth 64 <<< 8 |||
  flagAt s.freqValid 16 ||| flagAt s.tableValid 17 ||| flagAt s.treeValid 18 ||| flagAt s.treeEmpty 19 |||
  flagAt s.partialFlag 20 ||| s.lastOp.setWidth 64 <<< 24

/-- The CTRL word (R24); reserved bits read 0. -/
def State.ctrlWord (s : State) : Word := flagAt s.acceptTrunc 0 ||| flagAt s.irqEn 1

/-- The irq output (R48, R286): a level. -/
def State.irq (s : State) : Bool := s.done && s.irqEn

/-- A host write to CTRL (R24): reserved bits ignore it. -/
def State.writeCtrl (v : Word) (s : State) : State :=
  { s with acceptTrunc := v.getLsbD 0, irqEn := v.getLsbD 1 }

/-- A host write to STATUS changes only DONE and OVR, each cleared by a 1 (R26). -/
def State.writeStatus (v : Word) (s : State) : State :=
  { s with done := s.done && !v.getLsbD 1, ovr := s.ovr && !v.getLsbD 2 }

/-- The four valid flags after a successful BUILD or ENCODE (R176, R250). -/
def State.tablesBuilt (empty : Bool) (s : State) : State :=
  { s with freqValid := true, tableValid := true, treeValid := true, treeEmpty := empty }

/-- The four valid flags after a successful DESERIALIZE or DECODE (R206, R251): a rebuilt tree has no frequencies and
no code table. -/
def State.treeRebuilt (empty : Bool) (s : State) : State :=
  { s with freqValid := false, tableValid := false, treeValid := true, treeEmpty := empty }

/-- The four valid flags after a failure of one of those four commands (R281). -/
def State.tablesInvalid (s : State) : State :=
  { s with freqValid := false, tableValid := false, treeValid := false, treeEmpty := false }

end Sys2Proof.Machine
end

