-- ==== Sys2Proof/Machine/Ops.lean ====
section
/-! DEFINITION. The named operations over buffers and registers, the write sets of the commands (spec/10_state.md rule R49),
and a command's life: acceptance, completion, and failure, the trap-entry analogue (spec/60_exceptions.md rules R280 to
R283), with reset (spec/70_reset_and_hazards.md rules R300, R301). -/

namespace Sys2Proof.Machine

/-- The written byte at an offset, if there is one. -/
def Memory.read : Memory → Nat → Option Byte
  | [], _ => none
  | (b, v) :: m, a => if a < b then none else if a = b then some v else Memory.read m a

/-- Writing one byte keeps the offsets strictly rising. -/
def Memory.write : Memory → Nat → Byte → Memory
  | [], a, v => [(a, v)]
  | (b, w) :: m, a, v =>
    if a < b then (a, v) :: (b, w) :: m
    else if a = b then (a, v) :: m
    else (b, w) :: Memory.write m a v

/-- The canonical form of a memory: offsets strictly rising. An unlisted offset reads as no written byte, which no entry
equals. -/
abbrev Memory.wf (m : Memory) : Prop := List.Pairwise (fun x y : Host.Cell => x.1 < y.1) m

/-- A buffer is in canonical form and its written bytes lie inside its size. -/
abbrev Buffer.wf (size : Nat) (b : Buffer) : Prop := Memory.wf b.cells ∧ ∀ c ∈ b.cells, c.1 < size

/-- The byte of a buffer at an offset inside it: the written byte, or the unspecified value drawn for it (R50, R281). -/
def Buffer.byte (b : Buffer) (a : Nat) : Byte := (Memory.read b.cells a).getD (Config.freeByte b.gen a)

/-- Writing one byte of a buffer. -/
def Buffer.writeByte (b : Buffer) (a : Nat) (v : Byte) : Buffer := { b with cells := Memory.write b.cells a v }

/-- `MemWrite` (R12): successive bytes from an offset. -/
def Buffer.writeBytes (b : Buffer) (off : Nat) : List Byte → Buffer
  | [] => b
  | v :: vs => (b.writeByte off v).writeBytes (off + 1) vs

/-- `MemRead` (R12): n bytes from an offset. -/
def Buffer.readBytes (b : Buffer) (off n : Nat) : List Byte := (List.range n).map fun i => b.byte (off + i)

/-- `BitRead` of the BITS packing (R63): bit i is bit 7 - (i mod 8) of byte i div 8. -/
def Buffer.bit (b : Buffer) (i : Nat) : Bool := (b.byte (i / 8)).getLsbD (7 - i % 8)

/-- The size of a buffer in bytes (R60). -/
def bufSize (c : Config) : Space → Nat
  | .input => c.inCap
  | .bits => c.bitCap / 8
  | .output => c.outCap

/-- The buffer of a space. -/
def State.buf (s : State) : Space → Buffer
  | .input => s.inBuf
  | .bits => s.bitsBuf
  | .output => s.outBuf

/-- Replacing the buffer of a space. -/
def State.setBuf (s : State) (sp : Space) (b : Buffer) : State :=
  match sp with
  | .input => { s with inBuf := b }
  | .bits => { s with bitsBuf := b }
  | .output => { s with outBuf := b }

/-- Every byte of a buffer becomes unspecified: a draw per byte (R281). -/
def State.unspecify (sp : Space) (s : State) : State :=
  { s.setBuf sp (Buffer.unwritten s.draws) with draws := s.draws + 1 }

/-- The engine writes a bit sequence to BITS from bit 0: bytes 0 .. ceil_div(L, 8) - 1, pad bits 0, the bytes above kept
(R64). -/
def State.putBits (bits : Bits) (s : State) : State := { s with bitsBuf := s.bitsBuf.writeBytes 0 (pack bits) }

/-- The engine writes bytes to OUT from offset 0. -/
def State.putOut (bytes : List Byte) (s : State) : State := { s with outBuf := s.outBuf.writeBytes 0 bytes }

/-- The engine writes a result register (R28 to R39). The registers it never writes keep their value. -/
def State.putReg (s : State) (r : Reg) (v : Word) : State :=
  match r with
  | .bitLen => { s with bitLen := v }
  | .outLen => { s with outLen := v }
  | .value => { s with value := v }
  | .symCount => { s with symCount := v }
  | .distinct => { s with distinct := v }
  | .treeBits => { s with treeBits := v }
  | .payloadBits => { s with payloadBits := v }
  | .freq => { s with freq := v }
  | .codeLen => { s with codeLen := v }
  | .codeW j => { s with codeW := s.codeW.set j v }
  | .id => s
  | .cfg => s
  | .capIn => s
  | .capOut => s
  | .capBits => s
  | .capDistinct => s
  | .ctrl => s
  | .cmd => s
  | .status => s
  | .inLen => s
  | .start => s
  | .expCount => s
  | .reserved => s

/-- A natural number as a register word; every count the engine writes fits (R277). -/
def word (n : Nat) : Word := BitVec.ofNat 64 n

/-- The registers of a command's write set (R49). -/
def writeRegs (c : Config) : Instr → List Reg
  | .bytesOf => [.outLen]
  | .valueOfBytes => [.value]
  | .bitsOf => [.bitLen]
  | .valueOfBits => [.value]
  | .frame => [.outLen]
  | .unframe => [.bitLen]
  | .build => [.symCount, .distinct]
  | .freq => [.freq]
  | .lookup => .codeLen :: (List.range c.codeWords).map .codeW
  | .serialize => [.bitLen, .treeBits]
  | .deserialize => [.distinct, .treeBits]
  | .encode => [.symCount, .distinct, .treeBits, .payloadBits, .bitLen]
  | .decode => [.symCount, .distinct, .treeBits, .payloadBits, .outLen]

/-- The buffer of a command's write set, if it has one (R49). -/
def writeSpace : Instr → Option Space
  | .bytesOf => some .output
  | .valueOfBytes => none
  | .bitsOf => some .bits
  | .valueOfBits => none
  | .frame => some .output
  | .unframe => some .bits
  | .build => none
  | .freq => none
  | .lookup => none
  | .serialize => some .bits
  | .deserialize => none
  | .encode => some .bits
  | .decode => some .output

/-- Whether a command's write set holds the tree and its flags (R49). -/
def writesTree : Instr → Bool
  | .bytesOf => false
  | .valueOfBytes => false
  | .bitsOf => false
  | .valueOfBits => false
  | .frame => false
  | .unframe => false
  | .build => true
  | .freq => false
  | .lookup => false
  | .serialize => false
  | .deserialize => true
  | .encode => true
  | .decode => true

/-- Acceptance of the command word w (R280), its latency given. -/
def State.acceptWith (w : Word) (latency : Nat) (s : State) : State :=
  { s with phase := .exec (decodeCmd w) latency, done := false, err := none, partialFlag := false,
           lastOp := opcodeField w }

/-- Acceptance (R280): the latency is the next the environment has chosen, or a free value (R309, assumption 4). -/
def State.accept (w : Word) (s : State) : State :=
  match s.latencies with
  | n :: rest => { s.acceptWith w n with latencies := rest }
  | [] => { s.acceptWith w (Config.latency s.draws) with draws := s.draws + 1 }

/-- The STATUS part of completion (R280): ERR is 0 or the raised code, BUSY falls, DONE rises, the engine is IDLE. -/
def State.finish (e : Option ErrKind) (s : State) : State := { s with phase := .idle, done := true, err := e }

/-- The buffer part of a failure (R281). -/
def State.failBuffer (i : Instr) (s : State) : State :=
  match writeSpace i with
  | some sp => s.unspecify sp
  | none => s

/-- The flag part of a failure (R281). -/
def State.failFlags (i : Instr) (s : State) : State := if writesTree i then s.tablesInvalid else s

/-- Failure of a command (R281): its write set's registers are 0, its buffer unspecified, its valid flags 0, PARTIAL 0;
all other state keeps its value (R282). FT, T and CT keep their contents, which nothing reads while their flags are 0
(assumption 3). -/
def State.failWriteSet (i : Instr) (s : State) : State :=
  { ((writeRegs s.cfg i).foldl (fun t r => t.putReg r 0) s |>.failBuffer i |>.failFlags i) with partialFlag := false }

/-- Completion of a command in one atomic step (R79, R280): on success its results are applied, on an error its write
set fails; every command completes. -/
def complete {α : Type} (i : Instr) (r : Except ErrKind α) (apply : α → State → State) (s : State) :
    Host.Outcome State Fault Refusal :=
  .next (match r with
    | .ok x => (apply x s).finish none
    | .error e => (s.failWriteSet i).finish (some e))

/-- The reset event (R300, R301): every piece of the block's state takes its reset value, buffers unspecified from fresh
draws, and a running command is abandoned. The host agent is outside the block and keeps its state. -/
def State.loadReset (asserted : Bool) (s : State) : State :=
  { State.resetWith s.cfg s.draws with
    inReset := asserted, script := s.script, scriptPos := s.scriptPos, pending := s.pending, seen := s.seen,
    latencies := s.latencies }

end Sys2Proof.Machine
end

