-- ==== Sys2Proof/Machine/Operands.lean ====
section
/-! DEFINITION. The operands of the commands (spec/30_encoding.md rules R92 and R95, spec/00_scope.md rule R12) and the
value of every register (spec/10_state.md rules R21 to R40). -/

namespace Sys2Proof.Machine

/-- The symbol operand: VALUE bits W-1:0 (R31, R92). -/
def State.symbol (s : State) : Symbol := symbolOf s.cfg s.value

/-- `IN_SEQ` (R12). -/
def State.inSeq (s : State) : List Byte := s.inBuf.readBytes 0 s.inLen.toNat

/-- `BITS_SEQ` (R12): bits at or beyond BIT_LEN are not read (R64). -/
def State.bitsSeq (s : State) : Bits := (List.range s.bitLen.toNat).map s.bitsBuf.bit

/-- The first check of a command that reads IN_LEN (R276). -/
def State.checkInLen (s : State) : Except ErrKind Unit :=
  if s.inLen.toNat > s.cfg.inCap then .error .capacity else .ok ()

/-- The first check of a command that reads BIT_LEN (R276). -/
def State.checkBitLen (s : State) : Except ErrKind Unit :=
  if s.bitLen.toNat > s.cfg.bitCap then .error .capacity else .ok ()

/-- The ID constant (R21). -/
def idWord : Word := 0x4855464600000001

/-- CFG (R22): SYM_BYTES in bits 3:0, KEY_SIGNED in bit 4. -/
def cfgWord (c : Config) : Word := (BitVec.ofNat 4 c.symBytes).setWidth 64 ||| flagAt c.keySigned 4

/-- The register a number names in configuration c (R21 to R40, R60). -/
def regOfNumber (c : Config) (n : Nat) : Reg :=
  match n with
  | 0x00 => .id
  | 0x01 => .cfg
  | 0x02 => .capIn
  | 0x03 => .capOut
  | 0x04 => .capBits
  | 0x05 => .capDistinct
  | 0x06 => .ctrl
  | 0x07 => .cmd
  | 0x08 => .status
  | 0x09 => .inLen
  | 0x0A => .bitLen
  | 0x0B => .outLen
  | 0x0C => .start
  | 0x0D => .value
  | 0x0E => .expCount
  | 0x0F => .symCount
  | 0x10 => .distinct
  | 0x11 => .treeBits
  | 0x12 => .payloadBits
  | 0x13 => .freq
  | 0x14 => .codeLen
  | n => if 0x20 ≤ n ∧ n < 0x20 + c.codeWords then .codeW (n - 0x20) else .reserved

/-- The value of a register; CMD and the reserved numbers read 0 (R25, R40). -/
def State.reg (s : State) : Reg → Word
  | .id => idWord
  | .cfg => cfgWord s.cfg
  | .capIn => word s.cfg.inCap
  | .capOut => word s.cfg.outCap
  | .capBits => word s.cfg.bitCap
  | .capDistinct => word s.cfg.maxDistinct
  | .ctrl => s.ctrlWord
  | .cmd => 0
  | .status => s.statusWord
  | .inLen => s.inLen
  | .bitLen => s.bitLen
  | .outLen => s.outLen
  | .start => s.start
  | .value => s.value
  | .expCount => s.expCount
  | .symCount => s.symCount
  | .distinct => s.distinct
  | .treeBits => s.treeBits
  | .payloadBits => s.payloadBits
  | .freq => s.freq
  | .codeLen => s.codeLen
  | .codeW j => s.codeW.getD j 0
  | .reserved => 0

end Sys2Proof.Machine
end

