-- ==== Sys2Proof/Machine/Framer.lean ====
section
/-! DEFINITION. The bitstream framer's commands (spec/41_framer.md rules R144 and R145). -/

namespace Sys2Proof.Machine

open Host (Outcome)

/-- What FRAME computes (R144). -/
def State.frameResult (s : State) : Except ErrKind (List Byte) := do
  s.checkBitLen
  if 8 + ceilDiv s.bitLen.toNat 8 > s.cfg.outCap then .error .capacity
  else .ok (frameBytes s.bitsSeq)

/-- FRAME (R144). -/
def execFrame (s : State) : Outcome State Fault Refusal :=
  complete .frame s.frameResult (fun bytes s => (s.putOut bytes).putReg .outLen (word bytes.length)) s

/-- What UNFRAME computes (R145): a body shorter than the count is reported before a count above `BIT_CAP` (R284), and
the count is a natural number, so no length wraps. -/
def State.unframeResult (s : State) : Except ErrKind Bits := do
  s.checkInLen
  if s.inLen.toNat < 8 then .error .truncatedInput
  else
    let count := leBytesValue (s.inBuf.readBytes 0 8)
    if 8 + ceilDiv count 8 > s.inLen.toNat then .error .truncatedInput
    else if count > s.cfg.bitCap then .error .capacity
    else .ok (unpack (s.inBuf.readBytes 8 (ceilDiv count 8)) count)

/-- UNFRAME (R145). -/
def execUnframe (s : State) : Outcome State Fault Refusal :=
  complete .unframe s.unframeResult (fun bits s => (s.putBits bits).putReg .bitLen (word bits.length)) s

end Sys2Proof.Machine
end

