-- ==== Sys2Proof/Machine/Primitives.lean ====
section
/-! DEFINITION. The primitive codec commands (spec/40_primitives.md rules R124 to R127). -/

namespace Sys2Proof.Machine

open Host (Outcome)

/-- BYTES_OF (R124): no error. -/
def execBytesOf (s : State) : Outcome State Fault Refusal :=
  complete .bytesOf (.ok (bytesOf s.cfg s.symbol))
    (fun bytes s => (s.putOut bytes).putReg .outLen (word s.cfg.symBytes)) s

/-- What VALUE_OF_BYTES computes (R125). -/
def State.valueOfBytesResult (s : State) : Except ErrKind Symbol := do
  s.checkInLen
  valueOfBytes s.cfg s.inSeq s.start.toNat

/-- VALUE_OF_BYTES (R125). -/
def execValueOfBytes (s : State) : Outcome State Fault Refusal :=
  complete .valueOfBytes s.valueOfBytesResult (fun v s => s.putReg .value v) s

/-- BITS_OF (R126): no error. -/
def execBitsOf (s : State) : Outcome State Fault Refusal :=
  complete .bitsOf (.ok (bitsOf s.cfg s.symbol))
    (fun bits s => (s.putBits bits).putReg .bitLen (word s.cfg.w)) s

/-- What VALUE_OF_BITS computes (R127). -/
def State.valueOfBitsResult (s : State) : Except ErrKind Symbol := do
  s.checkBitLen
  valueOfBits s.cfg s.bitsSeq s.start.toNat

/-- VALUE_OF_BITS (R127). -/
def execValueOfBits (s : State) : Outcome State Fault Refusal :=
  complete .valueOfBits s.valueOfBitsResult (fun v s => s.putReg .value v) s

end Sys2Proof.Machine
end

