-- ==== Sys2Proof/Machine/TreeBuilder.lean ====
section
/-! DEFINITION. The tree builder: frequency counter, leaves, merge loop and code table (spec/42_tree_builder.md rules R160 to
R174), and the commands BUILD, FREQ and LOOKUP (R176 to R178). The sub-phases of R175 are the functions `countFreq`,
`makeLeaves`, `mergeLoop` and `codesOf`, performed in the one completion step. -/

namespace Sys2Proof.Machine

open Host (Outcome)

/-- `read_symbols` (R162): a final partial symbol is a truncation, found before any counting. -/
def readSymbols (c : Config) (bytes : List Byte) : Except ErrKind (List Symbol) :=
  if bytes.length % c.symBytes ≠ 0 then .error .truncatedInput
  else (List.range (bytes.length / c.symBytes)).mapM fun i => valueOfBytes c bytes (i * c.symBytes)

/-- `FT[s]` (R45). -/
def FreqTable.count (ft : FreqTable) (s : Symbol) : Count := (List.lookup s ft).getD 0

/-- `FT[s] <- FT[s] + 1`, the table kept in ascending symbol order. No counter of `FREQ_WIDTH` bits wraps, since an input
has fewer than 2^64 symbols (R164). -/
def FreqTable.bump : FreqTable → Symbol → FreqTable
  | [], s => [(s, 1)]
  | (t, n) :: ft, s =>
    if s.toNat < t.toNat then (s, 1) :: (t, n) :: ft
    else if s = t then (t, n + 1) :: ft
    else (t, n) :: FreqTable.bump ft s

/-- The counting loop of `count_freq` (R163) from a table whose present symbols are its entries. -/
def countFrom (c : Config) : List Symbol → FreqTable → Except ErrKind FreqTable
  | [], ft => .ok ft
  | s :: syms, ft =>
    if FreqTable.count ft s = 0 ∧ ft.length = c.maxDistinct then .error .capacity
    else countFrom c syms (FreqTable.bump ft s)

/-- `count_freq` (R163); D is the table's length. -/
def countFreq (c : Config) (syms : List Symbol) : Except ErrKind FreqTable := countFrom c syms []

/-- The ordering key of a symbol (R165): unsigned, or two's complement of `W` bits. -/
def symbolKey (c : Config) (s : Symbol) : Int :=
  if c.keySigned then (s.setWidth c.w).toInt else s.toNat

/-- Inserting a table entry in ascending key order. -/
def insertByKey (c : Config) (e : Symbol × Count) : FreqTable → FreqTable
  | [] => [e]
  | f :: fs => if symbolKey c e.1 < symbolKey c f.1 then e :: f :: fs else f :: insertByKey c e fs

/-- The table's entries in ascending key order. -/
def sortByKey (c : Config) : FreqTable → FreqTable
  | [] => []
  | e :: es => insertByKey c e (sortByKey c es)

/-- `make_leaves` (R165): the creation index is the position. -/
def makeLeaves (c : Config) (ft : FreqTable) : List CodeTree := (sortByKey c ft).map fun e => .leaf e.1 e.2

/-- `freq(t)` (R14, R166). -/
def CodeTree.freq : CodeTree → Count
  | .leaf _ f => f
  | .node _ _ f => f

/-- `syms(t)`: the leaf symbols from left to right (R14). -/
def CodeTree.syms : CodeTree → List Symbol
  | .leaf s _ => [s]
  | .node l r _ => l.syms ++ r.syms

/-- The number of leaves. -/
def CodeTree.leaves : CodeTree → Nat
  | .leaf _ _ => 1
  | .node l r _ => l.leaves + r.leaves

/-- The number of nodes, leaves included: the node store entries the tree takes (R46). -/
def CodeTree.nodes : CodeTree → Nat
  | .leaf _ _ => 1
  | .node l r _ => 1 + l.nodes + r.nodes

/-- `insert_ordered` (R167): after every entry of equal or higher frequency. -/
def insertOrdered (work : List CodeTree) (n : CodeTree) : List CodeTree :=
  let p := work.countP fun e => decide (n.freq ≤ e.freq)
  work.take p ++ n :: work.drop p

/-- Appending one bit to the growing code of every listed symbol (R169). -/
def appendBit (syms : List Symbol) (b : Bool) (g : CodeTable) : CodeTable :=
  g.map fun e => if e.1 ∈ syms then (e.1, e.2 ++ [b]) else e

/-- One merge (R168, R169): the last entry of the list is `lower`, the left child, bit 0; the entry last after its
removal is `other`, the right child, bit 1; the new node is re-inserted. -/
def mergeOnce (rest : List CodeTree) (lo ot : CodeTree) (g : CodeTable) : List CodeTree × CodeTable :=
  (insertOrdered rest (.node lo ot (lo.freq + ot.freq)), appendBit ot.syms true (appendBit lo.syms false g))

/-- The loop of `merge_loop` (R170). Each merge shortens the list by one, so a count of rounds at least the list's length
lets it end; a list of fewer than two entries ends it. -/
def mergeRounds : Nat → List CodeTree × CodeTable → List CodeTree × CodeTable
  | 0, wg => wg
  | n + 1, (work, g) =>
    match work.reverse with
    | [] => (work, g)
    | [_] => (work, g)
    | lo :: ot :: rest => mergeRounds n (mergeOnce rest.reverse lo ot g)

/-- The reversal of `merge_loop`: codes are assembled leaf-to-root (R170). -/
def codesOf (g : CodeTable) : CodeTable := g.map fun e => (e.1, e.2.reverse)

/-- `merge_loop` (R170): the root, `Empty` for no leaf (R171), and the code table. -/
def mergeLoop (ft : FreqTable) (leaves : List CodeTree) : Option CodeTree × CodeTable :=
  let work := leaves.foldl insertOrdered []
  let (work, g) := mergeRounds leaves.length (work, ft.map fun e => (e.1, []))
  (work.head?, codesOf g)

/-- What BUILD and ENCODE make of an input of `bytes` (R162 to R170). -/
def buildFrom (c : Config) (bytes : List Byte) : Except ErrKind Built := do
  let syms ← readSymbols c bytes
  let ft ← countFreq c syms
  let (root, ct) := mergeLoop ft (makeLeaves c ft)
  .ok { syms := syms, freqTable := ft, tree := root, codeTable := ct }

/-- What BUILD computes (R176). -/
def State.buildResult (s : State) : Except ErrKind Built := do
  s.checkInLen
  buildFrom s.cfg s.inSeq

/-- FT, T, CT and their flags take what the builder made, and SYM_COUNT and DISTINCT its counts (R176, R250). -/
def State.putBuilt (b : Built) (s : State) : State :=
  (({ s with freqTable := b.freqTable, tree := b.tree, codeTable := b.codeTable }
    |>.tablesBuilt b.tree.isNone).putReg .symCount (word b.syms.length)).putReg .distinct (word b.freqTable.length)

/-- BUILD (R176). -/
def execBuild (s : State) : Outcome State Fault Refusal := complete .build s.buildResult State.putBuilt s

/-- What FREQ computes (R177): an absent symbol reads 0. -/
def State.freqResult (s : State) : Except ErrKind Count :=
  if s.freqValid then .ok (FreqTable.count s.freqTable s.symbol) else .error .noTree

/-- FREQ (R177). -/
def execFreq (s : State) : Outcome State Fault Refusal :=
  complete .freq s.freqResult (fun n s => s.putReg .freq (n.setWidth 64)) s

/-- What LOOKUP computes (R178): the symbol's code. -/
def State.lookupResult (s : State) : Except ErrKind Bits :=
  if s.tableValid then
    match List.lookup s.symbol s.codeTable with
    | some code => .ok code
    | none => .error .noSymbol
  else .error .noTree

/-- CODE_W[j] for a code (R39): code bit i is bit 63 - (i mod 64) of word i div 64, the bits beyond the code 0. -/
def codeWord (code : Bits) (j : Nat) : Word :=
  BitVec.ofNat 64 (lsbValue ((List.range 64).map fun q => code.getD (64 * j + (63 - q)) false))

/-- LOOKUP (R178). -/
def execLookup (s : State) : Outcome State Fault Refusal :=
  complete .lookup s.lookupResult
    (fun code s => { s.putReg .codeLen (word code.length) with
      codeW := (List.range s.cfg.codeWords).map (codeWord code) }) s

end Sys2Proof.Machine
end

