-- ==== Sys2Proof/Machine/TreeSerdes.lean ====
section
/-! DEFINITION. The pre-order tree serializer and deserializer (spec/43_tree_serdes.md rules R200 to R204, R208) and the
commands SERIALIZE and DESERIALIZE (R205, R206). -/

namespace Sys2Proof.Machine

open Host (Outcome)

/-- `ser` of a non-empty tree (R200): pre-order; frequencies are not serialized. -/
def CodeTree.ser (c : Config) : CodeTree → Bits
  | .leaf s _ => true :: bitsOf c s
  | .node l r _ => false :: (l.ser c ++ r.ser c)

/-- `ser`; the `Empty` tree is the zero-length sequence (R201). -/
def serTree (c : Config) : Option CodeTree → Bits
  | none => []
  | some t => t.ser c

/-- What SERIALIZE computes (R205). -/
def State.serializeResult (s : State) : Except ErrKind Bits :=
  if s.treeValid then
    if (serTree s.cfg s.tree).length > s.cfg.bitCap then .error .capacity
    else .ok (serTree s.cfg s.tree)
  else .error .noTree

/-- SERIALIZE (R205). -/
def execSerialize (s : State) : Outcome State Fault Refusal :=
  complete .serialize s.serializeResult
    (fun bits s => ((s.putBits bits).putReg .bitLen (word bits.length)).putReg .treeBits (word bits.length)) s

/-- `node()` of `deser` (R203): reads one tree at cursor `cur` when `count` nodes exist, and gives the tree, the new cursor
and the new count. Every call takes a tag bit first, so `depth` above the bits that remain is never used up; with no
bit left there is no tag bit. -/
def deserNode (c : Config) (bits : Bits) : (depth cur count : Nat) → Except ErrKind (CodeTree × Nat × Nat)
  | 0, _, _ => .error .malformedTree
  | depth + 1, cur, count =>
    match bits[cur]? with
    | none => .error .malformedTree
    | some tag =>
      if count = c.nodeCap then .error .capacity
      else if tag then
        match valueOfBits c bits (cur + 1) with
        | .ok sym => .ok (.leaf sym 0, cur + 1 + c.w, count + 1)
        | .error _ => .error .malformedTree
      else do
        let (l, curL, countL) ← deserNode c bits depth (cur + 1) (count + 1)
        let (r, curR, countR) ← deserNode c bits depth curL countL
        .ok (.node l r 0, curR, countR)

/-- `deser(S, c0)` (R203): the tree and the bits consumed. -/
def deser (c : Config) (bits : Bits) (start : Nat) : Except ErrKind (CodeTree × Nat) := do
  let (t, cur, _) ← deserNode c bits (bits.length + 1) start 0
  .ok (t, cur - start)

/-- What DESERIALIZE computes (R206). -/
def State.deserializeResult (s : State) : Except ErrKind (CodeTree × Nat) := do
  s.checkBitLen
  deser s.cfg s.bitsSeq s.start.toNat

/-- DESERIALIZE (R206). -/
def execDeserialize (s : State) : Outcome State Fault Refusal :=
  complete .deserialize s.deserializeResult
    (fun (t, k) s => (({ s with tree := some t }.treeRebuilt false).putReg .distinct (word t.leaves)).putReg
      .treeBits (word k)) s

end Sys2Proof.Machine
end

