-- ==== Sys2Proof/Machine/StreamCodec.lean ====
section
/-! DEFINITION. The stream encoder and the stream decoder (spec/44_stream_codec.md rules R230 to R249) and the commands
ENCODE and DECODE (R250, R251). -/

namespace Sys2Proof.Machine

open Host (Outcome)

/-- `payload_of` (R231). -/
def payloadOf (syms : List Symbol) (ct : CodeTable) : Bits := syms.flatMap fun s => (List.lookup s ct).getD []

/-- What ENCODE computes (R250). -/
def State.encodeResult (s : State) : Except ErrKind Encoded := do
  s.checkInLen
  let b ← buildFrom s.cfg s.inSeq
  let treePart := serTree s.cfg b.tree
  let payload := payloadOf b.syms b.codeTable
  if (treePart ++ payload).length > s.cfg.bitCap then .error .capacity
  else .ok { built := b, treeBits := treePart, payload := payload }

/-- ENCODE (R250): the stream is the serialized tree, then the payload (R230). -/
def execEncode (s : State) : Outcome State Fault Refusal :=
  complete .encode s.encodeResult
    (fun e s => ((((s.putBits (e.treeBits ++ e.payload)).putBuilt e.built).putReg .bitLen
      (word (e.treeBits ++ e.payload).length)).putReg .treeBits (word e.treeBits.length)).putReg
      .payloadBits (word e.payload.length)) s

/-- `emit` (R249): a symbol that would not fit in OUT fails. -/
def emit (c : Config) (out : List Symbol) (s : Symbol) : Except ErrKind (List Symbol) :=
  if (out.length + 1) * c.symBytes > c.outCap then .error .capacity else .ok (out ++ [s])

/-- Emitting one symbol n times (R244). -/
def emitRepeat (c : Config) (s : Symbol) : Nat → List Symbol → Except ErrKind (List Symbol)
  | 0, out => .ok out
  | n + 1, out => do
    let out ← emit c out s
    emitRepeat c s n out

/-- One step down the tree: left on 0, right on 1 (R240). The decoder never steps from a leaf. -/
def CodeTree.child : CodeTree → Bool → CodeTree
  | .leaf s f, _ => .leaf s f
  | .node l r _, b => if b then r else l

/-- `walk` (R240 to R243) over the bits from the cursor on, at `node`, with `d` bits of the current code read. It ends at
the end of the bits: normally at depth 0, with the partial code dropped if the host opted in, else as a truncation. -/
def walk (c : Config) (acceptTrunc : Bool) (root : CodeTree) :
    (rest : Bits) → (node : CodeTree) → (d : Nat) → (out : List Symbol) → Except ErrKind (List Symbol × Bool)
  | [], _, d, out =>
    if d = 0 then .ok (out, false)
    else if acceptTrunc then .ok (out, true)
    else .error .truncatedPayload
  | b :: rest, node, d, out =>
    match node.child b with
    | .leaf s _ => do
      let out ← emit c out s
      walk c acceptTrunc root rest root 0 out
    | .node l r f => walk c acceptTrunc root rest (.node l r f) (d + 1) out

/-- DECODE's payload part after a tree of k bits (R251): a single leaf is emitted EXP_COUNT times and the bits after it
are not read (R244, R245); otherwise the walk takes every bit, and EXP_COUNT is not read (R247). -/
def decodePayload (c : Config) (bits : Bits) (expCount : Nat) (acceptTrunc : Bool) (t : CodeTree) (k : Nat) :
    Except ErrKind DecodedStream :=
  match t with
  | .leaf s f => do
    let out ← emitRepeat c s expCount []
    .ok { tree := some (.leaf s f), k := k, out := out, used := 0, part := false }
  | .node l r f => do
    let (out, part) ← walk c acceptTrunc (.node l r f) (bits.drop k) (.node l r f) 0 []
    .ok { tree := some (.node l r f), k := k, out := out, used := bits.length - k, part := part }

/-- DECODE of a bit stream (R251), with the empty stream's special case (R246). -/
def decodeFrom (c : Config) (bits : Bits) (expCount : Nat) (acceptTrunc : Bool) : Except ErrKind DecodedStream :=
  if bits.length = 0 then
    if expCount ≠ 0 then .error .malformedTree
    else .ok { tree := none, k := 0, out := [], used := 0, part := false }
  else do
    let (t, k) ← deser c bits 0
    decodePayload c bits expCount acceptTrunc t k

/-- What DECODE computes (R251). -/
def State.decodeResult (s : State) : Except ErrKind DecodedStream := do
  s.checkBitLen
  decodeFrom s.cfg s.bitsSeq s.expCount.toNat s.acceptTrunc

/-- The leaves of a whole tree; 0 for `Empty` (R34). -/
def treeLeaves : Option CodeTree → Nat
  | none => 0
  | some t => t.leaves

/-- DECODE's results on success (R251). -/
def State.putDecoded (d : DecodedStream) (s : State) : State :=
  let s := { s with tree := d.tree }.treeRebuilt d.tree.isNone
  let s := s.putOut (d.out.flatMap (bytesOf s.cfg))
  let s := s.putReg .outLen (word (d.out.length * s.cfg.symBytes))
  let s := s.putReg .symCount (word d.out.length)
  let s := s.putReg .distinct (word (treeLeaves d.tree))
  let s := s.putReg .treeBits (word d.k)
  let s := s.putReg .payloadBits (word d.used)
  { s with partialFlag := d.part }

/-- DECODE (R251). -/
def execDecode (s : State) : Outcome State Fault Refusal := complete .decode s.decodeResult State.putDecoded s

end Sys2Proof.Machine
end

