-- ==== Sys2Proof/Machine/Dispatch.lean ====
section
/-! DEFINITION. The dispatch of the thirteen commands to their meanings: what the engine's completion step does for the
latched command (spec/60_exceptions.md rule R280). -/

namespace Sys2Proof.Machine

open Host

def exec (i : Instr) (s : State) : Host.Outcome State Fault Refusal :=
  match i with
  | .bytesOf => Sys2Proof.Machine.execBytesOf s
  | .valueOfBytes => Sys2Proof.Machine.execValueOfBytes s
  | .bitsOf => Sys2Proof.Machine.execBitsOf s
  | .valueOfBits => Sys2Proof.Machine.execValueOfBits s
  | .frame => Sys2Proof.Machine.execFrame s
  | .unframe => Sys2Proof.Machine.execUnframe s
  | .build => Sys2Proof.Machine.execBuild s
  | .freq => Sys2Proof.Machine.execFreq s
  | .lookup => Sys2Proof.Machine.execLookup s
  | .serialize => Sys2Proof.Machine.execSerialize s
  | .deserialize => Sys2Proof.Machine.execDeserialize s
  | .encode => Sys2Proof.Machine.execEncode s
  | .decode => Sys2Proof.Machine.execDecode s

end Sys2Proof.Machine
end

