-- ==== Sys2Proof/Machine/HostAgent.lean ====
section
/-! DEFINITION. The host agent (spec/10_state.md rule R20): its transactions with the block (spec/20_memory.md rules R60 to
R80), the hazards while a command runs (spec/70_reset_and_hazards.md rules R303 to R305), the reset input (R300, R301), and
the host script (spec/30_encoding.md rules R97 to R99). -/

namespace Sys2Proof.Machine

open Host (Outcome)

/-- The byte ranges of R49 for a running command: the buffer it writes and how many of its bytes from offset 0; `none`
bytes is the whole buffer, which a command that is going to fail makes unspecified (R281, assumption 9). -/
def State.writeRange (s : State) : Instr → Option (Space × Option Nat)
  | .bytesOf => some (.output, some s.cfg.symBytes)
  | .valueOfBytes => none
  | .bitsOf => some (.bits, some s.cfg.symBytes)
  | .valueOfBits => none
  | .frame => some (.output, (s.frameResult.toOption.map List.length))
  | .unframe => some (.bits, (s.unframeResult.toOption.map fun b => ceilDiv b.length 8))
  | .build => none
  | .freq => none
  | .lookup => none
  | .serialize => some (.bits, (s.serializeResult.toOption.map fun b => ceilDiv b.length 8))
  | .deserialize => none
  | .encode =>
    some (.bits, (s.encodeResult.toOption.map fun e => ceilDiv (e.treeBits.length + e.payload.length) 8))
  | .decode => some (.output, (s.decodeResult.toOption.map fun d => d.out.length * s.cfg.symBytes))

/-- A register is in the running command's write set, STATUS excepted (R80). An illegal command writes nothing else. -/
def State.regPending (s : State) (r : Reg) : Bool :=
  match s.phase with
  | .idle => false
  | .exec (.legal i) _ => decide (r ∈ writeRegs s.cfg i)
  | .exec (.illegal _) _ => false

/-- A buffer byte is in the running command's write set (R80). -/
def State.bytePending (s : State) (sp : Space) (a : Nat) : Bool :=
  match s.phase with
  | .idle => false
  | .exec (.legal i) _ =>
    match s.writeRange i with
    | none => false
    | some (sp', none) => decide (sp = sp')
    | some (sp', some n) => decide (sp = sp') && decide (a < n)
  | .exec (.illegal _) _ => false

/-- The host has read a value. -/
def State.saw (x : Reading) (s : State) : State := { s with seen := x :: s.seen }

/-- `RegRead(n)` (R61, R74): a free value while reset is asserted (R300) or the register is in the running command's
write set (R80), else the register's value. Reads have no side effect on the block. -/
def State.readReg (n : Nat) (expected : Option Word) (s : State) : State :=
  if s.inReset || s.regPending (regOfNumber s.cfg n) then
    { s.saw (.reg n (Config.freeWord s.draws) expected) with draws := s.draws + 1 }
  else s.saw (.reg n (s.reg (regOfNumber s.cfg n)) expected)

/-- `BufRead(SP, a)` (R62): 0 at or beyond the buffer's size, a free value while reset is asserted (R300) or the byte is
in the running command's write set (R80), else the byte. -/
def State.readBuf (sp : Space) (a : Nat) (s : State) : State :=
  if s.inReset then { s.saw (.byte sp a (Config.freeByteRead s.draws)) with draws := s.draws + 1 }
  else if bufSize s.cfg sp ≤ a then s.saw (.byte sp a 0)
  else if s.bytePending sp a then { s.saw (.byte sp a (Config.freeByteRead s.draws)) with draws := s.draws + 1 }
  else s.saw (.byte sp a ((s.buf sp).byte a))

/-- A host write that has no meaning while a command runs (R304), else its effect. -/
def State.inputWrite (t : Txn) (effect : State → State) (s : State) : Outcome State Fault Refusal :=
  if s.busy then .fault (.inputWriteWhileBusy t) else .next (effect s)

/-- A write to CMD (R25, R90): acceptance when the engine is IDLE (R280); while BUSY = 1 it is dropped and sets OVR
(R303). -/
def State.writeCmd (w : Word) (s : State) : State := if s.busy then { s with ovr := true } else s.accept w

/-- `RegWrite(n, v)` (R61): the RW registers, CMD and STATUS; writes to RO and reserved registers are ignored (R40). While
reset is asserted it has no effect (R300). -/
def State.writeReg (n : Nat) (v : Word) (s : State) : Outcome State Fault Refusal :=
  if s.inReset then .next s
  else match regOfNumber s.cfg n with
    | .ctrl => s.inputWrite (.regWrite n v) (State.writeCtrl v)
    | .cmd => .next (s.writeCmd v)
    | .status => .next (s.writeStatus v)
    | .inLen => s.inputWrite (.regWrite n v) fun s => { s with inLen := v }
    | .bitLen => s.inputWrite (.regWrite n v) fun s => { s with bitLen := v }
    | .start => s.inputWrite (.regWrite n v) fun s => { s with start := v }
    | .value => s.inputWrite (.regWrite n v) fun s => { s with value := v }
    | .expCount => s.inputWrite (.regWrite n v) fun s => { s with expCount := v }
    | .id => .next s
    | .cfg => .next s
    | .capIn => .next s
    | .capOut => .next s
    | .capBits => .next s
    | .capDistinct => .next s
    | .outLen => .next s
    | .symCount => .next s
    | .distinct => .next s
    | .treeBits => .next s
    | .payloadBits => .next s
    | .freq => .next s
    | .codeLen => .next s
    | .codeW _ => .next s
    | .reserved => .next s

/-- `BufWrite(SP, a, v)` (R62): ignored at or beyond the buffer's size and for OUT. While reset is asserted it has no
effect (R300). -/
def State.writeBuf (sp : Space) (a : Nat) (v : Byte) (s : State) : Outcome State Fault Refusal :=
  if s.inReset || decide (bufSize s.cfg sp ≤ a) then .next s
  else match sp with
    | .output => .next s
    | .input => s.inputWrite (.bufWrite .input a v) fun s => s.setBuf .input ((s.buf .input).writeByte a v)
    | .bits => s.inputWrite (.bufWrite .bits a v) fun s => s.setBuf .bits ((s.buf .bits).writeByte a v)

/-- One host transaction (R77: they take effect one at a time). -/
def performTxn (t : Txn) (s : State) : Outcome State Fault Refusal :=
  match t with
  | .regRead n expected => .next (s.readReg n expected)
  | .regWrite n v => s.writeReg n v
  | .bufRead sp a => .next (s.readBuf sp a)
  | .bufWrite sp a v => s.writeBuf sp a v

/-- The reset input driven to a level (R300): asserting it abandons a running command (R301) and resets the block;
releasing it leaves every piece of the block's state at its reset value; a level it already has changes nothing. -/
def State.drivePin (level : Bool) (s : State) : State :=
  if level = s.cfg.resetActiveLevel then s.loadReset true
  else if s.inReset then s.loadReset false
  else s

/-- The field of a register value (R10). -/
def Field.get (f : Field) (v : Word) : Nat := v.toNat / 2 ^ f.lo % 2 ^ (f.hi + 1 - f.lo)

/-- The register value with the field set (R98). DESIGN CHOICE: of a value wider than the field only the bits that fit are
written (assumption 17). -/
def Field.set (f : Field) (old v : Word) : Word :=
  let mask : Word := BitVec.ofNat 64 ((2 ^ (f.hi + 1 - f.lo) - 1) * 2 ^ f.lo)
  (old &&& ~~~mask) ||| ((v <<< f.lo) &&& mask)

/-- The last value the host read of a register (R97). -/
def lastRead (n : Nat) : List Reading → Option Word
  | [] => none
  | .reg m v _ :: rest => if m = n then some v else lastRead n rest
  | .byte _ _ _ :: rest => lastRead n rest

/-- The last value read of a register; of one never read, a free value (assumption 10). -/
def State.lastValue (n : Nat) (s : State) : Word × State :=
  match lastRead n s.seen with
  | some v => (v, s)
  | none => (Config.freeWord s.draws, { s with draws := s.draws + 1 })

/-- The position of a label in a script (R97). -/
def labelPos (l : Nat) (script : List Stmt) : Option Nat := script.findIdx? fun st => decide (st = .label l)

/-- `BNZ <reg>.<field>, <label>` (R97): host control flow, no transaction. -/
def branchNonZero (n : Nat) (f : Field) (l : Nat) (s : State) : Outcome State Fault Refusal :=
  let (v, s) := s.lastValue n
  if f.get v ≠ 0 then
    match labelPos l s.script with
    | some p => .next { s with scriptPos := p }
    | none => .refused (.undefinedLabel l)
  else .next s

/-- The register number of CMD (R25). -/
def cmdNumber : Nat := 0x07

/-- The bytes of the bus value of a multi-byte write of n bytes (R62), least significant first. DESIGN CHOICE: of a value
wider than n bytes, which an n-byte access cannot carry, the low n bytes are taken (assumption 15). -/
def busBytes (n v : Nat) : List Byte := (List.range n).map fun i => BitVec.ofNat 8 (v / 2 ^ (8 * i))

/-- The byte writes of successive bytes from an offset (R97, `WB`). -/
def writeTxns (sp : Space) (off : Nat) (bytes : List Byte) : List Txn :=
  bytes.zipIdx.map fun x => .bufWrite sp (off + x.2) x.1

/-- The byte reads of n bytes from an offset (R97, `RB`). -/
def readTxns (sp : Space) (off n : Nat) : List Txn := (List.range n).map fun i => .bufRead sp (off + i)

/-- The bytes of the host's last n reads, byte `off` first, when those are the reads of bytes off .. off + n - 1 of a
buffer in that order; `seen` is newest first. -/
def bytesRead (sp : Space) (off : Nat) : Nat → List Reading → Option (List Byte)
  | 0, _ => some []
  | n + 1, .byte sp' a v :: seen => if sp' = sp ∧ a = off + n then (bytesRead sp off n seen).map (· ++ [v]) else none
  | _ + 1, .reg _ _ _ :: _ => none
  | _ + 1, [] => none

/-- The bus value a multi-byte read of n bytes at bus address addr has returned when its last byte has been read (R62):
byte addr is its least significant byte. `none` where the host's last reads are not those of that access. -/
def State.busReadValue (s : State) (sp : Space) (addr n : Nat) : Option Nat :=
  (windowOffset (bufferBase s.cfg sp) addr).bind fun off => (bytesRead sp off n s.seen).map leBytesValue

/-- A statement's transactions are performed one per host step, the first now. -/
def performFirst (ts : List Txn) (s : State) : Outcome State Fault Refusal :=
  match ts with
  | [] => .next s
  | t :: rest => performTxn t { s with pending := rest }

/-- A bus access to the register window: only the whole aligned word has a meaning (R61, R73). -/
def busRegTxn (addr n : Nat) (mk : Nat → Txn) (s : State) : Outcome State Fault Refusal :=
  match busRegister s.cfg addr n with
  | some k => performTxn (mk k) s
  | none => .refused (.partialRegisterAccess addr n)

/-- A bus access to a buffer's window (R62). The value of a read is `State.busReadValue`. -/
def busBufTxns (sp : Space) (addr : Nat) (mk : Nat → List Txn) (s : State) : Outcome State Fault Refusal :=
  match windowOffset (bufferBase s.cfg sp) addr with
  | some off => performFirst (mk off) s
  | none => .refused (.addressOutsideWindow sp addr)

/-- One statement of a host script (R97, R98). -/
def runStmt (st : Stmt) (s : State) : Outcome State Fault Refusal :=
  match st with
  | .wr n v => performTxn (.regWrite n v) s
  | .rd n expected => performTxn (.regRead n expected) s
  | .wb sp off bytes => performFirst (writeTxns sp off bytes) s
  | .rb sp off n => performFirst (readTxns sp off n) s
  | .cmd i => performTxn (.regWrite cmdNumber (encodeCmd i)) s
  | .label _ => .next s
  | .bnz n f l => branchNonZero n f l s
  | .wrOld n f v =>
    let (old, s) := s.lastValue n
    performTxn (.regWrite n (f.set old v)) s
  | .busRegWr addr n v => busRegTxn addr n (fun k => .regWrite k v) s
  | .busRegRd addr n => busRegTxn addr n (fun k => .regRead k none) s
  | .busBufWr sp addr n v => busBufTxns sp addr (fun off => writeTxns sp off (busBytes n v)) s
  | .busBufRd sp addr n => busBufTxns sp addr (fun off => readTxns sp off n) s
  | .resetPin level => .next (s.drivePin level)

/-- The host has no transaction and no statement left. -/
def State.hostDone (s : State) : Bool := s.pending.isEmpty && decide (s.script.length ≤ s.scriptPos)

/-- One host step: the next pending transaction, or the script's next statement; a host that is done does nothing. -/
def hostStep (s : State) : Outcome State Fault Refusal :=
  match s.pending with
  | t :: rest => performTxn t { s with pending := rest }
  | [] =>
    match s.script[s.scriptPos]? with
    | some st => runStmt st { s with scriptPos := s.scriptPos + 1 }
    | none => .next s

/-- The engine's completion step (R280): the latched command's meaning, or ILLEGAL_CMD, which writes nothing but STATUS
(R279). -/
def completeOp (op : Decoded) (s : State) : Outcome State Fault Refusal :=
  match op with
  | .legal i => exec i s
  | .illegal _ => .next (s.finish (some .illegalCmd))

/-- STATUS.BUSY as a script's field (R26). -/
def fieldBusy : Field := ⟨0, 0⟩

/-- The number of STATUS (R26). -/
def statusNumber : Nat := 0x08

/-- The pseudo-statement `WAIT` with label w (R98). -/
def pseudoWait (w : Nat) : List Stmt := [.label w, .rd statusNumber none, .bnz statusNumber fieldBusy w]

/-- The pseudo-statement `RUN <mnemonic>` (R98). -/
def pseudoRun (i : Instr) (w : Nat) : List Stmt := .cmd i :: pseudoWait w

/-- The pseudo-statement `CLR` (R98). -/
def pseudoClr : List Stmt := [.wr statusNumber 0x6]

/-- The pseudo-statement `WR <reg>.<field>, v` (R98). -/
def pseudoWrField (n : Nat) (f : Field) (v : Word) : List Stmt := [.rd n none, .wrOld n f v]

end Sys2Proof.Machine
end

