-- ==== Sys2Proof/Machine/Step.lean ====
section
/-! DEFINITION. One step of the machine: the engine or the host moves, as `State.phase` says. While the engine is IDLE the
host moves. In EXEC the host moves while latency remains and it has something left to do; then the engine completes the
command in one step (spec/60_exceptions.md rule R280, spec/70_reset_and_hazards.md rule R309). -/

namespace Sys2Proof.Machine

open Host (Outcome)

/-- One step of the machine. -/
def step (s : State) : Outcome State Fault Refusal :=
  match s.phase with
  | .idle => hostStep s
  | .exec op 0 => completeOp op s
  | .exec op (n + 1) => if s.hostDone then completeOp op s else hostStep { s with phase := .exec op n }

/-- The state in which the very next step runs the command whose word has the low `nbits` bits of `w`: the word has just
been accepted (R280) and no latency is left. The block fetches nothing (R83): a command comes to run from reset by a
host write to CMD, which this stands for (assumption 5). -/
def State.withFetchWord (s : State) (nbits w : Nat) : State := s.acceptWith (BitVec.ofNat 64 (w % 2 ^ nbits)) 0

end Sys2Proof.Machine
end

