-- ==== Sys2Proof/Machine/DecoderFsm.lean ====
section
/-! DEFINITION. The decoder's traversal state machine inside EXEC (spec/44_stream_codec.md rule R248), one step per row of
the rule's table. The host cannot see it and DECODE completes in one step by rule R251; "It is the same computation as rules
R240 and R244", which Sys2Proof/Certificates/Slice0/Obligations.lean states. -/

namespace Sys2Proof.Machine

/-- The states of R248's table, and the two ways the machine stops: D_FINISH, and a raised error. -/
inductive DecState where
  | dTree
  | dRepeat
  | dBit
  | dLeaf
  | dFinish
  | raised (e : ErrKind)
  deriving DecidableEq, Repr

/-- The traversal machine's registers: its state, the tree and its end k, the cursor, the current node, the depth in the
current code, the emitted symbols, and the PARTIAL flag. -/
structure DecFsm where
  st : DecState
  root : Option CodeTree
  k : Nat
  cur : Nat
  node : Option CodeTree
  d : Nat
  out : List Symbol
  part : Bool
  deriving DecidableEq, Repr

/-- The machine as DECODE starts it on a non-empty stream. -/
def DecFsm.start : DecFsm :=
  { st := .dTree, root := none, k := 0, cur := 0, node := none, d := 0, out := [], part := false }

/-- `emit` in a state of the machine (R249), then the state `next`. -/
def DecFsm.emitThen (c : Config) (sym : Symbol) (next : DecState) (m : DecFsm) : DecFsm :=
  match emit c m.out sym with
  | .ok out => { m with out := out, st := next }
  | .error e => { m with st := .raised e }

/-- The row D_TREE. -/
def DecFsm.treeStep (c : Config) (bits : Bits) (m : DecFsm) : DecFsm :=
  match deser c bits 0 with
  | .error e => { m with st := .raised e }
  | .ok (.leaf s f, k) => { m with st := .dRepeat, root := some (.leaf s f), k := k, cur := k }
  | .ok (.node l r f, k) =>
    { m with st := .dBit, root := some (.node l r f), k := k, cur := k, node := some (.node l r f), d := 0 }

/-- The rows D_REPEAT: emit the root's symbol until EXP_COUNT symbols are out. -/
def DecFsm.repeatStep (c : Config) (expCount : Nat) (m : DecFsm) : DecFsm :=
  if m.out.length < expCount then
    match m.root with
    | some (.leaf s _) => m.emitThen c s .dRepeat
    | some (.node _ _ _) => m
    | none => m
  else { m with st := .dFinish }

/-- The rows D_BIT. -/
def DecFsm.bitStep (bits : Bits) (acceptTrunc : Bool) (m : DecFsm) : DecFsm :=
  match bits[m.cur]? with
  | some b => { m with node := m.node.map fun t => t.child b, cur := m.cur + 1, d := m.d + 1, st := .dLeaf }
  | none =>
    if m.d = 0 then { m with st := .dFinish }
    else if acceptTrunc then { m with part := true, st := .dFinish }
    else { m with st := .raised .truncatedPayload }

/-- The rows D_LEAF. -/
def DecFsm.leafStep (c : Config) (m : DecFsm) : DecFsm :=
  match m.node with
  | some (.leaf s _) => { m.emitThen c s .dBit with node := m.root, d := 0 }
  | some (.node _ _ _) => { m with st := .dBit }
  | none => { m with st := .dBit }

/-- One step of the traversal machine (R248); it stays where it has stopped. -/
def DecFsm.step (c : Config) (bits : Bits) (expCount : Nat) (acceptTrunc : Bool) (m : DecFsm) : DecFsm :=
  match m.st with
  | .dTree => m.treeStep c bits
  | .dRepeat => m.repeatStep c expCount
  | .dBit => m.bitStep bits acceptTrunc
  | .dLeaf => m.leafStep c
  | .dFinish => m
  | .raised _ => m

/-- n steps of the traversal machine. -/
def DecFsm.run (c : Config) (bits : Bits) (expCount : Nat) (acceptTrunc : Bool) : Nat → DecFsm → DecFsm
  | 0, m => m
  | n + 1, m => DecFsm.run c bits expCount acceptTrunc n (m.step c bits expCount acceptTrunc)

/-- What a stopped machine gives DECODE (R251): the results at D_FINISH, or the raised error; `none` while it runs. -/
def DecFsm.result (m : DecFsm) : Option (Except ErrKind DecodedStream) :=
  match m.st with
  | .dFinish =>
    some (.ok { tree := m.root, k := m.k, out := m.out, used := m.cur - m.k, part := m.part })
  | .raised e => some (.error e)
  | .dTree => none
  | .dRepeat => none
  | .dBit => none
  | .dLeaf => none

end Sys2Proof.Machine
end

