-- ==== Sys2Proof/WellFormed.lean ====
section
/-! DEFINITION. Well-formedness: of a configuration (R7), of a command word (R90, R94), of an instruction, and of a host
script (R97): each as a Bool or a decidable proposition. -/

namespace Sys2Proof

/-- The constraints of R7 on the parameters, and that every capacity fits the 64-bit register that reports it (R23) or a
count it bounds (R277): DEDUCED, assumption 11. -/
abbrev Config.wf (c : Config) : Prop :=
  (c.symBytes = 1 ∨ c.symBytes = 2 ∨ c.symBytes = 4 ∨ c.symBytes = 8) ∧
  (8 ≤ c.inCap ∧ c.inCap % c.symBytes = 0 ∧ c.inCap < 2 ^ 64) ∧
  (8 ≤ c.outCap ∧ c.outCap % c.symBytes = 0 ∧ c.outCap < 2 ^ 64) ∧
  (64 ≤ c.bitCap ∧ c.bitCap % 8 = 0 ∧ c.bitCap < 2 ^ 64) ∧
  (2 ≤ c.maxDistinct ∧ c.maxDistinct ≤ 2 ^ (8 * c.symBytes) ∧ 2 * c.maxDistinct - 1 < 2 ^ 64)

/-- A legal command word (R94): RSVD is 0 and OPCODE is 0x01 .. 0x0D. -/
abbrev wordWf (w : Word) : Prop := w.toNat / 256 = 0 ∧ 1 ≤ w.toNat % 256 ∧ w.toNat % 256 ≤ 0x0D

/-- An instruction is well-formed when its command word is legal; a command has no operand that could be wrong (R92). -/
abbrev Instr.wf (i : Instr) : Prop := wordWf (encodeCmd i)

namespace Machine

/-- A field lies inside the 64-bit register. -/
abbrev Field.wf (f : Field) : Prop := f.lo ≤ f.hi ∧ f.hi < 64

/-- The labels a script defines. -/
def scriptLabels (script : List Stmt) : List Nat :=
  script.filterMap fun st => if let .label l := st then some l else none

/-- One statement of a script for configuration `c` whose labels are `labels`: a branch names a defined label and a
field inside the register, and a bus access lies inside its window and, for a register, is one whole aligned word
(R61, R73, R97). -/
def Stmt.wf (c : Config) (labels : List Nat) : Stmt → Bool
  | .wr _ _ => true
  | .rd _ _ => true
  | .wb _ _ _ => true
  | .rb _ _ _ => true
  | .cmd i => decide i.wf
  | .label _ => true
  | .bnz _ f l => decide f.wf && decide (l ∈ labels)
  | .wrOld _ f _ => decide f.wf
  | .busRegWr addr n _ => (busRegister c addr n).isSome
  | .busRegRd addr n => (busRegister c addr n).isSome
  | .busBufWr sp addr _ _ => (windowOffset (bufferBase c sp) addr).isSome
  | .busBufRd sp addr _ => (windowOffset (bufferBase c sp) addr).isSome
  | .resetPin _ => true

/-- A host script is well-formed: no label is defined twice and every statement is well-formed. -/
def scriptWf (c : Config) (script : List Stmt) : Bool :=
  decide (scriptLabels script).Nodup && script.all (Stmt.wf c (scriptLabels script))

end Machine

end Sys2Proof
end

