-- ==== Sys2Proof/Safety.lean ====
section
/-! DEFINITION. The terms claims are stated in: what counts as a safe run, the invariants of the machine, and the plain
readings of an input and of a tree that the statements compare the machine with. -/

namespace Sys2Proof.Machine

/-- A safe run of n steps: no step stops, so the host broke no rule of spec/70_reset_and_hazards.md R304 or
spec/20_memory.md R73 on the way. -/
def SafeRun (n : Nat) (s : State) : Prop := ∃ t, Sys2Proof.core.run n s = .next t

/-- Every buffer is in canonical form and holds bytes only inside its size (R60, R62). -/
def State.memoryWf (s : State) : Prop :=
  s.inBuf.wf (bufSize s.cfg .input) ∧ s.bitsBuf.wf (bufSize s.cfg .bits) ∧ s.outBuf.wf (bufSize s.cfg .output)

/-- The STATUS flags fit each other and the tree (R26, R41, R46, R282, R301): while BUSY, DONE, ERR and PARTIAL are 0; the
engine is IDLE while reset is asserted, which is the model's choice (assumption 6); a valid frequency table comes with a
valid code table and a valid tree; a tree is marked empty exactly when it is; PARTIAL stands only beside a success. -/
def State.statusCoherent (s : State) : Prop :=
  (s.busy = true → s.done = false ∧ s.err = none ∧ s.partialFlag = false) ∧
  (s.inReset = true → s.busy = false) ∧
  s.freqValid = s.tableValid ∧
  (s.freqValid = true → s.treeValid = true) ∧
  (s.treeEmpty = true → s.treeValid = true) ∧
  (s.treeValid = true → s.treeEmpty = s.tree.isNone) ∧
  (s.partialFlag = true → s.err = none ∧ s.treeValid = true)

/-- Every valid table and every count stays inside its capacity (R45, R46, R47, R172, R277). Of a table whose valid flag is
0 it says nothing: its contents are unspecified (R50, assumption 3). -/
def State.tablesBounded (s : State) : Prop :=
  s.codeW.length = s.cfg.codeWords ∧
  (s.treeValid = true → ∀ t, s.tree = some t → t.nodes ≤ s.cfg.nodeCap ∧ ∀ x ∈ t.syms, x.toNat < 2 ^ s.cfg.w) ∧
  (s.freqValid = true → s.freqTable.length ≤ s.cfg.maxDistinct ∧
    ∀ e ∈ s.freqTable, 1 ≤ e.2.toNat ∧ e.2.toNat ≤ s.cfg.inCap ∧ e.1.toNat < 2 ^ s.cfg.w) ∧
  (s.tableValid = true → ∀ e ∈ s.codeTable, e.2.length ≤ s.cfg.maxCodeLen) ∧
  s.outLen.toNat ≤ s.cfg.outCap ∧ s.treeBits.toNat ≤ s.cfg.bitCap ∧ s.payloadBits.toNat ≤ s.cfg.bitCap ∧
  s.distinct.toNat ≤ s.cfg.maxDistinct ∧ s.symCount.toNat ≤ max s.cfg.inCap s.cfg.outCap ∧
  s.freq.toNat ≤ s.cfg.inCap ∧ s.codeLen.toNat ≤ s.cfg.maxCodeLen

/-- The symbols of the input: symbol i is the little-endian value of the `SYM_BYTES` bytes of IN from i × `SYM_BYTES`
(R67, R162). -/
def State.inputSymbols (s : State) : List Symbol :=
  (List.range (s.inLen.toNat / s.cfg.symBytes)).map fun i =>
    BitVec.ofNat 64 (leBytesValue (s.inBuf.readBytes (i * s.cfg.symBytes) s.cfg.symBytes))

/-- The frequency table of an input: each distinct symbol once, in ascending order, with its number of occurrences
as a counter of `FREQ_WIDTH` bits (R164). -/
def State.inputTable (s : State) : FreqTable :=
  (s.inputSymbols.dedup.insertionSort fun x y => x.toNat ≤ y.toNat).map fun x =>
    (x, BitVec.ofNat freqWidth (s.inputSymbols.count x))

/-- The root-to-leaf paths of a tree, with their leaves' symbols, from left to right (R173). -/
def CodeTree.paths : CodeTree → List (Symbol × Bits)
  | .leaf s _ => [(s, [])]
  | .node l r _ => l.paths.map (fun e => (e.1, false :: e.2)) ++ r.paths.map (fun e => (e.1, true :: e.2))

/-- The tree with every frequency 0: its shape and leaf symbols, all a stream carries (R46, R207). -/
def CodeTree.shape : CodeTree → CodeTree
  | .leaf s _ => .leaf s 0
  | .node l r _ => .node l.shape r.shape 0

/-- Every internal node's frequency is the sum of its children's (R166). -/
def CodeTree.freqsAdd : CodeTree → Prop
  | .leaf _ _ => True
  | .node l r f => f = l.freq + r.freq ∧ l.freqsAdd ∧ r.freqsAdd

/-- A leaf's symbol and frequency, from left to right. -/
def CodeTree.leafEntries : CodeTree → FreqTable
  | .leaf s f => [(s, f)]
  | .node l r _ => l.leafEntries ++ r.leafEntries

/-- The sum of a table's counts, as a natural number (R164). -/
def FreqTable.total (ft : FreqTable) : Nat := (ft.map fun e => e.2.toNat).sum

/-- Every node's frequency is the sum of the counts of the leaves under it, as natural numbers: no sum wraps (R164,
R166). -/
def CodeTree.freqsExact : CodeTree → Prop
  | .leaf _ _ => True
  | .node l r f => f.toNat = FreqTable.total (l.leafEntries ++ r.leafEntries) ∧ l.freqsExact ∧ r.freqsExact

/-- The merges of R170 on a working list and the growing codes, until fewer than two entries are left: the last entry,
`lo`, is the lower and becomes the left child, the entry before it, `ot`, the other and becomes the right child (R168);
every symbol under `lo` gets a 0 and every symbol under `ot` a 1 (R169). At most one result exists for a list. -/
inductive MergesTo : List CodeTree → CodeTable → List CodeTree → CodeTable → Prop where
  | done (work : List CodeTree) (g : CodeTable) : work.length < 2 → MergesTo work g work g
  | merge (rest : List CodeTree) (lo ot : CodeTree) (g : CodeTable) (work : List CodeTree) (g' : CodeTable) :
    MergesTo (insertOrdered rest (.node lo ot (lo.freq + ot.freq)))
      (g.map fun e => (e.1, e.2 ++ (if e.1 ∈ lo.syms then [false] else []) ++ (if e.1 ∈ ot.syms then [true] else [])))
      work g' →
    MergesTo (rest ++ [ot, lo]) g work g'

/-- How many bytes of its buffer a command that succeeded wrote, by the lengths it left (R49). -/
def State.writtenBytes (t : State) : Space → Nat
  | .input => 0
  | .bits => ceilDiv t.bitLen.toNat 8
  | .output => t.outLen.toNat

/-- Every leaf symbol is a `W`-bit value. -/
def CodeTree.symsFit (c : Config) (t : CodeTree) : Prop := ∀ x ∈ t.syms, x.toNat < 2 ^ c.w

/-- A dangling partial code of a tree: at least one bit, and a proper beginning of some code (R242). -/
def CodeTree.partialCode (t : CodeTree) (p : Bits) : Prop := p ≠ [] ∧ ∃ e ∈ t.paths, p <+: e.2 ∧ p ≠ e.2

/-- One node of a serialized tree in reading order (R200): an internal node's tag, or a leaf's tag and symbol bits. -/
def nodeBits (c : Config) : Option Symbol → Bits
  | none => [false]
  | some x => true :: bitsOf c x

/-- Nodes in reading order, `none` an internal node, that are a beginning of a tree and no whole tree: at no point have as
many trees been closed as were begun. -/
def nodesOpen (ns : List (Option Symbol)) : Prop :=
  ∀ p, p <+: ns → p.countP Option.isSome ≤ p.countP Option.isNone

/-- Reading a tree from `bits` ends in the error `e` (R203): after at most `NODE_CAP` nodes of an unfinished tree the tag
bit is missing, or a leaf's symbol bits are, which is MALFORMED_TREE; or a tag bit follows when `NODE_CAP` nodes exist,
which is CAPACITY. -/
def treeReadingFails (c : Config) (bits : Bits) (e : ErrKind) : Prop :=
  ∃ (ns : List (Option Symbol)) (rest : Bits), bits = ns.flatMap (nodeBits c) ++ rest ∧ nodesOpen ns ∧
    ns.length ≤ c.nodeCap ∧
    ((e = .malformedTree ∧ (rest = [] ∨ ns.length < c.nodeCap ∧ ∃ r, rest = true :: r ∧ r.length < c.w)) ∨
      (e = .capacity ∧ ns.length = c.nodeCap ∧ rest ≠ []))

/-- A stream begins with a serialized tree of at most `NODE_CAP` nodes (R200, R203). -/
def holdsTree (c : Config) (bits : Bits) : Prop :=
  ∃ (t : CodeTree) (rest : Bits), bits = t.ser c ++ rest ∧ t.nodes ≤ c.nodeCap ∧ t.symsFit c

end Sys2Proof.Machine
end

