-- ==== Sys2Proof/Certificates/Slice0/Obligations.lean ====
section
/-! DEFINITION. The statements for the provers. Each docstring names the rule of spec/ it formalises. A statement about a
command gives the whole next state as a record update of the state before, which is also its frame: every register, flag,
table, and every part of the host that the update does not name is unchanged; a buffer that is written is described byte by
byte. -/

open Sys2Proof Sys2Proof.Machine

/-! ## Encoding and decoding -/

/-- R93, R96: the thirteen words of the opcode map, and illegal words beside them, decode as the map says. -/
def Obligations.OpcodeMapWordsDecode : Prop :=
  decodeCmd 0x01 = .legal .bytesOf ∧ decodeCmd 0x02 = .legal .valueOfBytes ∧ decodeCmd 0x03 = .legal .bitsOf ∧
  decodeCmd 0x04 = .legal .valueOfBits ∧ decodeCmd 0x05 = .legal .frame ∧ decodeCmd 0x06 = .legal .unframe ∧
  decodeCmd 0x07 = .legal .build ∧ decodeCmd 0x08 = .legal .freq ∧ decodeCmd 0x09 = .legal .lookup ∧
  decodeCmd 0x0A = .legal .serialize ∧ decodeCmd 0x0B = .legal .deserialize ∧ decodeCmd 0x0C = .legal .encode ∧
  decodeCmd 0x0D = .legal .decode ∧ decodeCmd 0x00 = .illegal .opcodeZero ∧
  decodeCmd 0x0E = .illegal .opcodeReserved ∧ decodeCmd 0xFF = .illegal .opcodeReserved ∧
  decodeCmd 0x10D = .illegal .reservedBitsSet ∧ decodeCmd 0x800000000000000C = .illegal .reservedBitsSet

/-- R93, R96: decoding and encoding agree on all 2^64 words: a word decodes to a command exactly when it is that command's
word. -/
def Obligations.DecodeIsInverseOfEncode : Prop :=
  ∀ (w : Word) (i : Instr), decodeCmd w = .legal i ↔ w = encodeCmd i

/-- R94: a word is illegal exactly when RSVD ≠ 0, or OPCODE = 0x00, or OPCODE is 0x0E .. 0xFF. -/
def Obligations.IllegalWordsAreExactlyThese : Prop :=
  ∀ w : Word, (∃ why, decodeCmd w = .illegal why) ↔
    (w.toNat / 256 ≠ 0 ∨ w.toNat % 256 = 0 ∨ 0x0E ≤ w.toNat % 256)

/-! ## The step -/

/-- R20, R41, R280: who moves. IDLE: the host. EXEC with no latency left, or with a host that has nothing left to do: the
engine completes the latched command, by `exec` of it, or an illegal word with ILLEGAL_CMD. EXEC otherwise, of a command
or of an illegal word: the host, and the latency counts down. A word placed
for the next step that decodes to a command runs that command in the very next step. The count of latency in host steps
and the placing of a word are the model's (assumptions 4 and 5). -/
def Obligations.StepRunsTheLatchedCommand : Prop :=
  ∀ (s : State) (i : Instr) (why : IllegalReason) (n : Nat),
    (s.phase = .idle → step s = hostStep s) ∧
    (s.phase = .exec (.legal i) 0 → step s = exec i s) ∧
    (s.phase = .exec (.legal i) n → s.hostDone = true → step s = exec i s) ∧
    (s.phase = .exec (.illegal why) 0 → step s = .next (s.finish (some .illegalCmd))) ∧
    (s.phase = .exec (.legal i) (n + 1) → s.hostDone = false →
      step s = hostStep { s with phase := .exec (.legal i) n }) ∧
    (s.phase = .exec (.illegal why) n → s.hostDone = true → step s = .next (s.finish (some .illegalCmd))) ∧
    (s.phase = .exec (.illegal why) (n + 1) → s.hostDone = false →
      step s = hostStep { s with phase := .exec (.illegal why) n }) ∧
    ∀ nbits w, decodeTableWord nbits w = some i →
      step (s.withFetchWord nbits w) = exec i (s.withFetchWord nbits w)

/-- R280, acceptance: a write to CMD while the engine is IDLE latches the decoded command, raises BUSY, clears DONE, ERR
and PARTIAL, sets LAST_OP to bits 7:0 of the word, and changes nothing else but the model's latency choices and draws. -/
def Obligations.CommandWriteIsAcceptedWhenIdle : Prop :=
  ∀ (s : State) (w : Word), s.phase = .idle → s.inReset = false →
    ∃ n l d, performTxn (.regWrite 0x07 w) s = .next { s with
      phase := .exec (decodeCmd w) n, done := false, err := none, partialFlag := false, lastOp := w.setWidth 8,
      latencies := l, draws := d }

/-- R303: a write to CMD while BUSY = 1 is dropped: the running command is unaffected, nothing is queued, OVR is set. -/
def Obligations.CommandWriteWhileBusyIsDropped : Prop :=
  ∀ (s : State) (w : Word), s.busy = true → s.inReset = false →
    performTxn (.regWrite 0x07 w) s = .next { s with ovr := true }

/-- R279: an illegal word is accepted like any other and completes with ERR = 7, writing nothing but STATUS. -/
def Obligations.IllegalCommandWritesOnlyStatus : Prop :=
  ∀ (s : State) (w : Word) (why : IllegalReason), s.phase = .idle → s.inReset = false →
    decodeCmd w = .illegal why →
    ∃ n l d, performTxn (.regWrite 0x07 w) s = .next { s with
        phase := .exec (.illegal why) n, done := false, err := none, partialFlag := false, lastOp := w.setWidth 8,
        latencies := l, draws := d } ∧
      ∀ t : State, t.phase = .exec (.illegal why) 0 →
        step t = .next { t with phase := .idle, done := true, err := some .illegalCmd } ∧
        errCode (some .illegalCmd) = 7

/-- R280, R309: no command hangs. In a run of n + 1 steps that does not stop, from a state in EXEC with n host steps of
latency left, some step among them completes the latched command, unless the reset input abandons it (R301). The count
of latency in host steps is the model's (assumption 4). -/
def Obligations.AcceptedCommandCompletes : Prop :=
  ∀ (n : Nat) (s : State) (op : Decoded), s.phase = .exec op n → s.inReset = false → SafeRun (n + 1) s →
    ∃ k u, k ≤ n ∧ Sys2Proof.core.run k s = .next u ∧
      ((∃ m, u.phase = .exec op m ∧ step u = completeOp op u) ∨ u.inReset = true)

/-! ## Registers, STATUS and CTRL -/

/-- R21, R22, R23: the constant registers read their constants at any time; writes to them and to the engine's result
registers (R29, R33 to R39) are ignored. -/
def Obligations.ConstantRegistersReadTheirConstants : Prop :=
  ∀ (s : State) (e : Option Word) (v : Word), s.inReset = false →
    performTxn (.regRead 0x00 e) s = .next (s.saw (.reg 0x00 0x4855464600000001 e)) ∧
    (s.cfg.wf → performTxn (.regRead 0x01 e) s =
      .next (s.saw (.reg 0x01 (BitVec.ofNat 64 (s.cfg.symBytes + 16 * s.cfg.keySigned.toNat)) e))) ∧
    performTxn (.regRead 0x02 e) s = .next (s.saw (.reg 0x02 (BitVec.ofNat 64 s.cfg.inCap) e)) ∧
    performTxn (.regRead 0x03 e) s = .next (s.saw (.reg 0x03 (BitVec.ofNat 64 s.cfg.outCap) e)) ∧
    performTxn (.regRead 0x04 e) s = .next (s.saw (.reg 0x04 (BitVec.ofNat 64 s.cfg.bitCap) e)) ∧
    performTxn (.regRead 0x05 e) s = .next (s.saw (.reg 0x05 (BitVec.ofNat 64 s.cfg.maxDistinct) e)) ∧
    ∀ n, n ≤ 0x05 ∨ n = 0x0B ∨ 0x0F ≤ n → performTxn (.regWrite n v) s = .next s

/-- R40: a register number not named in R21 to R39 reads 0 and ignores writes, at any time. -/
def Obligations.ReservedRegistersReadZero : Prop :=
  ∀ (s : State) (n : Nat) (e : Option Word) (v : Word), s.inReset = false →
    (0x15 ≤ n ∧ n ≤ 0x1F) ∨ 0x20 + s.cfg.codeWords ≤ n →
    performTxn (.regRead n e) s = .next (s.saw (.reg n 0 e)) ∧ performTxn (.regWrite n v) s = .next s

/-- R26: the STATUS word, bit by bit; the reserved bits 7:3, 15:12, 23:21 and 63:32 read 0. A host write to STATUS changes
only DONE and OVR, each cleared by a written 1 and left by a written 0, whether or not a command runs. -/
def Obligations.StatusWordFields : Prop :=
  ∀ (s : State) (e : Option Word), s.inReset = false →
    (∃ st : Word, performTxn (.regRead 0x08 e) s = .next (s.saw (.reg 0x08 st e)) ∧
      st.getLsbD 0 = s.busy ∧ st.getLsbD 1 = s.done ∧ st.getLsbD 2 = s.ovr ∧
      st.extractLsb' 8 4 = errCode s.err ∧ st.getLsbD 16 = s.freqValid ∧ st.getLsbD 17 = s.tableValid ∧
      st.getLsbD 18 = s.treeValid ∧ st.getLsbD 19 = s.treeEmpty ∧ st.getLsbD 20 = s.partialFlag ∧
      st.extractLsb' 24 8 = s.lastOp ∧
      ∀ b, (3 ≤ b ∧ b ≤ 7) ∨ (12 ≤ b ∧ b ≤ 15) ∨ (21 ≤ b ∧ b ≤ 23) ∨ 32 ≤ b → st.getLsbD b = false) ∧
    ∀ v : Word, performTxn (.regWrite 0x08 v) s = .next { s with
      done := if v.getLsbD 1 then false else s.done, ovr := if v.getLsbD 2 then false else s.ovr }

/-- R24, R25, R27 to R39, R79: while the engine is IDLE a host read of a register records the register's value and changes
nothing else (CMD reads 0; of CTRL bits 63:2 read 0), and a host write to CTRL, IN_LEN, BIT_LEN, START, VALUE or EXP_COUNT
is what the next read returns, and changes no other register. -/
def Obligations.HostWrittenRegistersReadBack : Prop :=
  (∀ (s : State) (e : Option Word), s.phase = .idle → s.inReset = false →
    (∀ r ∈ [(0x07, 0), (0x09, s.inLen), (0x0A, s.bitLen), (0x0B, s.outLen), (0x0C, s.start), (0x0D, s.value),
        (0x0E, s.expCount), (0x0F, s.symCount), (0x10, s.distinct), (0x11, s.treeBits), (0x12, s.payloadBits),
        (0x13, s.freq), (0x14, s.codeLen)],
      performTxn (.regRead r.1 e) s = .next { s with seen := .reg r.1 r.2 e :: s.seen }) ∧
    (∀ j, j < s.cfg.codeWords → performTxn (.regRead (0x20 + j) e) s =
      .next { s with seen := .reg (0x20 + j) (s.codeW.getD j 0) e :: s.seen }) ∧
    ∃ ctrl : Word, performTxn (.regRead 0x06 e) s = .next { s with seen := .reg 0x06 ctrl e :: s.seen } ∧
      ctrl.getLsbD 0 = s.acceptTrunc ∧ ctrl.getLsbD 1 = s.irqEn ∧ ∀ b, 2 ≤ b → ctrl.getLsbD b = false) ∧
  ∀ (s : State) (v : Word) (n : Nat) (e : Option Word), s.phase = .idle → s.inReset = false →
    n ∈ [0x06, 0x09, 0x0A, 0x0C, 0x0D, 0x0E] →
    ∃ t, performTxn (.regWrite n v) s = .next t ∧
      performTxn (.regRead n e) t = .next (t.saw (.reg n (if n = 0x06 then v &&& 3 else v) e)) ∧
      t = { s with acceptTrunc := if n = 0x06 then v.getLsbD 0 else s.acceptTrunc,
                   irqEn := if n = 0x06 then v.getLsbD 1 else s.irqEn,
                   inLen := if n = 0x09 then v else s.inLen, bitLen := if n = 0x0A then v else s.bitLen,
                   start := if n = 0x0C then v else s.start, value := if n = 0x0D then v else s.value,
                   expCount := if n = 0x0E then v else s.expCount }

/-- R286: irq is the level DONE ∧ IRQ_EN. A completion with IRQ_EN = 1 raises it; a written 1 to STATUS.DONE, IRQ_EN
written 0, and the next acceptance each lower it. -/
def Obligations.IrqFollowsDone : Prop :=
  (∀ s : State, s.irq = (s.done && s.irqEn)) ∧
  (∀ (i : Instr) (s t : State), exec i s = .next t → t.irq = s.irqEn) ∧
  (∀ (s t : State) (v : Word), s.inReset = false → v.getLsbD 1 = true →
    performTxn (.regWrite 0x08 v) s = .next t → t.irq = false) ∧
  (∀ (s t : State) (v : Word), s.inReset = false → v.getLsbD 1 = false →
    performTxn (.regWrite 0x06 v) s = .next t → t.irq = false) ∧
  ∀ (s t : State) (w : Word), s.phase = .idle → s.inReset = false →
    performTxn (.regWrite 0x07 w) s = .next t → t.irq = false

/-! ## Buffers and hazards -/

/-- R62, R79: while the engine is IDLE a host read of a byte inside IN, BITS or OUT returns that byte and changes nothing
else, and a host byte write inside IN or BITS is what the next read of that byte returns, every other byte of every buffer
unchanged. -/
def Obligations.HostByteWriteReadsBack : Prop :=
  (∀ (s : State) (sp : Space) (a : Nat), s.phase = .idle → s.inReset = false → a < bufSize s.cfg sp →
    performTxn (.bufRead sp a) s = .next { s with seen := .byte sp a ((s.buf sp).byte a) :: s.seen }) ∧
  ∀ (s : State) (sp : Space) (a : Nat) (v : Byte), s.phase = .idle → s.inReset = false → sp ≠ .output →
    a < bufSize s.cfg sp →
    ∃ t, performTxn (.bufWrite sp a v) s = .next t ∧
      performTxn (.bufRead sp a) t = .next (t.saw (.byte sp a v)) ∧
      (∀ sp' x, ¬ (sp' = sp ∧ x = a) → (t.buf sp').byte x = (s.buf sp').byte x) ∧
      ∃ b, t = s.setBuf sp b

/-- R62: a host read at or beyond a buffer's size returns 0, a write there is ignored, and a write to OUT is ignored, at
any time; that R62 goes before R304 while BUSY = 1 is the model's choice (assumption 8). -/
def Obligations.BufferAccessOutOfRange : Prop :=
  ∀ (s : State) (sp : Space) (a : Nat) (v : Byte), s.inReset = false →
    (bufSize s.cfg sp ≤ a → performTxn (.bufRead sp a) s = .next (s.saw (.byte sp a 0)) ∧
      performTxn (.bufWrite sp a v) s = .next s) ∧
    performTxn (.bufWrite .output a v) s = .next s

/-- R304: while BUSY = 1 a host write to CTRL, IN_LEN, BIT_LEN, START, VALUE or EXP_COUNT, or to a byte of IN or BITS, is
a fault naming the transaction; a write to STATUS or CMD answers a next state, and writes to read-only registers are
ignored as always. -/
def Obligations.InputWriteWhileBusyFaults : Prop :=
  ∀ (s : State) (n a : Nat) (v : Word) (x : Byte), s.busy = true → s.inReset = false →
    (n ∈ [0x06, 0x09, 0x0A, 0x0C, 0x0D, 0x0E] →
      performTxn (.regWrite n v) s = .fault (.inputWriteWhileBusy (.regWrite n v))) ∧
    (a < bufSize s.cfg .input →
      performTxn (.bufWrite .input a x) s = .fault (.inputWriteWhileBusy (.bufWrite .input a x))) ∧
    (a < bufSize s.cfg .bits →
      performTxn (.bufWrite .bits a x) s = .fault (.inputWriteWhileBusy (.bufWrite .bits a x))) ∧
    (∃ t, performTxn (.regWrite 0x08 v) s = .next t) ∧ (∃ t, performTxn (.regWrite 0x07 v) s = .next t) ∧
    (n ≤ 0x05 ∨ n = 0x0B ∨ 0x0F ≤ n → performTxn (.regWrite n v) s = .next s)

/-- R80: while a command runs, a host read of a register of its write set returns a free value, and of any other register
its value. A read of a byte of the buffer it writes returns a free value in the range it is going to write, and the byte
beyond it; of another buffer, the byte. Of a command that is going to fail the range is the whole buffer, which is the
model's choice (assumption 9). While an illegal word runs every read returns the value. Reads never change the block. -/
def Obligations.ReadsOfPendingResultsAreFree : Prop :=
  ∀ (s : State) (w n : Nat) (e : Option Word), s.inReset = false →
    let regValue := Host.Outcome.next { s with seen := .reg n (s.reg (regOfNumber s.cfg n)) e :: s.seen }
    let byteValue := fun (sp : Space) (a : Nat) =>
      Host.Outcome.next { s with seen := .byte sp a ((s.buf sp).byte a) :: s.seen }
    (∀ i : Instr, s.phase = .exec (.legal i) w →
      (regOfNumber s.cfg n ∈ writeRegs s.cfg i → performTxn (.regRead n e) s =
        .next { s with seen := .reg n (Config.freeWord s.draws) e :: s.seen, draws := s.draws + 1 }) ∧
      (regOfNumber s.cfg n ∉ writeRegs s.cfg i → performTxn (.regRead n e) s = regValue) ∧
      ∀ sp a, a < bufSize s.cfg sp →
        (writeSpace i ≠ some sp → performTxn (.bufRead sp a) s = byteValue sp a) ∧
        ∀ t, s.cfg.wf → writeSpace i = some sp → exec i s = .next t →
          performTxn (.bufRead sp a) s =
            if t.err ≠ none ∨ a < t.writtenBytes sp then
              .next { s with seen := .byte sp a (Config.freeByteRead s.draws) :: s.seen, draws := s.draws + 1 }
            else byteValue sp a) ∧
    ∀ why, s.phase = .exec (.illegal why) w → performTxn (.regRead n e) s = regValue ∧
      ∀ sp a, a < bufSize s.cfg sp → performTxn (.bufRead sp a) s = byteValue sp a

/-- R61, R73: a register access that is not the whole aligned 64-bit word is refused; the aligned one at byte offset 8k of
the register window is register k. -/
def Obligations.RegisterAccessIsWholeAlignedWord : Prop :=
  ∀ (s : State) (addr n k : Nat) (v : Word),
    (n ≠ 8 ∨ (addr - s.cfg.regBase) % 8 ≠ 0 →
      runStmt (.busRegWr addr n v) s = .refused (.partialRegisterAccess addr n) ∧
      runStmt (.busRegRd addr n) s = .refused (.partialRegisterAccess addr n)) ∧
    runStmt (.busRegWr (s.cfg.regBase + 8 * k) 8 v) s = performTxn (.regWrite k v) s ∧
    runStmt (.busRegRd (s.cfg.regBase + 8 * k) 8) s = performTxn (.regRead k none) s

/-- R62, R97, with the engine IDLE. `WB` writes successive bytes from an offset and nothing else, the bytes at or beyond the
buffer's size and those of OUT ignored: its transactions pending, or the statement itself, of which the first is performed
at once. `RB` reads successive bytes, 0 at or beyond the size, and changes nothing. A bus access of n bytes at an address
of a buffer's window is the `WB` of the n bytes of its value, or the `RB` of n bytes, whose value has byte addr least
significant. The model's choices are these: one transaction a step (assumption 7), a bus access below the window is refused
(assumption 12), of a bus write's value wider than n bytes the low n bytes are written, and the value of a bus read is
formed from the host's last n reads (assumption 15). -/
def Obligations.HostWritesSuccessiveBytes : Prop :=
  (∀ (bytes : List Byte) (off : Nat) (sp : Space) (s : State), s.phase = .idle → s.inReset = false →
    ∃ b : Buffer,
      (∀ a, b.byte a = if sp ≠ .output ∧ off ≤ a ∧ a < off + bytes.length ∧ a < bufSize s.cfg sp
        then bytes.getD (a - off) 0 else (s.buf sp).byte a) ∧
      (s.pending = writeTxns sp off bytes →
        Sys2Proof.core.run bytes.length s = .next { s.setBuf sp b with pending := [] }) ∧
      (s.pending = [] → ∃ t, runStmt (.wb sp off bytes) s = .next t ∧
        Sys2Proof.core.run (bytes.length - 1) t = .next (s.setBuf sp b))) ∧
  (∀ (off n : Nat) (sp : Space) (s : State), s.phase = .idle → s.inReset = false → s.pending = [] →
    let byte := fun i => if off + i < bufSize s.cfg sp then (s.buf sp).byte (off + i) else 0
    ∃ t u, runStmt (.rb sp off n) s = .next t ∧ Sys2Proof.core.run (n - 1) t = .next u ∧
      u = { s with seen := ((List.range n).map fun i => Reading.byte sp (off + i) (byte i)).reverse ++ s.seen } ∧
      u.busReadValue sp (bufferBase s.cfg sp + off) n =
        some ((List.range n).map fun i => (byte i).toNat * 256 ^ i).sum) ∧
  ∀ (s : State) (sp : Space) (addr n v : Nat),
    (busBytes n v).length = n ∧ (∀ i, i < n → (busBytes n v).getD i 0 = BitVec.ofNat 8 (v / 256 ^ i)) ∧
    if bufferBase s.cfg sp ≤ addr then
      runStmt (.busBufWr sp addr n v) s = runStmt (.wb sp (addr - bufferBase s.cfg sp) (busBytes n v)) s ∧
      runStmt (.busBufRd sp addr n) s = runStmt (.rb sp (addr - bufferBase s.cfg sp) n) s
    else runStmt (.busBufWr sp addr n v) s = .refused (.addressOutsideWindow sp addr) ∧
      runStmt (.busBufRd sp addr n) s = .refused (.addressOutsideWindow sp addr)

/-- R64: bits at or beyond BIT_LEN have no effect on any result: a command that reads BITS does the same, but for BITS
itself, from every BITS buffer with the same first BIT_LEN bits. -/
def Obligations.BitsBeyondBitLenHaveNoEffect : Prop :=
  ∀ (s : State) (b : Buffer) (i : Instr), i ∈ [Instr.valueOfBits, .frame, .deserialize, .decode] →
    (∀ k, k < s.bitLen.toNat → b.bit k = s.bitsBuf.bit k) →
    ∃ t, exec i s = .next t ∧ exec i { s with bitsBuf := b } = .next { t with bitsBuf := b }

/-! ## Reset -/

/-- R50: the state after reset, of any configuration: the constants, every other register 0 (STATUS among them), the
engine IDLE, irq 0, and no byte of a buffer written, so each is a free value. That Sys2Proof.Machine.State.reset is the
one of the reference configuration is the model's choice (assumption 14); its constants are those R7 and R21 to R23
give. -/
def Obligations.ResetValues : Prop :=
  (∀ (c : Config) (g : Nat),
    (∀ n, 0x06 ≤ n → (State.resetWith c g).reg (regOfNumber c n) = 0) ∧
    (State.resetWith c g).reg .id = 0x4855464600000001 ∧
    (State.resetWith c g).reg .capIn = BitVec.ofNat 64 c.inCap ∧
    (State.resetWith c g).reg .capOut = BitVec.ofNat 64 c.outCap ∧
    (State.resetWith c g).reg .capBits = BitVec.ofNat 64 c.bitCap ∧
    (State.resetWith c g).reg .capDistinct = BitVec.ofNat 64 c.maxDistinct ∧
    (c.wf → (State.resetWith c g).reg .cfg = BitVec.ofNat 64 (c.symBytes + 16 * c.keySigned.toNat)) ∧
    (State.resetWith c g).phase = .idle ∧ (State.resetWith c g).irq = false ∧
    ∀ sp, ∃ k, ∀ a, ((State.resetWith c g).buf sp).byte a = Config.freeByte k a) ∧
  State.reset = State.resetWith Config.reference 0 ∧ State.reset.reg .cfg = 1 ∧ State.reset.reg .capIn = 4096 ∧
  State.reset.reg .capOut = 4096 ∧ State.reset.reg .capBits = 65536 ∧ State.reset.reg .capDistinct = 256

/-- R300, R301: asserting reset abandons a running command and resets the block; releasing it leaves every register at its
reset value, STATUS 0 and the engine IDLE; every byte of the three buffers is then a free value, drawn for that reset. What the
block holds while reset is asserted (IDLE, DONE 0), and that the host's script, position and record survive, are the
model's choice (assumption 6). -/
def Obligations.ResetAbandonsTheRunningCommand : Prop :=
  ∀ s : State, s.inReset = false →
    ∃ t u, runStmt (.resetPin s.cfg.resetActiveLevel) s = .next t ∧ t.inReset = true ∧ t.phase = .idle ∧
      t.done = false ∧ runStmt (.resetPin (!s.cfg.resetActiveLevel)) t = .next u ∧ u.inReset = false ∧
      u.phase = .idle ∧ u.cfg = s.cfg ∧
      (∀ n, 0x06 ≤ n → u.reg (regOfNumber u.cfg n) = 0) ∧
      (∀ sp, ∃ g, s.draws ≤ g ∧ ∀ a, (u.buf sp).byte a = Config.freeByte g a) ∧
      u.script = s.script ∧ u.scriptPos = s.scriptPos ∧ u.seen = s.seen

/-- R300: while reset is asserted no host transaction has an effect, and a read returns a free value. -/
def Obligations.NothingHappensWhileResetIsAsserted : Prop :=
  ∀ (s : State), s.inReset = true →
    (∀ n v, performTxn (.regWrite n v) s = .next s) ∧
    (∀ sp a v, performTxn (.bufWrite sp a v) s = .next s) ∧
    (∀ n e, performTxn (.regRead n e) s =
      .next { s with seen := .reg n (Config.freeWord s.draws) e :: s.seen, draws := s.draws + 1 }) ∧
    ∀ sp a, performTxn (.bufRead sp a) s =
      .next { s with seen := .byte sp a (Config.freeByteRead s.draws) :: s.seen, draws := s.draws + 1 }

/-! ## The primitive codec -/

/-- R124, BYTES_OF: OUT bytes 0 .. SYM_BYTES - 1 are the bytes of VALUE, least significant first, OUT_LEN is SYM_BYTES, and
nothing else changes. -/
def Obligations.BytesOfWritesSymbolBytes : Prop :=
  ∀ s : State, s.cfg.wf → encodeCmd .bytesOf = 0x1 ∧
    ∃ b : Buffer, exec .bytesOf s = .next { s with
        outBuf := b, outLen := BitVec.ofNat 64 s.cfg.symBytes, phase := .idle, done := true, err := none } ∧
      (∀ k, k < s.cfg.symBytes → b.byte k = s.value.extractLsb' (8 * k) 8) ∧
      ∀ a, s.cfg.symBytes ≤ a → b.byte a = s.outBuf.byte a

/-- R125, VALUE_OF_BYTES: CAPACITY, then TRUNCATED_INPUT, each with VALUE 0; else VALUE is the little-endian symbol at byte
START, compared without wrap-around. -/
def Obligations.ValueOfBytesReadsSymbol : Prop :=
  ∀ s : State, s.cfg.wf → encodeCmd .valueOfBytes = 0x2 ∧
    if s.inLen.toNat > s.cfg.inCap then
      exec .valueOfBytes s = .next { s with
        value := 0, partialFlag := false, phase := .idle, done := true, err := some .capacity }
    else if s.start.toNat + s.cfg.symBytes > s.inLen.toNat then
      exec .valueOfBytes s = .next { s with
        value := 0, partialFlag := false, phase := .idle, done := true, err := some .truncatedInput }
    else ∃ v : Word, exec .valueOfBytes s = .next { s with
        value := v, phase := .idle, done := true, err := none } ∧
      (∀ k, k < s.cfg.symBytes → v.extractLsb' (8 * k) 8 = s.inBuf.byte (s.start.toNat + k)) ∧
      v.toNat < 2 ^ s.cfg.w

/-- R126, BITS_OF: BITS bits 0 .. W - 1 are the bits of VALUE, byte 0 first and most significant bit first in each byte,
BIT_LEN is W, and BITS bytes from SYM_BYTES on are unchanged. -/
def Obligations.BitsOfWritesSymbolBits : Prop :=
  ∀ s : State, s.cfg.wf → encodeCmd .bitsOf = 0x3 ∧
    ∃ b : Buffer, exec .bitsOf s = .next { s with
        bitsBuf := b, bitLen := BitVec.ofNat 64 s.cfg.w, phase := .idle, done := true, err := none } ∧
      (∀ k j, k < s.cfg.symBytes → j < 8 → b.bit (8 * k + j) = s.value.getLsbD (8 * k + 7 - j)) ∧
      ∀ a, s.cfg.symBytes ≤ a → b.byte a = s.bitsBuf.byte a

/-- R127, VALUE_OF_BITS: CAPACITY, then TRUNCATED_INPUT, each with VALUE 0; else VALUE is the symbol at bit START. -/
def Obligations.ValueOfBitsReadsSymbol : Prop :=
  ∀ s : State, s.cfg.wf → encodeCmd .valueOfBits = 0x4 ∧
    if s.bitLen.toNat > s.cfg.bitCap then
      exec .valueOfBits s = .next { s with
        value := 0, partialFlag := false, phase := .idle, done := true, err := some .capacity }
    else if s.start.toNat + s.cfg.w > s.bitLen.toNat then
      exec .valueOfBits s = .next { s with
        value := 0, partialFlag := false, phase := .idle, done := true, err := some .truncatedInput }
    else ∃ v : Word, exec .valueOfBits s = .next { s with
        value := v, phase := .idle, done := true, err := none } ∧
      (∀ k j, k < s.cfg.symBytes → j < 8 →
        v.getLsbD (8 * k + 7 - j) = s.bitsBuf.bit (s.start.toNat + 8 * k + j)) ∧
      v.toNat < 2 ^ s.cfg.w

/-- R71, R128: the packed bytes of a symbol's bits are its bytes; the primitive round trips, as functions, and in commands:
BITS_OF then VALUE_OF_BITS with START = 0 leaves VALUE[W-1:0] unchanged. -/
def Obligations.PrimitiveRoundTrips : Prop :=
  (∀ (c : Config) (v : Symbol), pack (bitsOf c v) = bytesOf c v) ∧
  (∀ (c : Config) (v : Symbol), c.wf → v.toNat < 2 ^ c.w →
    valueOfBytes c (bytesOf c v) 0 = .ok v ∧ valueOfBits c (bitsOf c v) 0 = .ok v) ∧
  ∀ s : State, s.cfg.wf → ∃ t u, exec .bitsOf s = .next t ∧ exec .valueOfBits { t with start := 0 } = .next u ∧
    u.err = none ∧ ∀ i, i < s.cfg.w → u.value.getLsbD i = s.value.getLsbD i

/-! ## The framer -/

/-- R144, FRAME: CAPACITY for BIT_LEN above BIT_CAP, then for a frame longer than OUT_CAP, each with OUT_LEN 0 and every
byte of OUT a free value; else OUT is the 64-bit little-endian count and the packed bits with zero pad bits, the bytes
above unchanged. -/
def Obligations.FrameWritesCountAndBits : Prop :=
  ∀ s : State, s.cfg.wf → encodeCmd .frame = 0x5 ∧
    if s.bitLen.toNat > s.cfg.bitCap ∨ 8 + ceilDiv s.bitLen.toNat 8 > s.cfg.outCap then
      exec .frame s = .next { s with
        outLen := 0, outBuf := Buffer.unwritten s.draws, draws := s.draws + 1, partialFlag := false,
        phase := .idle, done := true, err := some .capacity }
    else ∃ b : Buffer, exec .frame s = .next { s with
        outBuf := b, outLen := BitVec.ofNat 64 (8 + ceilDiv s.bitLen.toNat 8), phase := .idle, done := true,
        err := none } ∧
      (∀ k, k < 8 → b.byte k = s.bitLen.extractLsb' (8 * k) 8) ∧
      (∀ i, i < s.bitLen.toNat → (b.byte (8 + i / 8)).getLsbD (7 - i % 8) = s.bitsBuf.bit i) ∧
      (∀ i, s.bitLen.toNat ≤ i → i < 8 * ceilDiv s.bitLen.toNat 8 →
        (b.byte (8 + i / 8)).getLsbD (7 - i % 8) = false) ∧
      ∀ a, 8 + ceilDiv s.bitLen.toNat 8 ≤ a → b.byte a = s.outBuf.byte a

/-- R145, UNFRAME: CAPACITY for IN_LEN, TRUNCATED_INPUT for a short header or body, CAPACITY for the count, in that order,
each with BIT_LEN 0 and every byte of BITS a free value; else exactly `count` bits, zero pad bits, the bytes above
unchanged. The count is a natural number. -/
def Obligations.UnframeReadsCountAndBits : Prop :=
  ∀ s : State, s.cfg.wf → encodeCmd .unframe = 0x6 ∧
    let count := ((List.range 8).map fun k => (s.inBuf.byte k).toNat * 2 ^ (8 * k)).sum
    let failed := fun e : ErrKind => Host.Outcome.next { s with
        bitLen := 0, bitsBuf := Buffer.unwritten s.draws, draws := s.draws + 1, partialFlag := false,
        phase := .idle, done := true, err := some e }
    if s.inLen.toNat > s.cfg.inCap then exec .unframe s = failed .capacity
    else if s.inLen.toNat < 8 then exec .unframe s = failed .truncatedInput
    else if 8 + ceilDiv count 8 > s.inLen.toNat then exec .unframe s = failed .truncatedInput
    else if count > s.cfg.bitCap then exec .unframe s = failed .capacity
    else ∃ b : Buffer, exec .unframe s = .next { s with
        bitsBuf := b, bitLen := BitVec.ofNat 64 count, phase := .idle, done := true, err := none } ∧
      (∀ i, i < count → b.bit i = (s.inBuf.byte (8 + i / 8)).getLsbD (7 - i % 8)) ∧
      (∀ i, count ≤ i → i < 8 * ceilDiv count 8 → b.bit i = false) ∧
      ∀ a, ceilDiv count 8 ≤ a → b.byte a = s.bitsBuf.byte a

/-- R149: FRAME, then copying OUT[0..OUT_LEN) into IN with IN_LEN = OUT_LEN, then UNFRAME gives back the same bits. -/
def Obligations.FrameUnframeRoundTrip : Prop :=
  ∀ s : State, s.cfg.wf → s.bitLen.toNat ≤ s.cfg.bitCap →
    8 + ceilDiv s.bitLen.toNat 8 ≤ min s.cfg.outCap s.cfg.inCap →
    ∃ t, exec .frame s = .next t ∧ t.err = none ∧
      ∀ u : State, u.cfg = s.cfg → u.inLen = t.outLen →
        (∀ a, a < t.outLen.toNat → u.inBuf.byte a = t.outBuf.byte a) →
        ∃ v, exec .unframe u = .next v ∧ v.err = none ∧ v.bitLen = s.bitLen ∧ v.bitsSeq = s.bitsSeq

/-! ## The tree builder -/

/-- R176, BUILD: CAPACITY for IN_LEN, TRUNCATED_INPUT for a partial last symbol, CAPACITY for more than MAX_DISTINCT distinct
symbols, in that order, each with SYM_COUNT and DISTINCT 0 and the four valid flags 0 (that FT, T and CT then
keep contents, which nothing reads, is the model's choice, assumption 3); else FT is the table of
occurrence counts, T and CT are the merge loop's, the counts and flags are set, and nothing else changes. -/
def Obligations.BuildMakesTablesAndTree : Prop :=
  ∀ s : State, s.cfg.wf → encodeCmd .build = 0x7 ∧
    let failed := fun e : ErrKind => Host.Outcome.next { s with
        symCount := 0, distinct := 0, freqValid := false, tableValid := false, treeValid := false,
        treeEmpty := false, partialFlag := false, phase := .idle, done := true, err := some e }
    if s.inLen.toNat > s.cfg.inCap then exec .build s = failed .capacity
    else if s.inLen.toNat % s.cfg.symBytes ≠ 0 then exec .build s = failed .truncatedInput
    else if s.inputSymbols.dedup.length > s.cfg.maxDistinct then exec .build s = failed .capacity
    else exec .build s = .next { s with
        freqTable := s.inputTable,
        tree := (mergeLoop s.inputTable (makeLeaves s.cfg s.inputTable)).1,
        codeTable := (mergeLoop s.inputTable (makeLeaves s.cfg s.inputTable)).2,
        symCount := BitVec.ofNat 64 (s.inLen.toNat / s.cfg.symBytes),
        distinct := BitVec.ofNat 64 s.inputSymbols.dedup.length,
        freqValid := true, tableValid := true, treeValid := true,
        treeEmpty := decide (s.inputSymbols.dedup.length = 0), phase := .idle, done := true, err := none }

/-- R164: FT[s] is the number of occurrences of s in the input, and the counts sum to the number of input symbols, which
is at most IN_CAP: no counter of `FREQ_WIDTH` = 64 bits overflows, and no sum of counts in the tree does. -/
def Obligations.CountsAreOccurrences : Prop :=
  ∀ s t : State, s.cfg.wf → exec .build s = .next t → t.err = none →
    (∀ x, (FreqTable.count t.freqTable x).toNat = s.inputSymbols.count x) ∧
    FreqTable.total t.freqTable = s.inLen.toNat / s.cfg.symBytes ∧
    FreqTable.total t.freqTable ≤ s.cfg.inCap ∧ s.cfg.inCap < 2 ^ freqWidth ∧
    ∀ tree, t.tree = some tree → tree.freqsExact

/-- R165: leaves are created in ascending key order, one per table entry, unsigned or two's complement. -/
def Obligations.LeavesAreInKeyOrder : Prop :=
  ∀ (c : Config) (ft : FreqTable), c.wf → (ft.map Prod.fst).Nodup → (∀ e ∈ ft, e.1.toNat < 2 ^ c.w) →
    ∃ es : FreqTable, makeLeaves c ft = es.map (fun e => .leaf e.1 e.2) ∧ es.Perm ft ∧
      es.Pairwise fun x y =>
        if c.keySigned then (x.1.setWidth c.w).toInt < (y.1.setWidth c.w).toInt else x.1.toNat < y.1.toNat

/-- R167: `insert_ordered` keeps the working list in descending frequency, the new node after every entry of equal or
higher frequency and before every entry of lower. -/
def Obligations.WorkingListStaysDescending : Prop :=
  ∀ (work : List CodeTree) (n : CodeTree), work.Pairwise (fun x y => y.freq ≤ x.freq) →
    ∃ before after, insertOrdered work n = before ++ n :: after ∧ work = before ++ after ∧
      (∀ e ∈ before, n.freq ≤ e.freq) ∧ (∀ e ∈ after, e.freq < n.freq) ∧
      (insertOrdered work n).Pairwise (fun x y => y.freq ≤ x.freq)

/-- R166, R168 to R173: what the merge loop makes of a table of distinct symbols. The leaves are inserted in creation
order and merged as R168 and R169 say, `MergesTo`, the last entry the left child with bit 0 and the one before it the
right child with bit 1; the codes are reversed. No entry: the `Empty` tree and no code. Else a full binary tree of
2D - 1 nodes whose leaves are the table's entries, each once, whose frequencies add (without wrapping, where the sum of
the counts fits `FREQ_WIDTH` bits), and whose root-to-leaf paths are exactly the codes, of length at most D - 1. -/
def Obligations.MergeLoopBuildsTheCodeTree : Prop :=
  (∀ (ft : FreqTable) (leaves : List CodeTree), ∃ work g,
    MergesTo (leaves.foldl insertOrdered []) (ft.map fun e => (e.1, [])) work g ∧
    mergeLoop ft leaves = (work.head?, g.map fun e => (e.1, e.2.reverse))) ∧
  ∀ (c : Config) (ft : FreqTable), (ft.map Prod.fst).Nodup →
    (ft = [] → mergeLoop ft (makeLeaves c ft) = (none, [])) ∧
    (ft ≠ [] → ∃ t, (mergeLoop ft (makeLeaves c ft)).1 = some t ∧ t.leafEntries.Perm ft ∧ t.freqsAdd ∧
      (FreqTable.total ft < 2 ^ freqWidth → t.freqsExact) ∧
      t.nodes = 2 * ft.length - 1 ∧ t.leaves = ft.length ∧
      (∀ x code, (x, code) ∈ (mergeLoop ft (makeLeaves c ft)).2 ↔ (x, code) ∈ t.paths) ∧
      ∀ e ∈ (mergeLoop ft (makeLeaves c ft)).2, e.2.length ≤ ft.length - 1)

/-- R173: the codes are prefix-free: no code is the beginning of another symbol's. -/
def Obligations.CodesArePrefixFree : Prop :=
  ∀ s t : State, s.cfg.wf → exec .build s = .next t → t.err = none →
    ∀ x ∈ t.codeTable, ∀ y ∈ t.codeTable, x.1 ≠ y.1 → ¬ x.2 <+: y.2

/-- R177, FREQ: NO_TREE with FREQ 0 when no valid frequency table exists; else the count of the symbol in VALUE[W-1:0], 0
for an absent one. -/
def Obligations.FreqReadsTheCount : Prop :=
  ∀ s : State, s.cfg.wf → encodeCmd .freq = 0x8 ∧
    if s.freqValid = false then
      exec .freq s = .next { s with
        freq := 0, partialFlag := false, phase := .idle, done := true, err := some .noTree }
    else exec .freq s = .next { s with
        freq := FreqTable.count s.freqTable (BitVec.ofNat 64 (s.value.toNat % 2 ^ s.cfg.w)),
        phase := .idle, done := true, err := none }

/-- R178, LOOKUP: NO_TREE, then NO_SYMBOL, each with CODE_LEN and every CODE_W[j] 0; else CODE_LEN is the code's length and
code bit i is CODE_W[i div 64] bit 63 - (i mod 64), every bit beyond the code 0. -/
def Obligations.LookupReadsTheCode : Prop :=
  ∀ s : State, s.cfg.wf → encodeCmd .lookup = 0x9 ∧
    let sym : Symbol := BitVec.ofNat 64 (s.value.toNat % 2 ^ s.cfg.w)
    let failed := fun (e : ErrKind) => ∃ ws : List Word, exec .lookup s = .next { s with
        codeLen := 0, codeW := ws, partialFlag := false, phase := .idle, done := true, err := some e } ∧
      ∀ j, ws.getD j 0 = if j < s.cfg.codeWords then 0 else s.codeW.getD j 0
    if s.tableValid = false then failed .noTree
    else match List.lookup sym s.codeTable with
      | none => failed .noSymbol
      | some code => ∃ ws : List Word, ws.length = s.cfg.codeWords ∧ exec .lookup s = .next { s with
          codeLen := BitVec.ofNat 64 code.length, codeW := ws, phase := .idle, done := true, err := none } ∧
        ∀ j q, j < s.cfg.codeWords → q < 64 → (ws.getD j 0).getLsbD (63 - q) = code.getD (64 * j + q) false

/-- R179, R308: a valid code table is the one of the last build: in every step, the code table that is valid after it was
valid and the same before it, or the step is the completion of a BUILD or an ENCODE; the same for the frequency table. A
host step while a BUILD or an ENCODE runs changes neither. -/
def Obligations.OnlyBuildAndEncodeWriteTables : Prop :=
  ∀ s t : State, step s = .next t →
    let built := ∃ i n, (i = Instr.build ∨ i = Instr.encode) ∧ s.phase = .exec (.legal i) n ∧
      (n = 0 ∨ s.hostDone = true) ∧ exec i s = .next t ∧ t.err = none
    (t.tableValid = true → (s.tableValid = true ∧ t.codeTable = s.codeTable) ∨ built) ∧
    (t.freqValid = true → (s.freqValid = true ∧ t.freqTable = s.freqTable) ∨ built)

/-! ## The tree serializer and deserializer -/

/-- R202: a non-empty tree of D leaves has 2D - 1 nodes and serializes to (2D - 1) + D × W bits. -/
def Obligations.SerializedTreeLength : Prop :=
  ∀ (c : Config) (t : CodeTree), t.nodes = 2 * t.leaves - 1 ∧
    (t.ser c).length = (2 * t.leaves - 1) + t.leaves * c.w

/-- R205, SERIALIZE: NO_TREE, then CAPACITY, each with BIT_LEN and TREE_BITS 0 and every byte of BITS a free value; else BITS
holds the serialized tree with zero pad bits, the bytes above unchanged. -/
def Obligations.SerializeWritesTheTree : Prop :=
  ∀ s : State, s.cfg.wf → encodeCmd .serialize = 0xA ∧
    let bits := serTree s.cfg s.tree
    let failed := fun e : ErrKind => Host.Outcome.next { s with
        bitLen := 0, treeBits := 0, bitsBuf := Buffer.unwritten s.draws, draws := s.draws + 1,
        partialFlag := false, phase := .idle, done := true, err := some e }
    if s.treeValid = false then exec .serialize s = failed .noTree
    else if bits.length > s.cfg.bitCap then exec .serialize s = failed .capacity
    else ∃ b : Buffer, exec .serialize s = .next { s with
        bitsBuf := b, bitLen := BitVec.ofNat 64 bits.length, treeBits := BitVec.ofNat 64 bits.length,
        phase := .idle, done := true, err := none } ∧
      (∀ i, i < bits.length → b.bit i = bits.getD i false) ∧
      (∀ i, bits.length ≤ i → i < 8 * ceilDiv bits.length 8 → b.bit i = false) ∧
      ∀ a, ceilDiv bits.length 8 ≤ a → b.byte a = s.bitsBuf.byte a

/-- R207: the deserializer gives back the shape and leaf symbols of a serialized tree, whatever bits follow, and consumes
exactly its bits. -/
def Obligations.TreeRoundTrip : Prop :=
  ∀ (c : Config) (t : CodeTree) (rest : Bits), c.wf → t.nodes ≤ c.nodeCap → t.symsFit c →
    deser c (t.ser c ++ rest) 0 = .ok (t.shape, (t.ser c).length)

/-- R206, DESERIALIZE on a stream that holds a tree of at most NODE_CAP nodes from START on: T is that tree, DISTINCT its
leaves, TREE_BITS its length, TREE_VALID 1, the other valid flags 0, and nothing else changes. -/
def Obligations.DeserializeRebuildsTheTree : Prop :=
  ∀ (s : State) (t : CodeTree) (rest : Bits), s.cfg.wf → s.bitLen.toNat ≤ s.cfg.bitCap →
    s.bitsSeq.drop s.start.toNat = t.ser s.cfg ++ rest → t.nodes ≤ s.cfg.nodeCap → t.symsFit s.cfg →
    exec .deserialize s = .next { s with
      tree := some t.shape, distinct := BitVec.ofNat 64 t.leaves, treeBits := BitVec.ofNat 64 (t.ser s.cfg).length,
      freqValid := false, tableValid := false, treeValid := true, treeEmpty := false,
      phase := .idle, done := true, err := none }

/-- R203, R206: DESERIALIZE fails in every other case: with CAPACITY for BIT_LEN above BIT_CAP; else, when no tree of at most
NODE_CAP nodes stands at START, with the first check of R203 that fails in reading order, `treeReadingFails`, which one
always does; so with MALFORMED_TREE when there is no tag bit. DISTINCT and TREE_BITS are 0 and the four valid flags 0.
That T then keeps its contents, which nothing reads, is the model's choice (assumption 3). -/
def Obligations.DeserializeFailsWithoutATree : Prop :=
  ∀ s : State, s.cfg.wf →
    let failed := fun e : ErrKind => Host.Outcome.next { s with
      distinct := 0, treeBits := 0, freqValid := false, tableValid := false, treeValid := false, treeEmpty := false,
      partialFlag := false, phase := .idle, done := true, err := some e }
    (s.bitLen.toNat > s.cfg.bitCap → exec .deserialize s = failed .capacity) ∧
    (s.bitLen.toNat ≤ s.cfg.bitCap → s.bitLen.toNat ≤ s.start.toNat →
      exec .deserialize s = failed .malformedTree) ∧
    (s.bitLen.toNat ≤ s.cfg.bitCap →
      (∀ e, treeReadingFails s.cfg (s.bitsSeq.drop s.start.toNat) e → exec .deserialize s = failed e) ∧
      (¬ holdsTree s.cfg (s.bitsSeq.drop s.start.toNat) →
        ∃ e, treeReadingFails s.cfg (s.bitsSeq.drop s.start.toNat) e ∧ exec .deserialize s = failed e))

/-! ## The stream encoder and decoder -/

/-- R250, ENCODE: CAPACITY, TRUNCATED_INPUT, CAPACITY, CAPACITY in the rule's order, each with its five result registers 0,
the four valid flags 0 and every byte of BITS a free value (that FT, T and CT then keep contents, which nothing reads, is
the model's choice, assumption 3); else the tables and tree are the builder's, and BITS holds
the serialized tree followed by the codes of the input symbols in order, with zero pad bits. -/
def Obligations.EncodeWritesTreeAndPayload : Prop :=
  ∀ s : State, s.cfg.wf → encodeCmd .encode = 0xC ∧
    let built := mergeLoop s.inputTable (makeLeaves s.cfg s.inputTable)
    let treePart := serTree s.cfg built.1
    let payload := s.inputSymbols.flatMap fun x => (List.lookup x built.2).getD []
    let bits := treePart ++ payload
    let failed := fun e : ErrKind => Host.Outcome.next { s with
        symCount := 0, distinct := 0, treeBits := 0, payloadBits := 0, bitLen := 0,
        bitsBuf := Buffer.unwritten s.draws, draws := s.draws + 1, freqValid := false, tableValid := false,
        treeValid := false, treeEmpty := false, partialFlag := false, phase := .idle, done := true, err := some e }
    if s.inLen.toNat > s.cfg.inCap then exec .encode s = failed .capacity
    else if s.inLen.toNat % s.cfg.symBytes ≠ 0 then exec .encode s = failed .truncatedInput
    else if s.inputSymbols.dedup.length > s.cfg.maxDistinct then exec .encode s = failed .capacity
    else if bits.length > s.cfg.bitCap then exec .encode s = failed .capacity
    else ∃ b : Buffer, exec .encode s = .next { s with
        freqTable := s.inputTable, tree := built.1, codeTable := built.2, bitsBuf := b,
        symCount := BitVec.ofNat 64 (s.inLen.toNat / s.cfg.symBytes),
        distinct := BitVec.ofNat 64 s.inputSymbols.dedup.length,
        treeBits := BitVec.ofNat 64 treePart.length, payloadBits := BitVec.ofNat 64 payload.length,
        bitLen := BitVec.ofNat 64 bits.length, freqValid := true, tableValid := true, treeValid := true,
        treeEmpty := decide (s.inputSymbols.dedup.length = 0), phase := .idle, done := true, err := none } ∧
      (∀ i, i < bits.length → b.bit i = bits.getD i false) ∧
      (∀ i, bits.length ≤ i → i < 8 * ceilDiv bits.length 8 → b.bit i = false) ∧
      ∀ a, ceilDiv bits.length 8 ≤ a → b.byte a = s.bitsBuf.byte a

/-- R246, R251, R272, R276, DECODE of a stream with no tree. Zero bits: with EXP_COUNT = 0 it succeeds with no symbol and
T = Empty, else it fails with MALFORMED_TREE. BIT_LEN above BIT_CAP fails with CAPACITY. A non-empty stream that holds no
complete tree of at most NODE_CAP nodes fails with the first check of R203 that fails in reading order,
`treeReadingFails`, which one always does. A failure leaves its five result registers 0, every valid flag 0 and every byte
of OUT a free value; that T then keeps its contents, which nothing reads, is the model's choice (assumption 3). -/
def Obligations.DecodeOfEmptyOrOverlongStream : Prop :=
  ∀ s : State, s.cfg.wf → encodeCmd .decode = 0xD ∧
    let failed := fun e : ErrKind => Host.Outcome.next { s with
        symCount := 0, distinct := 0, treeBits := 0, payloadBits := 0, outLen := 0,
        outBuf := Buffer.unwritten s.draws, draws := s.draws + 1, freqValid := false, tableValid := false,
        treeValid := false, treeEmpty := false, partialFlag := false, phase := .idle, done := true, err := some e }
    (s.bitLen.toNat > s.cfg.bitCap → exec .decode s = failed .capacity) ∧
    (s.bitLen = 0 → s.expCount ≠ 0 → exec .decode s = failed .malformedTree) ∧
    (s.bitLen = 0 → s.expCount = 0 → exec .decode s = .next { s with
      tree := none, symCount := 0, distinct := 0, treeBits := 0, payloadBits := 0, outLen := 0,
      freqValid := false, tableValid := false, treeValid := true, treeEmpty := true, partialFlag := false,
      phase := .idle, done := true, err := none }) ∧
    (s.bitLen.toNat ≤ s.cfg.bitCap → s.bitLen ≠ 0 →
      (∀ e, treeReadingFails s.cfg s.bitsSeq e → exec .decode s = failed e) ∧
      (¬ holdsTree s.cfg s.bitsSeq → ∃ e, treeReadingFails s.cfg s.bitsSeq e ∧ exec .decode s = failed e))

/-- R244, R245, DECODE of a stream whose tree is a single leaf: its symbol EXP_COUNT times, the bits after the leaf not
read, PAYLOAD_BITS 0; CAPACITY when OUT cannot hold them (R249), and that T then keeps its contents, which nothing reads,
is the model's choice (assumption 3). -/
def Obligations.DecodeOfSingleLeafRepeatsTheSymbol : Prop :=
  ∀ (s : State) (x : Symbol) (f : Count) (rest : Bits), s.cfg.wf → s.bitLen.toNat ≤ s.cfg.bitCap →
    x.toNat < 2 ^ s.cfg.w → s.bitsSeq = (CodeTree.leaf x f).ser s.cfg ++ rest →
    if s.expCount.toNat * s.cfg.symBytes > s.cfg.outCap then
      exec .decode s = .next { s with
        symCount := 0, distinct := 0, treeBits := 0, payloadBits := 0, outLen := 0,
        outBuf := Buffer.unwritten s.draws, draws := s.draws + 1, freqValid := false, tableValid := false,
        treeValid := false, treeEmpty := false, partialFlag := false, phase := .idle, done := true,
        err := some .capacity }
    else ∃ b : Buffer, exec .decode s = .next { s with
        tree := some (.leaf x 0), symCount := s.expCount, distinct := 1, treeBits := BitVec.ofNat 64 (1 + s.cfg.w),
        payloadBits := 0, outLen := BitVec.ofNat 64 (s.expCount.toNat * s.cfg.symBytes), outBuf := b,
        freqValid := false, tableValid := false, treeValid := true, treeEmpty := false, partialFlag := false,
        phase := .idle, done := true, err := none } ∧
      (∀ i k, i < s.expCount.toNat → k < s.cfg.symBytes →
        b.byte (i * s.cfg.symBytes + k) = x.extractLsb' (8 * k) 8) ∧
      ∀ a, s.expCount.toNat * s.cfg.symBytes ≤ a → b.byte a = s.outBuf.byte a

/-- R240 to R243, R249, DECODE of a tree of at least two leaves, codes of it, and a dangling partial code or none, which is
every payload: the codes' symbols in order, PAYLOAD_BITS every bit after the tree. Symbols that do not all fit OUT fail
with CAPACITY, whatever follows them; else with a partial code the command succeeds with PARTIAL = 1 when the host opted
in, and else fails with TRUNCATED_PAYLOAD. EXP_COUNT is not read (R247). That T keeps its contents on a failure, which
nothing reads, is the model's choice (assumption 3). -/
def Obligations.DecodeWalksTheTree : Prop :=
  (∀ (l r : CodeTree) (f : Count) (payload : Bits), ∃ (codes : List (Symbol × Bits)) (dangling : Bits),
    payload = codes.flatMap Prod.snd ++ dangling ∧ (∀ e ∈ codes, e ∈ (CodeTree.node l r f).paths) ∧
    (dangling = [] ∨ (CodeTree.node l r f).partialCode dangling)) ∧
  ∀ (s : State) (l r : CodeTree) (f : Count) (codes : List (Symbol × Bits)) (dangling : Bits),
    let t := CodeTree.node l r f
    let failed := fun e : ErrKind => Host.Outcome.next { s with
        symCount := 0, distinct := 0, treeBits := 0, payloadBits := 0, outLen := 0,
        outBuf := Buffer.unwritten s.draws, draws := s.draws + 1, freqValid := false, tableValid := false,
        treeValid := false, treeEmpty := false, partialFlag := false, phase := .idle, done := true, err := some e }
    s.cfg.wf → s.bitLen.toNat ≤ s.cfg.bitCap → t.nodes ≤ s.cfg.nodeCap → t.symsFit s.cfg →
    (∀ e ∈ codes, e ∈ t.paths) → (dangling = [] ∨ t.partialCode dangling) →
    s.bitsSeq = t.ser s.cfg ++ (codes.flatMap Prod.snd ++ dangling) →
    if codes.length * s.cfg.symBytes > s.cfg.outCap then exec .decode s = failed .capacity
    else if dangling ≠ [] ∧ s.acceptTrunc = false then exec .decode s = failed .truncatedPayload
    else ∃ b : Buffer, exec .decode s = .next { s with
        tree := some t.shape, symCount := BitVec.ofNat 64 codes.length, distinct := BitVec.ofNat 64 t.leaves,
        treeBits := BitVec.ofNat 64 (t.ser s.cfg).length,
        payloadBits := BitVec.ofNat 64 (codes.flatMap Prod.snd ++ dangling).length,
        outLen := BitVec.ofNat 64 (codes.length * s.cfg.symBytes), outBuf := b,
        freqValid := false, tableValid := false, treeValid := true, treeEmpty := false,
        partialFlag := decide (dangling ≠ []), phase := .idle, done := true, err := none } ∧
      (∀ i k, i < codes.length → k < s.cfg.symBytes →
        b.byte (i * s.cfg.symBytes + k) = ((codes.map Prod.fst).getD i 0).extractLsb' (8 * k) 8) ∧
      ∀ a, codes.length * s.cfg.symBytes ≤ a → b.byte a = s.outBuf.byte a

/-- R248: the decoder's traversal state machine is the same computation as DECODE's rule on every non-empty stream: it
reaches D_FINISH or a raised error, with the same results. -/
def Obligations.TraversalMachineIsDecode : Prop :=
  ∀ (c : Config) (bits : Bits) (expCount : Nat) (acceptTrunc : Bool), bits ≠ [] →
    ∃ n, (DecFsm.run c bits expCount acceptTrunc n DecFsm.start).result =
      some (decodeFrom c bits expCount acceptTrunc)

/-- R252: for every input ENCODE accepts that fits OUT, DECODE with EXP_COUNT = the SYM_COUNT that ENCODE wrote and either
value of ACCEPT_TRUNC gives back the input bytes. -/
def Obligations.EncodeDecodeRoundTrip : Prop :=
  ∀ (s t : State) (acceptTrunc : Bool), s.cfg.wf → exec .encode s = .next t → t.err = none →
    s.inLen.toNat ≤ s.cfg.outCap →
    ∃ u, exec .decode { t with expCount := t.symCount, acceptTrunc := acceptTrunc } = .next u ∧ u.err = none ∧
      u.partialFlag = false ∧ u.outLen = s.inLen ∧
      ∀ a, a < s.inLen.toNat → u.outBuf.byte a = s.inBuf.byte a

/-- R253: ENCODE's results are a function of IN[0..IN_LEN) and the configuration, and DECODE's of the bits of BITS below
BIT_LEN, EXP_COUNT, ACCEPT_TRUNC and the configuration: whatever earlier commands left elsewhere, the results agree. -/
def Obligations.EncodeAndDecodeReadNoEarlierState : Prop :=
  (∀ s s' : State, s.cfg = s'.cfg → s.inLen = s'.inLen →
    (∀ a, a < s.inLen.toNat → s.inBuf.byte a = s'.inBuf.byte a) →
    ∃ t t', exec .encode s = .next t ∧ exec .encode s' = .next t' ∧ t.err = t'.err ∧ t.bitLen = t'.bitLen ∧
      t.treeBits = t'.treeBits ∧ t.payloadBits = t'.payloadBits ∧ t.symCount = t'.symCount ∧
      t.distinct = t'.distinct ∧ t.freqValid = t'.freqValid ∧ t.tableValid = t'.tableValid ∧
      t.treeValid = t'.treeValid ∧ t.treeEmpty = t'.treeEmpty ∧
      (t.err = none → t.tree = t'.tree ∧ t.freqTable = t'.freqTable ∧ t.codeTable = t'.codeTable ∧
        (s.cfg.wf → t.bitsSeq = t'.bitsSeq))) ∧
  ∀ s s' : State, s.cfg = s'.cfg → s.bitLen = s'.bitLen → s.bitsSeq = s'.bitsSeq → s.expCount = s'.expCount →
    s.acceptTrunc = s'.acceptTrunc →
    ∃ t t', exec .decode s = .next t ∧ exec .decode s' = .next t' ∧ t.err = t'.err ∧ t.outLen = t'.outLen ∧
      t.treeBits = t'.treeBits ∧ t.payloadBits = t'.payloadBits ∧ t.symCount = t'.symCount ∧
      t.distinct = t'.distinct ∧ t.partialFlag = t'.partialFlag ∧ t.treeValid = t'.treeValid ∧
      t.treeEmpty = t'.treeEmpty ∧
      (t.err = none → t.tree = t'.tree ∧
        (s.cfg.wf → ∀ a, a < t.outLen.toNat → t.outBuf.byte a = t'.outBuf.byte a))

/-! ## Failure and frames over all commands -/

/-- R281, R282: a failed command sets every register of its write set to 0, its valid flags and PARTIAL to 0, makes every
byte of its buffer a free value, and changes nothing outside its write set and STATUS. -/
def Obligations.FailureDestroysOnlyTheWriteSet : Prop :=
  ∀ (i : Instr) (s t : State) (e : ErrKind), exec i s = .next t → t.err = some e →
    (∀ r ∈ writeRegs s.cfg i, t.reg r = 0) ∧ t.partialFlag = false ∧ t.done = true ∧ t.phase = .idle ∧
    (∀ sp, writeSpace i = some sp → ∀ a, (t.buf sp).byte a = Config.freeByte s.draws a) ∧
    (∀ sp, writeSpace i ≠ some sp → t.buf sp = s.buf sp) ∧
    (writesTree i = true → t.freqValid = false ∧ t.tableValid = false ∧ t.treeValid = false ∧ t.treeEmpty = false) ∧
    (writesTree i = false → t.freqValid = s.freqValid ∧ t.tableValid = s.tableValid ∧
      t.treeValid = s.treeValid ∧ t.treeEmpty = s.treeEmpty ∧ t.freqTable = s.freqTable ∧ t.tree = s.tree ∧
      t.codeTable = s.codeTable) ∧
    (∀ r, r ∉ writeRegs s.cfg i → r ≠ .status → t.reg r = s.reg r) ∧
    t.cfg = s.cfg ∧ t.ovr = s.ovr ∧ t.lastOp = s.lastOp

/-- R27, R30, R32, R44, R66: no command writes the IN buffer, IN_LEN, START, EXP_COUNT or CTRL, nor anything of the host. -/
def Obligations.EngineNeverWritesItsInputs : Prop :=
  ∀ (i : Instr) (s t : State), exec i s = .next t →
    t.inBuf = s.inBuf ∧ t.inLen = s.inLen ∧ t.start = s.start ∧ t.expCount = s.expCount ∧
    t.acceptTrunc = s.acceptTrunc ∧ t.irqEn = s.irqEn ∧ t.ovr = s.ovr ∧ t.lastOp = s.lastOp ∧
    t.inReset = s.inReset ∧ t.script = s.script ∧ t.scriptPos = s.scriptPos ∧ t.pending = s.pending ∧
    t.seen = s.seen ∧ t.latencies = s.latencies

/-- R78: a command sees the inputs as they were at acceptance: no host step while it runs, the reset input apart, changes
anything a command reads. -/
def Obligations.RunningCommandSeesItsAcceptanceInputs : Prop :=
  ∀ s t : State, s.busy = true → hostStep s = .next t → t.inReset = false → s.inReset = false →
    t.inBuf = s.inBuf ∧ t.bitsBuf = s.bitsBuf ∧ t.inLen = s.inLen ∧ t.bitLen = s.bitLen ∧ t.start = s.start ∧
    t.value = s.value ∧ t.expCount = s.expCount ∧ t.acceptTrunc = s.acceptTrunc ∧ t.tree = s.tree ∧
    t.freqTable = s.freqTable ∧ t.codeTable = s.codeTable ∧ t.freqValid = s.freqValid ∧
    t.tableValid = s.tableValid ∧ t.treeValid = s.treeValid ∧ t.phase = s.phase ∧ t.cfg = s.cfg

/-! ## Invariants of every step -/

/-- R22, R23: the configuration is constant: no step changes it. -/
def Obligations.StepKeepsTheConfiguration : Prop :=
  ∀ s t : State, step s = .next t → t.cfg = s.cfg

/-- The state after reset meets the three invariants. -/
def Obligations.ResetMeetsTheInvariants : Prop :=
  State.reset.cfg.wf ∧ State.reset.memoryWf ∧ State.reset.statusCoherent ∧ State.reset.tablesBounded

/-- R60, R62: every step keeps every buffer in canonical form and inside its size. -/
def Obligations.StepKeepsTheBuffersInBounds : Prop :=
  ∀ s t : State, s.cfg.wf → s.memoryWf → step s = .next t → t.memoryWf

/-- R26, R41, R46, R301: every step keeps the STATUS flags coherent with each other, the phase and the tree. That the engine
is IDLE while reset is still asserted is the model's choice (assumption 6; R300 and R301 say what holds at release). -/
def Obligations.StepKeepsTheStatusCoherent : Prop :=
  ∀ s t : State, s.statusCoherent → step s = .next t → t.statusCoherent

/-- R45, R46, R47, R172, R277: every step keeps every valid table and every count inside its capacity, so no result
register wraps. -/
def Obligations.StepKeepsTheTablesBounded : Prop :=
  ∀ s t : State, s.cfg.wf → s.tablesBounded → step s = .next t → t.tablesBounded
end

