-- ==== Sys2Proof/Machine/Assembler.lean ====
section
/-! DEFINITION. The host assembler syntax (spec/30_encoding.md rules R97 to R99): from the text of a host script to its
statements, refusing what the rules give no meaning, and from statements to their transaction list. -/

namespace Sys2Proof.Machine

/-- The tokens of one line. -/
inductive Token where
  | word (w : List Char)
  | text (cs : List Char)
  | comma
  | colon
  deriving DecidableEq, Repr

/-- A word token, if there is one. -/
def flushWord (cur : List Char) : List Token := if cur.isEmpty then [] else [.word cur.reverse]

/-- The tokens of a line, `inText` inside a double-quoted string, `cur` the characters since the last token, newest first;
`;` outside a string starts a comment (R97). A string without its closing quote has no tokens. -/
def lexLine (inText : Bool) (cur : List Char) : List Char → Option (List Token)
  | [] => if inText then none else some (flushWord cur)
  | c :: cs =>
    if inText then
      if c = '"' then (lexLine false [] cs).map fun ts => .text cur.reverse :: ts
      else lexLine true (c :: cur) cs
    else if c = ';' then some (flushWord cur)
    else if c = ' ' ∨ c = '\t' then (lexLine false [] cs).map fun ts => flushWord cur ++ ts
    else if c = ',' then (lexLine false [] cs).map fun ts => flushWord cur ++ .comma :: ts
    else if c = ':' then (lexLine false [] cs).map fun ts => flushWord cur ++ .colon :: ts
    else if c = '"' then (lexLine true [] cs).map fun ts => flushWord cur ++ ts
    else lexLine false (c :: cur) cs

/-- The lines of a text, `cur` the characters of the current one, newest first. -/
def splitLines (cur : List Char) : List Char → List (List Char)
  | [] => [cur.reverse]
  | c :: cs => if c = '\n' then cur.reverse :: splitLines [] cs else splitLines (c :: cur) cs

/-- One digit of a base up to sixteen. -/
def digitValue (base : Nat) (c : Char) : Option Nat :=
  let d :=
    if 48 ≤ c.toNat ∧ c.toNat ≤ 57 then c.toNat - 48
    else if 65 ≤ c.toNat ∧ c.toNat ≤ 70 then c.toNat - 55
    else if 97 ≤ c.toNat ∧ c.toNat ≤ 102 then c.toNat - 87
    else base
  if d < base then some d else none

/-- The digits after those already read as `acc`; an underscore beside them groups digits (assumption 16). -/
def digitsValue (base acc : Nat) : List Char → Option Nat
  | [] => some acc
  | c :: cs =>
    if c = '_' then digitsValue base acc cs
    else match digitValue base c with
      | some d => digitsValue base (base * acc + d) cs
      | none => none

/-- The number written by digits of a base; without a digit there is none (assumption 16). -/
def digitsNumber (base : Nat) (cs : List Char) : Option Nat :=
  if cs.any (· ≠ '_') then digitsValue base 0 cs else none

/-- A number: decimal, or hexadecimal behind `0x` (R97). -/
def numberOf (cs : List Char) : Option Nat :=
  match cs with
  | '0' :: 'x' :: hex => digitsNumber 16 hex
  | dec => digitsNumber 10 dec

/-- A 64-bit value (R97). -/
def wordOf (cs : List Char) : Option Word :=
  (numberOf cs).bind fun n => if n < 2 ^ 64 then some (BitVec.ofNat 64 n) else none

/-- A byte literal: one or two hexadecimal digits, with or without `0x`, as spec/95_test_vectors.md section 9 writes them,
and no underscore (assumption 16). -/
def byteOf (cs : List Char) : Option Byte :=
  let hex := match cs with
    | '0' :: 'x' :: h => h
    | h => h
  if (hex.length = 1 ∨ hex.length = 2) ∧ '_' ∉ hex then (digitsNumber 16 hex).map fun n => BitVec.ofNat 8 n else none

/-- The characters of a quoted string, each one byte, no terminator (R97); ASCII only. -/
def asciiBytes (cs : List Char) : Option (List Byte) :=
  cs.mapM fun c => if c.toNat < 128 then some (BitVec.ofNat 8 c.toNat) else none

/-- The register numbers by name (R21 to R38). -/
def regByName (name : String) : Option Nat :=
  match name with
  | "ID" => some 0x00
  | "CFG" => some 0x01
  | "CAP_IN" => some 0x02
  | "CAP_OUT" => some 0x03
  | "CAP_BITS" => some 0x04
  | "CAP_DISTINCT" => some 0x05
  | "CTRL" => some 0x06
  | "CMD" => some 0x07
  | "STATUS" => some 0x08
  | "IN_LEN" => some 0x09
  | "BIT_LEN" => some 0x0A
  | "OUT_LEN" => some 0x0B
  | "START" => some 0x0C
  | "VALUE" => some 0x0D
  | "EXP_COUNT" => some 0x0E
  | "SYM_COUNT" => some 0x0F
  | "DISTINCT" => some 0x10
  | "TREE_BITS" => some 0x11
  | "PAYLOAD_BITS" => some 0x12
  | "FREQ" => some 0x13
  | "CODE_LEN" => some 0x14
  | _ => none

/-- `CODE_W[j]` is register 0x20 + j (R39). DESIGN CHOICE: j is written in decimal digits, and a `0x` index is refused; j may
be any number so written, and one at or beyond `CODE_WORDS` names the reserved register 0x20 + j (R40), as a number would
(assumption 18). -/
def codeWByName (cs : List Char) : Option Nat :=
  match cs with
  | 'C' :: 'O' :: 'D' :: 'E' :: '_' :: 'W' :: '[' :: rest =>
    match rest.reverse with
    | ']' :: j => (digitsNumber 10 j.reverse).map (0x20 + ·)
    | _ => none
  | _ => none

/-- `<reg>`: a register name or a number (R97). -/
def regOf (cs : List Char) : Option Nat :=
  match regByName (String.ofList cs) with
  | some n => some n
  | none => match codeWByName cs with
    | some n => some n
    | none => numberOf cs

/-- The fields of the registers that have fields (R22, R24, R26, R90). -/
def fieldByName (n : Nat) (name : String) : Option Field :=
  match n, name with
  | 0x01, "SYM_BYTES" => some ⟨3, 0⟩
  | 0x01, "KEY_SIGNED" => some ⟨4, 4⟩
  | 0x06, "ACCEPT_TRUNC" => some ⟨0, 0⟩
  | 0x06, "IRQ_EN" => some ⟨1, 1⟩
  | 0x07, "OPCODE" => some ⟨7, 0⟩
  | 0x07, "RSVD" => some ⟨63, 8⟩
  | 0x08, "BUSY" => some ⟨0, 0⟩
  | 0x08, "DONE" => some ⟨1, 1⟩
  | 0x08, "OVR" => some ⟨2, 2⟩
  | 0x08, "ERR" => some ⟨11, 8⟩
  | 0x08, "FREQ_VALID" => some ⟨16, 16⟩
  | 0x08, "TABLE_VALID" => some ⟨17, 17⟩
  | 0x08, "TREE_VALID" => some ⟨18, 18⟩
  | 0x08, "TREE_EMPTY" => some ⟨19, 19⟩
  | 0x08, "PARTIAL" => some ⟨20, 20⟩
  | 0x08, "LAST_OP" => some ⟨31, 24⟩
  | _, _ => none

/-- `<reg>.<field>`: a register and a field of it, or `none` where there is no dot. -/
def regFieldOf (cs : List Char) : Option (Nat × Field) :=
  match cs.span (· ≠ '.') with
  | (r, _ :: f) => (regOf r).bind fun n => (fieldByName n (String.ofList f)).map fun fl => (n, fl)
  | (_, []) => none

/-- `<space>` (R97). -/
def spaceOf (cs : List Char) : Option Space :=
  match String.ofList cs with
  | "IN" => some .input
  | "BITS" => some .bits
  | "OUT" => some .output
  | _ => none

/-- A command's mnemonic (R93). -/
def instrOf (cs : List Char) : Option Instr :=
  match String.ofList cs with
  | "BYTES_OF" => some .bytesOf
  | "VALUE_OF_BYTES" => some .valueOfBytes
  | "BITS_OF" => some .bitsOf
  | "VALUE_OF_BITS" => some .valueOfBits
  | "FRAME" => some .frame
  | "UNFRAME" => some .unframe
  | "BUILD" => some .build
  | "FREQ" => some .freq
  | "LOOKUP" => some .lookup
  | "SERIALIZE" => some .serialize
  | "DESERIALIZE" => some .deserialize
  | "ENCODE" => some .encode
  | "DECODE" => some .decode
  | _ => none

/-- The bytes of a `WB`. DESIGN CHOICE: byte literals and quoted strings may be mixed, a comma anywhere among them separates
and has no other meaning, and the list may be empty, which writes nothing (assumption 18). -/
def bytesOfTokens : List Token → Option (List Byte)
  | [] => some []
  | .word w :: ts => (byteOf w).bind fun b => (bytesOfTokens ts).map (b :: ·)
  | .text cs :: ts => (asciiBytes cs).bind fun bs => (bytesOfTokens ts).map (bs ++ ·)
  | .comma :: ts => bytesOfTokens ts
  | .colon :: _ => none

/-- The statements of `WR` on a register, or on a field of it (R97, R98). -/
def asmWrite (r : List Char) (v : Word) : Option (List Stmt) :=
  match regOf r with
  | some n => some [.wr n v]
  | none => (regFieldOf r).map fun p => pseudoWrField p.1 p.2 v

/-- One statement or pseudo-statement (R97, R98), label names numbered by `label`, a `WAIT` on this line using the label
number `fresh`. -/
def asmStmt (label : List Char → Option Nat) (fresh : Nat) (ts : List Token) : Option (List Stmt) :=
  match ts with
  | [] => some []
  | .word op :: args =>
    match String.ofList op, args with
    | "WR", [.word r, .comma, .word v] => (wordOf v).bind (asmWrite r)
    | "RD", [.word r] => (regOf r).map fun n => [.rd n none]
    | "RD", [.word r, .word arrow, .word v] =>
      if String.ofList arrow = "->" then
        (regOf r).bind fun n => (wordOf v).map fun v => [.rd n (some v)]
      else none
    | "WB", .word sp :: .comma :: .word off :: .comma :: bytes =>
      (spaceOf sp).bind fun sp => (numberOf off).bind fun off =>
        (bytesOfTokens bytes).map fun bs => [.wb sp off bs]
    | "RB", [.word sp, .comma, .word off, .comma, .word n] =>
      (spaceOf sp).bind fun sp => (numberOf off).bind fun off => (numberOf n).map fun n => [.rb sp off n]
    | "CMD", [.word m] => (instrOf m).map fun i => [.cmd i]
    | "BNZ", [.word rf, .comma, .word l] =>
      (regFieldOf rf).bind fun p => (label l).map fun l => [.bnz p.1 p.2 l]
    | "WAIT", [] => some (pseudoWait fresh)
    | "RUN", [.word m] => (instrOf m).map fun i => pseudoRun i fresh
    | "CLR", [] => some pseudoClr
    | _, _ => none
  | .text _ :: _ => none
  | .comma :: _ => none
  | .colon :: _ => none

/-- A line's label, if it has one, and the tokens after it. -/
def splitLabel (ts : List Token) : Option (List Char) × List Token :=
  match ts with
  | .word l :: .colon :: rest => (some l, rest)
  | rest => (none, rest)

/-- One line: its label, then its statement. Label names are numbered by their place in `names`, and the labels of `WAIT`
by the line's number after those. -/
def asmLine (names : List (List Char)) (line : (Option (List Char) × List Token) × Nat) : Option (List Stmt) :=
  let number := fun l => names.findIdx? fun m => decide (m = l)
  (asmStmt number (names.length + line.2) line.1.2).map fun stmts =>
    match line.1.1.bind number with
    | some l => .label l :: stmts
    | none => stmts

/-- The statements of a host script's text (R97, R98); `none` when a line is no statement, a branch names no label, or two
lines carry the same label. -/
def assemble (src : List Char) : Option (List Stmt) := do
  let lines ← (splitLines [] src).mapM (lexLine false [])
  let lines := lines.map splitLabel
  let names := lines.filterMap Prod.fst
  if decide names.Nodup then
    let stmts ← lines.zipIdx.mapM (asmLine names)
    some stmts.flatten
  else none

/-- The transactions of a statement (R97, R98, R99). `c` gives the bus windows (R61, R62, R75), and `old` is the last value
the host has read of the register whose field `WR <reg>.<field>` sets (R98). A label, a branch and the reset input have
none, nor has a bus access that `runStmt` refuses. -/
def stmtTxns (c : Config) (old : Word) : Stmt → List Txn
  | .wr n v => [.regWrite n v]
  | .rd n e => [.regRead n e]
  | .wb sp off bytes => writeTxns sp off bytes
  | .rb sp off n => readTxns sp off n
  | .cmd i => [.regWrite cmdNumber (encodeCmd i)]
  | .label _ => []
  | .bnz _ _ _ => []
  | .wrOld n f v => [.regWrite n (f.set old v)]
  | .busRegWr addr n v => (busRegister c addr n).toList.map fun k => .regWrite k v
  | .busRegRd addr n => (busRegister c addr n).toList.map fun k => .regRead k none
  | .busBufWr sp addr n v =>
    (windowOffset (bufferBase c sp) addr).toList.flatMap fun off => writeTxns sp off (busBytes n v)
  | .busBufRd sp addr n => (windowOffset (bufferBase c sp) addr).toList.flatMap fun off => readTxns sp off n
  | .resetPin _ => []

/-- The encoding of a host script is its transaction list (R99): of each statement once, in order. `old k` is the value the
read before statement k has returned, which only the write of a field uses (R98). -/
def scriptTxns (c : Config) (old : Nat → Word) (script : List Stmt) : List Txn :=
  script.zipIdx.flatMap fun x => stmtTxns c (old x.2) x.1

end Sys2Proof.Machine
end

