-- ==== Sys2Proof/Laws/Assembler.lean ====
section
/-! SUPPORT. The encoding of a host script (R99) and the host agent's steps agree. -/

namespace Sys2Proof.Machine

/-- A statement that is no branch and no change of the reset input, and that is not refused, starts exactly the
transactions R99 gives it: the first is performed now and the others are left pending. A write of a field uses the last
value the host has read of its register (R98). -/
theorem runStmt_performs_stmtTxns {s t : State} {st : Stmt} {old : Word} (hp : s.pending = [])
    (hbnz : ∀ n f l, st ≠ .bnz n f l) (hpin : ∀ level, st ≠ .resetPin level)
    (hold : ∀ n f v, st = .wrOld n f v → s.lastValue n = (old, s)) (h : runStmt st s = .next t) :
    performFirst (stmtTxns s.cfg old st) s = .next t := by
  have hs : ({ s with pending := [] } : State) = s := by rw [← hp]
  cases st with
  | bnz n f l => exact absurd rfl (hbnz n f l)
  | resetPin level => exact absurd rfl (hpin level)
  | wb sp off bytes => exact h
  | rb sp off n => exact h
  | label l => exact h
  | wr n v => rw [stmtTxns, performFirst, hs]; exact h
  | rd n e => rw [stmtTxns, performFirst, hs]; exact h
  | cmd i => rw [stmtTxns, performFirst, hs]; exact h
  | wrOld n f v =>
    rw [stmtTxns, performFirst, hs]
    rw [runStmt, hold n f v rfl] at h
    exact h
  | busRegWr addr n v =>
    rw [runStmt, busRegTxn] at h
    rw [stmtTxns]
    cases hk : busRegister s.cfg addr n with
    | none => rw [hk] at h; cases h
    | some k => rw [hk] at h; exact (congrArg (performTxn _) hs).trans h
  | busRegRd addr n =>
    rw [runStmt, busRegTxn] at h
    rw [stmtTxns]
    cases hk : busRegister s.cfg addr n with
    | none => rw [hk] at h; cases h
    | some k => rw [hk] at h; exact (congrArg (performTxn _) hs).trans h
  | busBufWr sp addr n v =>
    rw [runStmt, busBufTxns] at h
    rw [stmtTxns]
    cases hk : windowOffset (bufferBase s.cfg sp) addr with
    | none => rw [hk] at h; cases h
    | some off => rw [hk] at h; simpa using h
  | busBufRd sp addr n =>
    rw [runStmt, busBufTxns] at h
    rw [stmtTxns]
    cases hk : windowOffset (bufferBase s.cfg sp) addr with
    | none => rw [hk] at h; cases h
    | some off => rw [hk] at h; simpa using h

end Sys2Proof.Machine
end

