-- ==== Sys2Proof/Laws/Codec.lean ====
section
/-! SUPPORT. What the pure codec functions compute, bit by bit (spec/40_primitives.md rules R120 to R123,
spec/41_framer.md rules R140 to R143): lengths, bytes and bits of each result. -/

namespace Sys2Proof.Machine

/-- `lsbValue` of a list fits its length. -/
theorem lsbValue_lt (bits : Bits) : lsbValue bits < 2 ^ bits.length := by
  induction bits with
  | nil => simp [lsbValue]
  | cons b bits ih =>
    simp only [lsbValue, List.length_cons, pow_succ]
    cases b <;> simp <;> omega

/-- Bit p of `lsbValue` is the p-th element. -/
theorem testBit_lsbValue (bits : Bits) : ∀ p, (lsbValue bits).testBit p = bits.getD p false := by
  induction bits with
  | nil => intro p; simp [lsbValue]
  | cons b bits ih =>
    intro p
    have e : lsbValue (b :: bits) = 2 * lsbValue bits + b.toNat := by simp [lsbValue, Nat.add_comm]
    cases p with
    | zero => cases b <;> simp [e, Nat.testBit_zero]
    | succ p =>
      have : (lsbValue (b :: bits)) / 2 = lsbValue bits := by cases b <;> simp [e]; omega
      simp [Nat.testBit_succ, this, ih]

/-- `symbolBit` is its own inverse. -/
theorem symbolBit_symbolBit (i : Nat) : symbolBit (symbolBit i) = i := by unfold symbolBit; omega

/-- `symbolBit` stays below a multiple of 8. -/
theorem symbolBit_lt {i n : Nat} (h : i < 8 * n) : symbolBit i < 8 * n := by unfold symbolBit; omega

@[simp] theorem length_bytesOf (c : Config) (v : Symbol) : (bytesOf c v).length = c.symBytes := by simp [bytesOf]

@[simp] theorem length_bitsOf (c : Config) (v : Symbol) : (bitsOf c v).length = c.w := by simp [bitsOf]

@[simp] theorem length_pack (bits : Bits) : (pack bits).length = ceilDiv bits.length 8 := by simp [pack]

@[simp] theorem length_unpack (bytes : List Byte) (n : Nat) : (unpack bytes n).length = n := by simp [unpack]

@[simp] theorem length_u64le (n : Nat) : (u64le n).length = 8 := by simp [u64le]

@[simp] theorem length_frameBytes (bits : Bits) : (frameBytes bits).length = 8 + ceilDiv bits.length 8 := by
  simp [frameBytes]

/-- Bit j of `packByte bits k` is stream bit 8k + 7 - j (R140). -/
theorem getLsbD_packByte (bits : Bits) (k : Nat) {j : Nat} (hj : j < 8) :
    (packByte bits k).getLsbD j = bits.getD (8 * k + (7 - j)) false := by
  simp only [packByte, BitVec.getLsbD_ofNat, testBit_lsbValue]
  simp [hj, List.getD_eq_getElem?_getD]

/-- Byte k of `pack` (R140). -/
theorem getD_pack (bits : Bits) {k : Nat} (hk : k < ceilDiv bits.length 8) :
    (pack bits).getD k 0 = packByte bits k := by
  simp [pack, List.getD_eq_getElem?_getD, hk]

/-- `symbolOf` keeps the low `W` bits (R31). -/
theorem getLsbD_symbolOf (c : Config) (v : Word) (i : Nat) :
    (symbolOf c v).getLsbD i = (decide (i < c.w) && decide (i < 64) && v.getLsbD i) := by
  simp only [symbolOf, BitVec.getLsbD_setWidth]
  cases h1 : decide (i < 64) <;> cases h2 : decide (i < c.w) <;> simp

/-- The value of a byte sequence fits its length. -/
theorem leBytesValue_lt (bytes : List Byte) : leBytesValue bytes < 256 ^ bytes.length := by
  induction bytes with
  | nil => simp [leBytesValue]
  | cons b bytes ih =>
    have := b.isLt
    simp only [leBytesValue, List.length_cons, pow_succ]
    omega

/-- The little-endian value of the bytes f 0 .. f (n - 1) is the sum of the bytes with their weights (R62, R67). -/
theorem leBytesValue_map_range (n : Nat) : ∀ f : Nat → Byte,
    leBytesValue ((List.range n).map f) = ((List.range n).map fun i => (f i).toNat * 256 ^ i).sum := by
  induction n with
  | zero => intro f; rfl
  | succ n ih =>
    intro f
    rw [List.range_succ_eq_map, List.map_cons, List.map_map, leBytesValue, ih]
    simp only [List.map_cons, List.map_map, List.sum_cons, Function.comp_def, Nat.succ_eq_add_one, pow_succ, pow_zero,
      mul_one, ← mul_assoc, List.sum_map_mul_right]
    omega

/-- Bit 8b + j of a little-endian value is bit j of byte b (R61, R142). -/
theorem testBit_leBytesValue (bytes : List Byte) : ∀ (b : Nat) {j : Nat}, j < 8 →
    (leBytesValue bytes).testBit (8 * b + j) = (bytes.getD b 0).getLsbD j := by
  induction bytes with
  | nil => intro b j _; simp [leBytesValue]
  | cons x bytes ih =>
    intro b j hj
    have hx := x.isLt
    cases b with
    | zero =>
      have : leBytesValue (x :: bytes) = 2 ^ 8 * leBytesValue bytes + x.toNat := by simp [leBytesValue, Nat.add_comm]
      rw [this, Nat.mul_zero, Nat.zero_add, Nat.testBit_two_pow_mul_add _ (by simpa using hx)]
      simp [hj, BitVec.getLsbD]
    | succ b =>
      have : leBytesValue (x :: bytes) = 2 ^ 8 * leBytesValue bytes + x.toNat := by simp [leBytesValue, Nat.add_comm]
      rw [this, Nat.testBit_two_pow_mul_add _ (by simpa using hx), if_neg (by omega)]
      have e : 8 * (b + 1) + j - 8 = 8 * b + j := by omega
      rw [e, ih b hj, List.getD_cons_succ]

/-- `value_of_bytes` succeeds exactly when enough bytes remain (R121). -/
theorem valueOfBytes_ok (c : Config) {bytes : List Byte} {start : Nat} (h : start + c.symBytes ≤ bytes.length) :
    valueOfBytes c bytes start = .ok (BitVec.ofNat 64 (leBytesValue ((bytes.drop start).take c.symBytes))) := by
  simp [valueOfBytes, Nat.not_lt.2 h]

/-- `value_of_bytes` fails with TRUNCATED_INPUT when too few bytes remain (R121). -/
theorem valueOfBytes_error (c : Config) {bytes : List Byte} {start : Nat} (h : bytes.length < start + c.symBytes) :
    valueOfBytes c bytes start = .error .truncatedInput := by
  simp [valueOfBytes, h]

/-- `value_of_bits` succeeds exactly when enough bits remain (R123). -/
theorem valueOfBits_ok (c : Config) {bits : Bits} {start : Nat} (h : start + c.w ≤ bits.length) :
    valueOfBits c bits start = .ok (BitVec.ofNat 64
      (lsbValue ((List.range c.w).map fun p => bits.getD (start + symbolBit p) false))) := by
  simp [valueOfBits, Nat.not_lt.2 h]

/-- `value_of_bits` fails with TRUNCATED_INPUT when too few bits remain (R123). -/
theorem valueOfBits_error (c : Config) {bits : Bits} {start : Nat} (h : bits.length < start + c.w) :
    valueOfBits c bits start = .error .truncatedInput := by
  simp [valueOfBits, h]

/-- Bit p of the symbol `value_of_bits` reads is stream bit start + `symbolBit p` (R123). -/
theorem getLsbD_of_valueOfBits (c : Config) {bits : Bits} {start : Nat} {v : Symbol}
    (h : valueOfBits c bits start = .ok v) {p : Nat} (hp : p < 64) :
    v.getLsbD p = (decide (p < c.w) && bits.getD (start + symbolBit p) false) := by
  unfold valueOfBits at h
  split_ifs at h
  cases h
  simp only [BitVec.getLsbD_ofNat, testBit_lsbValue, hp, decide_true, Bool.true_and, List.getD_eq_getElem?_getD,
    List.getElem?_map]
  by_cases h2 : p < c.w <;> simp [h2]

/-- Bit 8b + j of the symbol `value_of_bytes` reads is bit j of byte start + b (R121). -/
theorem getLsbD_of_valueOfBytes (c : Config) {bytes : List Byte} {start : Nat} {v : Symbol}
    (h : valueOfBytes c bytes start = .ok v) {b j : Nat} (hj : j < 8) (hb : 8 * b + j < 64) :
    v.getLsbD (8 * b + j) = (decide (b < c.symBytes) && (bytes.getD (start + b) 0).getLsbD j) := by
  unfold valueOfBytes at h
  split_ifs at h with hlen
  cases h
  simp only [BitVec.getLsbD_ofNat, testBit_leBytesValue _ b hj, hb, decide_true, Bool.true_and,
    List.getD_eq_getElem?_getD, List.getElem?_take, List.getElem?_drop]
  by_cases h2 : b < c.symBytes <;> simp [h2]

/-- Unpacking what `pack` packed gives the sequence back (R141). -/
theorem unpack_pack (bits : Bits) : unpack (pack bits) bits.length = bits := by
  refine List.ext_getElem (by simp) fun i h1 h2 => ?_
  have hi : i < bits.length := h2
  have hk : i / 8 < ceilDiv bits.length 8 := by unfold ceilDiv; omega
  have e : 8 * (i / 8) + (7 - (7 - i % 8)) = i := by omega
  simp only [unpack, List.getElem_map, List.getElem_range]
  rw [getD_pack bits hk, getLsbD_packByte bits _ (by omega), e]
  simp [List.getD_eq_getElem?_getD, hi]

end Sys2Proof.Machine
end

