-- ==== Sys2Proof/Laws/State.lean ====
section
/-! SUPPORT. The small lemmas of State: one per field per update, each true by rfl, so that no later proof unfolds a
record update. A theorem's name is the update's, then the field's. -/

namespace Sys2Proof.Machine

variable (s : State)

/-! ### Completion's STATUS part (R280). -/

@[simp] theorem State.finish_cfg (e : Option ErrKind) : (s.finish e).cfg = s.cfg := rfl
@[simp] theorem State.finish_acceptTrunc (e : Option ErrKind) : (s.finish e).acceptTrunc = s.acceptTrunc := rfl
@[simp] theorem State.finish_irqEn (e : Option ErrKind) : (s.finish e).irqEn = s.irqEn := rfl
@[simp] theorem State.finish_done (e : Option ErrKind) : (s.finish e).done = true := rfl
@[simp] theorem State.finish_ovr (e : Option ErrKind) : (s.finish e).ovr = s.ovr := rfl
@[simp] theorem State.finish_err (e : Option ErrKind) : (s.finish e).err = e := rfl
@[simp] theorem State.finish_freqValid (e : Option ErrKind) : (s.finish e).freqValid = s.freqValid := rfl
@[simp] theorem State.finish_tableValid (e : Option ErrKind) : (s.finish e).tableValid = s.tableValid := rfl
@[simp] theorem State.finish_treeValid (e : Option ErrKind) : (s.finish e).treeValid = s.treeValid := rfl
@[simp] theorem State.finish_treeEmpty (e : Option ErrKind) : (s.finish e).treeEmpty = s.treeEmpty := rfl
@[simp] theorem State.finish_partialFlag (e : Option ErrKind) : (s.finish e).partialFlag = s.partialFlag := rfl
@[simp] theorem State.finish_lastOp (e : Option ErrKind) : (s.finish e).lastOp = s.lastOp := rfl
@[simp] theorem State.finish_inLen (e : Option ErrKind) : (s.finish e).inLen = s.inLen := rfl
@[simp] theorem State.finish_bitLen (e : Option ErrKind) : (s.finish e).bitLen = s.bitLen := rfl
@[simp] theorem State.finish_outLen (e : Option ErrKind) : (s.finish e).outLen = s.outLen := rfl
@[simp] theorem State.finish_start (e : Option ErrKind) : (s.finish e).start = s.start := rfl
@[simp] theorem State.finish_value (e : Option ErrKind) : (s.finish e).value = s.value := rfl
@[simp] theorem State.finish_expCount (e : Option ErrKind) : (s.finish e).expCount = s.expCount := rfl
@[simp] theorem State.finish_symCount (e : Option ErrKind) : (s.finish e).symCount = s.symCount := rfl
@[simp] theorem State.finish_distinct (e : Option ErrKind) : (s.finish e).distinct = s.distinct := rfl
@[simp] theorem State.finish_treeBits (e : Option ErrKind) : (s.finish e).treeBits = s.treeBits := rfl
@[simp] theorem State.finish_payloadBits (e : Option ErrKind) : (s.finish e).payloadBits = s.payloadBits := rfl
@[simp] theorem State.finish_freq (e : Option ErrKind) : (s.finish e).freq = s.freq := rfl
@[simp] theorem State.finish_codeLen (e : Option ErrKind) : (s.finish e).codeLen = s.codeLen := rfl
@[simp] theorem State.finish_codeW (e : Option ErrKind) : (s.finish e).codeW = s.codeW := rfl
@[simp] theorem State.finish_phase (e : Option ErrKind) : (s.finish e).phase = .idle := rfl
@[simp] theorem State.finish_inBuf (e : Option ErrKind) : (s.finish e).inBuf = s.inBuf := rfl
@[simp] theorem State.finish_bitsBuf (e : Option ErrKind) : (s.finish e).bitsBuf = s.bitsBuf := rfl
@[simp] theorem State.finish_outBuf (e : Option ErrKind) : (s.finish e).outBuf = s.outBuf := rfl
@[simp] theorem State.finish_freqTable (e : Option ErrKind) : (s.finish e).freqTable = s.freqTable := rfl
@[simp] theorem State.finish_tree (e : Option ErrKind) : (s.finish e).tree = s.tree := rfl
@[simp] theorem State.finish_codeTable (e : Option ErrKind) : (s.finish e).codeTable = s.codeTable := rfl
@[simp] theorem State.finish_inReset (e : Option ErrKind) : (s.finish e).inReset = s.inReset := rfl
@[simp] theorem State.finish_script (e : Option ErrKind) : (s.finish e).script = s.script := rfl
@[simp] theorem State.finish_scriptPos (e : Option ErrKind) : (s.finish e).scriptPos = s.scriptPos := rfl
@[simp] theorem State.finish_pending (e : Option ErrKind) : (s.finish e).pending = s.pending := rfl
@[simp] theorem State.finish_seen (e : Option ErrKind) : (s.finish e).seen = s.seen := rfl
@[simp] theorem State.finish_latencies (e : Option ErrKind) : (s.finish e).latencies = s.latencies := rfl
@[simp] theorem State.finish_draws (e : Option ErrKind) : (s.finish e).draws = s.draws := rfl

/-! ### Acceptance (R280). -/

@[simp] theorem State.acceptWith_cfg (w : Word) (n : Nat) : (s.acceptWith w n).cfg = s.cfg := rfl
@[simp] theorem State.acceptWith_acceptTrunc (w : Word) (n : Nat) : (s.acceptWith w n).acceptTrunc = s.acceptTrunc := rfl
@[simp] theorem State.acceptWith_irqEn (w : Word) (n : Nat) : (s.acceptWith w n).irqEn = s.irqEn := rfl
@[simp] theorem State.acceptWith_done (w : Word) (n : Nat) : (s.acceptWith w n).done = false := rfl
@[simp] theorem State.acceptWith_ovr (w : Word) (n : Nat) : (s.acceptWith w n).ovr = s.ovr := rfl
@[simp] theorem State.acceptWith_err (w : Word) (n : Nat) : (s.acceptWith w n).err = none := rfl
@[simp] theorem State.acceptWith_freqValid (w : Word) (n : Nat) : (s.acceptWith w n).freqValid = s.freqValid := rfl
@[simp] theorem State.acceptWith_tableValid (w : Word) (n : Nat) : (s.acceptWith w n).tableValid = s.tableValid := rfl
@[simp] theorem State.acceptWith_treeValid (w : Word) (n : Nat) : (s.acceptWith w n).treeValid = s.treeValid := rfl
@[simp] theorem State.acceptWith_treeEmpty (w : Word) (n : Nat) : (s.acceptWith w n).treeEmpty = s.treeEmpty := rfl
@[simp] theorem State.acceptWith_partialFlag (w : Word) (n : Nat) : (s.acceptWith w n).partialFlag = false := rfl
@[simp] theorem State.acceptWith_lastOp (w : Word) (n : Nat) : (s.acceptWith w n).lastOp = opcodeField w := rfl
@[simp] theorem State.acceptWith_inLen (w : Word) (n : Nat) : (s.acceptWith w n).inLen = s.inLen := rfl
@[simp] theorem State.acceptWith_bitLen (w : Word) (n : Nat) : (s.acceptWith w n).bitLen = s.bitLen := rfl
@[simp] theorem State.acceptWith_outLen (w : Word) (n : Nat) : (s.acceptWith w n).outLen = s.outLen := rfl
@[simp] theorem State.acceptWith_start (w : Word) (n : Nat) : (s.acceptWith w n).start = s.start := rfl
@[simp] theorem State.acceptWith_value (w : Word) (n : Nat) : (s.acceptWith w n).value = s.value := rfl
@[simp] theorem State.acceptWith_expCount (w : Word) (n : Nat) : (s.acceptWith w n).expCount = s.expCount := rfl
@[simp] theorem State.acceptWith_symCount (w : Word) (n : Nat) : (s.acceptWith w n).symCount = s.symCount := rfl
@[simp] theorem State.acceptWith_distinct (w : Word) (n : Nat) : (s.acceptWith w n).distinct = s.distinct := rfl
@[simp] theorem State.acceptWith_treeBits (w : Word) (n : Nat) : (s.acceptWith w n).treeBits = s.treeBits := rfl
@[simp] theorem State.acceptWith_payloadBits (w : Word) (n : Nat) : (s.acceptWith w n).payloadBits = s.payloadBits := rfl
@[simp] theorem State.acceptWith_freq (w : Word) (n : Nat) : (s.acceptWith w n).freq = s.freq := rfl
@[simp] theorem State.acceptWith_codeLen (w : Word) (n : Nat) : (s.acceptWith w n).codeLen = s.codeLen := rfl
@[simp] theorem State.acceptWith_codeW (w : Word) (n : Nat) : (s.acceptWith w n).codeW = s.codeW := rfl
@[simp] theorem State.acceptWith_phase (w : Word) (n : Nat) : (s.acceptWith w n).phase = .exec (decodeCmd w) n := rfl
@[simp] theorem State.acceptWith_inBuf (w : Word) (n : Nat) : (s.acceptWith w n).inBuf = s.inBuf := rfl
@[simp] theorem State.acceptWith_bitsBuf (w : Word) (n : Nat) : (s.acceptWith w n).bitsBuf = s.bitsBuf := rfl
@[simp] theorem State.acceptWith_outBuf (w : Word) (n : Nat) : (s.acceptWith w n).outBuf = s.outBuf := rfl
@[simp] theorem State.acceptWith_freqTable (w : Word) (n : Nat) : (s.acceptWith w n).freqTable = s.freqTable := rfl
@[simp] theorem State.acceptWith_tree (w : Word) (n : Nat) : (s.acceptWith w n).tree = s.tree := rfl
@[simp] theorem State.acceptWith_codeTable (w : Word) (n : Nat) : (s.acceptWith w n).codeTable = s.codeTable := rfl
@[simp] theorem State.acceptWith_inReset (w : Word) (n : Nat) : (s.acceptWith w n).inReset = s.inReset := rfl
@[simp] theorem State.acceptWith_script (w : Word) (n : Nat) : (s.acceptWith w n).script = s.script := rfl
@[simp] theorem State.acceptWith_scriptPos (w : Word) (n : Nat) : (s.acceptWith w n).scriptPos = s.scriptPos := rfl
@[simp] theorem State.acceptWith_pending (w : Word) (n : Nat) : (s.acceptWith w n).pending = s.pending := rfl
@[simp] theorem State.acceptWith_seen (w : Word) (n : Nat) : (s.acceptWith w n).seen = s.seen := rfl
@[simp] theorem State.acceptWith_latencies (w : Word) (n : Nat) : (s.acceptWith w n).latencies = s.latencies := rfl
@[simp] theorem State.acceptWith_draws (w : Word) (n : Nat) : (s.acceptWith w n).draws = s.draws := rfl

/-! ### A write to CTRL (R24). -/

@[simp] theorem State.writeCtrl_cfg (v : Word) : (s.writeCtrl v).cfg = s.cfg := rfl
@[simp] theorem State.writeCtrl_acceptTrunc (v : Word) : (s.writeCtrl v).acceptTrunc = v.getLsbD 0 := rfl
@[simp] theorem State.writeCtrl_irqEn (v : Word) : (s.writeCtrl v).irqEn = v.getLsbD 1 := rfl
@[simp] theorem State.writeCtrl_done (v : Word) : (s.writeCtrl v).done = s.done := rfl
@[simp] theorem State.writeCtrl_ovr (v : Word) : (s.writeCtrl v).ovr = s.ovr := rfl
@[simp] theorem State.writeCtrl_err (v : Word) : (s.writeCtrl v).err = s.err := rfl
@[simp] theorem State.writeCtrl_freqValid (v : Word) : (s.writeCtrl v).freqValid = s.freqValid := rfl
@[simp] theorem State.writeCtrl_tableValid (v : Word) : (s.writeCtrl v).tableValid = s.tableValid := rfl
@[simp] theorem State.writeCtrl_treeValid (v : Word) : (s.writeCtrl v).treeValid = s.treeValid := rfl
@[simp] theorem State.writeCtrl_treeEmpty (v : Word) : (s.writeCtrl v).treeEmpty = s.treeEmpty := rfl
@[simp] theorem State.writeCtrl_partialFlag (v : Word) : (s.writeCtrl v).partialFlag = s.partialFlag := rfl
@[simp] theorem State.writeCtrl_lastOp (v : Word) : (s.writeCtrl v).lastOp = s.lastOp := rfl
@[simp] theorem State.writeCtrl_inLen (v : Word) : (s.writeCtrl v).inLen = s.inLen := rfl
@[simp] theorem State.writeCtrl_bitLen (v : Word) : (s.writeCtrl v).bitLen = s.bitLen := rfl
@[simp] theorem State.writeCtrl_outLen (v : Word) : (s.writeCtrl v).outLen = s.outLen := rfl
@[simp] theorem State.writeCtrl_start (v : Word) : (s.writeCtrl v).start = s.start := rfl
@[simp] theorem State.writeCtrl_value (v : Word) : (s.writeCtrl v).value = s.value := rfl
@[simp] theorem State.writeCtrl_expCount (v : Word) : (s.writeCtrl v).expCount = s.expCount := rfl
@[simp] theorem State.writeCtrl_symCount (v : Word) : (s.writeCtrl v).symCount = s.symCount := rfl
@[simp] theorem State.writeCtrl_distinct (v : Word) : (s.writeCtrl v).distinct = s.distinct := rfl
@[simp] theorem State.writeCtrl_treeBits (v : Word) : (s.writeCtrl v).treeBits = s.treeBits := rfl
@[simp] theorem State.writeCtrl_payloadBits (v : Word) : (s.writeCtrl v).payloadBits = s.payloadBits := rfl
@[simp] theorem State.writeCtrl_freq (v : Word) : (s.writeCtrl v).freq = s.freq := rfl
@[simp] theorem State.writeCtrl_codeLen (v : Word) : (s.writeCtrl v).codeLen = s.codeLen := rfl
@[simp] theorem State.writeCtrl_codeW (v : Word) : (s.writeCtrl v).codeW = s.codeW := rfl
@[simp] theorem State.writeCtrl_phase (v : Word) : (s.writeCtrl v).phase = s.phase := rfl
@[simp] theorem State.writeCtrl_inBuf (v : Word) : (s.writeCtrl v).inBuf = s.inBuf := rfl
@[simp] theorem State.writeCtrl_bitsBuf (v : Word) : (s.writeCtrl v).bitsBuf = s.bitsBuf := rfl
@[simp] theorem State.writeCtrl_outBuf (v : Word) : (s.writeCtrl v).outBuf = s.outBuf := rfl
@[simp] theorem State.writeCtrl_freqTable (v : Word) : (s.writeCtrl v).freqTable = s.freqTable := rfl
@[simp] theorem State.writeCtrl_tree (v : Word) : (s.writeCtrl v).tree = s.tree := rfl
@[simp] theorem State.writeCtrl_codeTable (v : Word) : (s.writeCtrl v).codeTable = s.codeTable := rfl
@[simp] theorem State.writeCtrl_inReset (v : Word) : (s.writeCtrl v).inReset = s.inReset := rfl
@[simp] theorem State.writeCtrl_script (v : Word) : (s.writeCtrl v).script = s.script := rfl
@[simp] theorem State.writeCtrl_scriptPos (v : Word) : (s.writeCtrl v).scriptPos = s.scriptPos := rfl
@[simp] theorem State.writeCtrl_pending (v : Word) : (s.writeCtrl v).pending = s.pending := rfl
@[simp] theorem State.writeCtrl_seen (v : Word) : (s.writeCtrl v).seen = s.seen := rfl
@[simp] theorem State.writeCtrl_latencies (v : Word) : (s.writeCtrl v).latencies = s.latencies := rfl
@[simp] theorem State.writeCtrl_draws (v : Word) : (s.writeCtrl v).draws = s.draws := rfl

/-! ### A write to STATUS (R26). -/

@[simp] theorem State.writeStatus_cfg (v : Word) : (s.writeStatus v).cfg = s.cfg := rfl
@[simp] theorem State.writeStatus_acceptTrunc (v : Word) : (s.writeStatus v).acceptTrunc = s.acceptTrunc := rfl
@[simp] theorem State.writeStatus_irqEn (v : Word) : (s.writeStatus v).irqEn = s.irqEn := rfl
@[simp] theorem State.writeStatus_done (v : Word) : (s.writeStatus v).done = (s.done && !v.getLsbD 1) := rfl
@[simp] theorem State.writeStatus_ovr (v : Word) : (s.writeStatus v).ovr = (s.ovr && !v.getLsbD 2) := rfl
@[simp] theorem State.writeStatus_err (v : Word) : (s.writeStatus v).err = s.err := rfl
@[simp] theorem State.writeStatus_freqValid (v : Word) : (s.writeStatus v).freqValid = s.freqValid := rfl
@[simp] theorem State.writeStatus_tableValid (v : Word) : (s.writeStatus v).tableValid = s.tableValid := rfl
@[simp] theorem State.writeStatus_treeValid (v : Word) : (s.writeStatus v).treeValid = s.treeValid := rfl
@[simp] theorem State.writeStatus_treeEmpty (v : Word) : (s.writeStatus v).treeEmpty = s.treeEmpty := rfl
@[simp] theorem State.writeStatus_partialFlag (v : Word) : (s.writeStatus v).partialFlag = s.partialFlag := rfl
@[simp] theorem State.writeStatus_lastOp (v : Word) : (s.writeStatus v).lastOp = s.lastOp := rfl
@[simp] theorem State.writeStatus_inLen (v : Word) : (s.writeStatus v).inLen = s.inLen := rfl
@[simp] theorem State.writeStatus_bitLen (v : Word) : (s.writeStatus v).bitLen = s.bitLen := rfl
@[simp] theorem State.writeStatus_outLen (v : Word) : (s.writeStatus v).outLen = s.outLen := rfl
@[simp] theorem State.writeStatus_start (v : Word) : (s.writeStatus v).start = s.start := rfl
@[simp] theorem State.writeStatus_value (v : Word) : (s.writeStatus v).value = s.value := rfl
@[simp] theorem State.writeStatus_expCount (v : Word) : (s.writeStatus v).expCount = s.expCount := rfl
@[simp] theorem State.writeStatus_symCount (v : Word) : (s.writeStatus v).symCount = s.symCount := rfl
@[simp] theorem State.writeStatus_distinct (v : Word) : (s.writeStatus v).distinct = s.distinct := rfl
@[simp] theorem State.writeStatus_treeBits (v : Word) : (s.writeStatus v).treeBits = s.treeBits := rfl
@[simp] theorem State.writeStatus_payloadBits (v : Word) : (s.writeStatus v).payloadBits = s.payloadBits := rfl
@[simp] theorem State.writeStatus_freq (v : Word) : (s.writeStatus v).freq = s.freq := rfl
@[simp] theorem State.writeStatus_codeLen (v : Word) : (s.writeStatus v).codeLen = s.codeLen := rfl
@[simp] theorem State.writeStatus_codeW (v : Word) : (s.writeStatus v).codeW = s.codeW := rfl
@[simp] theorem State.writeStatus_phase (v : Word) : (s.writeStatus v).phase = s.phase := rfl
@[simp] theorem State.writeStatus_inBuf (v : Word) : (s.writeStatus v).inBuf = s.inBuf := rfl
@[simp] theorem State.writeStatus_bitsBuf (v : Word) : (s.writeStatus v).bitsBuf = s.bitsBuf := rfl
@[simp] theorem State.writeStatus_outBuf (v : Word) : (s.writeStatus v).outBuf = s.outBuf := rfl
@[simp] theorem State.writeStatus_freqTable (v : Word) : (s.writeStatus v).freqTable = s.freqTable := rfl
@[simp] theorem State.writeStatus_tree (v : Word) : (s.writeStatus v).tree = s.tree := rfl
@[simp] theorem State.writeStatus_codeTable (v : Word) : (s.writeStatus v).codeTable = s.codeTable := rfl
@[simp] theorem State.writeStatus_inReset (v : Word) : (s.writeStatus v).inReset = s.inReset := rfl
@[simp] theorem State.writeStatus_script (v : Word) : (s.writeStatus v).script = s.script := rfl
@[simp] theorem State.writeStatus_scriptPos (v : Word) : (s.writeStatus v).scriptPos = s.scriptPos := rfl
@[simp] theorem State.writeStatus_pending (v : Word) : (s.writeStatus v).pending = s.pending := rfl
@[simp] theorem State.writeStatus_seen (v : Word) : (s.writeStatus v).seen = s.seen := rfl
@[simp] theorem State.writeStatus_latencies (v : Word) : (s.writeStatus v).latencies = s.latencies := rfl
@[simp] theorem State.writeStatus_draws (v : Word) : (s.writeStatus v).draws = s.draws := rfl

/-! ### The flags after BUILD and ENCODE (R176, R250). -/

@[simp] theorem State.tablesBuilt_cfg (b : Bool) : (s.tablesBuilt b).cfg = s.cfg := rfl
@[simp] theorem State.tablesBuilt_acceptTrunc (b : Bool) : (s.tablesBuilt b).acceptTrunc = s.acceptTrunc := rfl
@[simp] theorem State.tablesBuilt_irqEn (b : Bool) : (s.tablesBuilt b).irqEn = s.irqEn := rfl
@[simp] theorem State.tablesBuilt_done (b : Bool) : (s.tablesBuilt b).done = s.done := rfl
@[simp] theorem State.tablesBuilt_ovr (b : Bool) : (s.tablesBuilt b).ovr = s.ovr := rfl
@[simp] theorem State.tablesBuilt_err (b : Bool) : (s.tablesBuilt b).err = s.err := rfl
@[simp] theorem State.tablesBuilt_freqValid (b : Bool) : (s.tablesBuilt b).freqValid = true := rfl
@[simp] theorem State.tablesBuilt_tableValid (b : Bool) : (s.tablesBuilt b).tableValid = true := rfl
@[simp] theorem State.tablesBuilt_treeValid (b : Bool) : (s.tablesBuilt b).treeValid = true := rfl
@[simp] theorem State.tablesBuilt_treeEmpty (b : Bool) : (s.tablesBuilt b).treeEmpty = b := rfl
@[simp] theorem State.tablesBuilt_partialFlag (b : Bool) : (s.tablesBuilt b).partialFlag = s.partialFlag := rfl
@[simp] theorem State.tablesBuilt_lastOp (b : Bool) : (s.tablesBuilt b).lastOp = s.lastOp := rfl
@[simp] theorem State.tablesBuilt_inLen (b : Bool) : (s.tablesBuilt b).inLen = s.inLen := rfl
@[simp] theorem State.tablesBuilt_bitLen (b : Bool) : (s.tablesBuilt b).bitLen = s.bitLen := rfl
@[simp] theorem State.tablesBuilt_outLen (b : Bool) : (s.tablesBuilt b).outLen = s.outLen := rfl
@[simp] theorem State.tablesBuilt_start (b : Bool) : (s.tablesBuilt b).start = s.start := rfl
@[simp] theorem State.tablesBuilt_value (b : Bool) : (s.tablesBuilt b).value = s.value := rfl
@[simp] theorem State.tablesBuilt_expCount (b : Bool) : (s.tablesBuilt b).expCount = s.expCount := rfl
@[simp] theorem State.tablesBuilt_symCount (b : Bool) : (s.tablesBuilt b).symCount = s.symCount := rfl
@[simp] theorem State.tablesBuilt_distinct (b : Bool) : (s.tablesBuilt b).distinct = s.distinct := rfl
@[simp] theorem State.tablesBuilt_treeBits (b : Bool) : (s.tablesBuilt b).treeBits = s.treeBits := rfl
@[simp] theorem State.tablesBuilt_payloadBits (b : Bool) : (s.tablesBuilt b).payloadBits = s.payloadBits := rfl
@[simp] theorem State.tablesBuilt_freq (b : Bool) : (s.tablesBuilt b).freq = s.freq := rfl
@[simp] theorem State.tablesBuilt_codeLen (b : Bool) : (s.tablesBuilt b).codeLen = s.codeLen := rfl
@[simp] theorem State.tablesBuilt_codeW (b : Bool) : (s.tablesBuilt b).codeW = s.codeW := rfl
@[simp] theorem State.tablesBuilt_phase (b : Bool) : (s.tablesBuilt b).phase = s.phase := rfl
@[simp] theorem State.tablesBuilt_inBuf (b : Bool) : (s.tablesBuilt b).inBuf = s.inBuf := rfl
@[simp] theorem State.tablesBuilt_bitsBuf (b : Bool) : (s.tablesBuilt b).bitsBuf = s.bitsBuf := rfl
@[simp] theorem State.tablesBuilt_outBuf (b : Bool) : (s.tablesBuilt b).outBuf = s.outBuf := rfl
@[simp] theorem State.tablesBuilt_freqTable (b : Bool) : (s.tablesBuilt b).freqTable = s.freqTable := rfl
@[simp] theorem State.tablesBuilt_tree (b : Bool) : (s.tablesBuilt b).tree = s.tree := rfl
@[simp] theorem State.tablesBuilt_codeTable (b : Bool) : (s.tablesBuilt b).codeTable = s.codeTable := rfl
@[simp] theorem State.tablesBuilt_inReset (b : Bool) : (s.tablesBuilt b).inReset = s.inReset := rfl
@[simp] theorem State.tablesBuilt_script (b : Bool) : (s.tablesBuilt b).script = s.script := rfl
@[simp] theorem State.tablesBuilt_scriptPos (b : Bool) : (s.tablesBuilt b).scriptPos = s.scriptPos := rfl
@[simp] theorem State.tablesBuilt_pending (b : Bool) : (s.tablesBuilt b).pending = s.pending := rfl
@[simp] theorem State.tablesBuilt_seen (b : Bool) : (s.tablesBuilt b).seen = s.seen := rfl
@[simp] theorem State.tablesBuilt_latencies (b : Bool) : (s.tablesBuilt b).latencies = s.latencies := rfl
@[simp] theorem State.tablesBuilt_draws (b : Bool) : (s.tablesBuilt b).draws = s.draws := rfl

/-! ### The flags after DESERIALIZE and DECODE (R206, R251). -/

@[simp] theorem State.treeRebuilt_cfg (b : Bool) : (s.treeRebuilt b).cfg = s.cfg := rfl
@[simp] theorem State.treeRebuilt_acceptTrunc (b : Bool) : (s.treeRebuilt b).acceptTrunc = s.acceptTrunc := rfl
@[simp] theorem State.treeRebuilt_irqEn (b : Bool) : (s.treeRebuilt b).irqEn = s.irqEn := rfl
@[simp] theorem State.treeRebuilt_done (b : Bool) : (s.treeRebuilt b).done = s.done := rfl
@[simp] theorem State.treeRebuilt_ovr (b : Bool) : (s.treeRebuilt b).ovr = s.ovr := rfl
@[simp] theorem State.treeRebuilt_err (b : Bool) : (s.treeRebuilt b).err = s.err := rfl
@[simp] theorem State.treeRebuilt_freqValid (b : Bool) : (s.treeRebuilt b).freqValid = false := rfl
@[simp] theorem State.treeRebuilt_tableValid (b : Bool) : (s.treeRebuilt b).tableValid = false := rfl
@[simp] theorem State.treeRebuilt_treeValid (b : Bool) : (s.treeRebuilt b).treeValid = true := rfl
@[simp] theorem State.treeRebuilt_treeEmpty (b : Bool) : (s.treeRebuilt b).treeEmpty = b := rfl
@[simp] theorem State.treeRebuilt_partialFlag (b : Bool) : (s.treeRebuilt b).partialFlag = s.partialFlag := rfl
@[simp] theorem State.treeRebuilt_lastOp (b : Bool) : (s.treeRebuilt b).lastOp = s.lastOp := rfl
@[simp] theorem State.treeRebuilt_inLen (b : Bool) : (s.treeRebuilt b).inLen = s.inLen := rfl
@[simp] theorem State.treeRebuilt_bitLen (b : Bool) : (s.treeRebuilt b).bitLen = s.bitLen := rfl
@[simp] theorem State.treeRebuilt_outLen (b : Bool) : (s.treeRebuilt b).outLen = s.outLen := rfl
@[simp] theorem State.treeRebuilt_start (b : Bool) : (s.treeRebuilt b).start = s.start := rfl
@[simp] theorem State.treeRebuilt_value (b : Bool) : (s.treeRebuilt b).value = s.value := rfl
@[simp] theorem State.treeRebuilt_expCount (b : Bool) : (s.treeRebuilt b).expCount = s.expCount := rfl
@[simp] theorem State.treeRebuilt_symCount (b : Bool) : (s.treeRebuilt b).symCount = s.symCount := rfl
@[simp] theorem State.treeRebuilt_distinct (b : Bool) : (s.treeRebuilt b).distinct = s.distinct := rfl
@[simp] theorem State.treeRebuilt_treeBits (b : Bool) : (s.treeRebuilt b).treeBits = s.treeBits := rfl
@[simp] theorem State.treeRebuilt_payloadBits (b : Bool) : (s.treeRebuilt b).payloadBits = s.payloadBits := rfl
@[simp] theorem State.treeRebuilt_freq (b : Bool) : (s.treeRebuilt b).freq = s.freq := rfl
@[simp] theorem State.treeRebuilt_codeLen (b : Bool) : (s.treeRebuilt b).codeLen = s.codeLen := rfl
@[simp] theorem State.treeRebuilt_codeW (b : Bool) : (s.treeRebuilt b).codeW = s.codeW := rfl
@[simp] theorem State.treeRebuilt_phase (b : Bool) : (s.treeRebuilt b).phase = s.phase := rfl
@[simp] theorem State.treeRebuilt_inBuf (b : Bool) : (s.treeRebuilt b).inBuf = s.inBuf := rfl
@[simp] theorem State.treeRebuilt_bitsBuf (b : Bool) : (s.treeRebuilt b).bitsBuf = s.bitsBuf := rfl
@[simp] theorem State.treeRebuilt_outBuf (b : Bool) : (s.treeRebuilt b).outBuf = s.outBuf := rfl
@[simp] theorem State.treeRebuilt_freqTable (b : Bool) : (s.treeRebuilt b).freqTable = s.freqTable := rfl
@[simp] theorem State.treeRebuilt_tree (b : Bool) : (s.treeRebuilt b).tree = s.tree := rfl
@[simp] theorem State.treeRebuilt_codeTable (b : Bool) : (s.treeRebuilt b).codeTable = s.codeTable := rfl
@[simp] theorem State.treeRebuilt_inReset (b : Bool) : (s.treeRebuilt b).inReset = s.inReset := rfl
@[simp] theorem State.treeRebuilt_script (b : Bool) : (s.treeRebuilt b).script = s.script := rfl
@[simp] theorem State.treeRebuilt_scriptPos (b : Bool) : (s.treeRebuilt b).scriptPos = s.scriptPos := rfl
@[simp] theorem State.treeRebuilt_pending (b : Bool) : (s.treeRebuilt b).pending = s.pending := rfl
@[simp] theorem State.treeRebuilt_seen (b : Bool) : (s.treeRebuilt b).seen = s.seen := rfl
@[simp] theorem State.treeRebuilt_latencies (b : Bool) : (s.treeRebuilt b).latencies = s.latencies := rfl
@[simp] theorem State.treeRebuilt_draws (b : Bool) : (s.treeRebuilt b).draws = s.draws := rfl

/-! ### The flags after a failure (R281). -/

@[simp] theorem State.tablesInvalid_cfg : (s.tablesInvalid).cfg = s.cfg := rfl
@[simp] theorem State.tablesInvalid_acceptTrunc : (s.tablesInvalid).acceptTrunc = s.acceptTrunc := rfl
@[simp] theorem State.tablesInvalid_irqEn : (s.tablesInvalid).irqEn = s.irqEn := rfl
@[simp] theorem State.tablesInvalid_done : (s.tablesInvalid).done = s.done := rfl
@[simp] theorem State.tablesInvalid_ovr : (s.tablesInvalid).ovr = s.ovr := rfl
@[simp] theorem State.tablesInvalid_err : (s.tablesInvalid).err = s.err := rfl
@[simp] theorem State.tablesInvalid_freqValid : (s.tablesInvalid).freqValid = false := rfl
@[simp] theorem State.tablesInvalid_tableValid : (s.tablesInvalid).tableValid = false := rfl
@[simp] theorem State.tablesInvalid_treeValid : (s.tablesInvalid).treeValid = false := rfl
@[simp] theorem State.tablesInvalid_treeEmpty : (s.tablesInvalid).treeEmpty = false := rfl
@[simp] theorem State.tablesInvalid_partialFlag : (s.tablesInvalid).partialFlag = s.partialFlag := rfl
@[simp] theorem State.tablesInvalid_lastOp : (s.tablesInvalid).lastOp = s.lastOp := rfl
@[simp] theorem State.tablesInvalid_inLen : (s.tablesInvalid).inLen = s.inLen := rfl
@[simp] theorem State.tablesInvalid_bitLen : (s.tablesInvalid).bitLen = s.bitLen := rfl
@[simp] theorem State.tablesInvalid_outLen : (s.tablesInvalid).outLen = s.outLen := rfl
@[simp] theorem State.tablesInvalid_start : (s.tablesInvalid).start = s.start := rfl
@[simp] theorem State.tablesInvalid_value : (s.tablesInvalid).value = s.value := rfl
@[simp] theorem State.tablesInvalid_expCount : (s.tablesInvalid).expCount = s.expCount := rfl
@[simp] theorem State.tablesInvalid_symCount : (s.tablesInvalid).symCount = s.symCount := rfl
@[simp] theorem State.tablesInvalid_distinct : (s.tablesInvalid).distinct = s.distinct := rfl
@[simp] theorem State.tablesInvalid_treeBits : (s.tablesInvalid).treeBits = s.treeBits := rfl
@[simp] theorem State.tablesInvalid_payloadBits : (s.tablesInvalid).payloadBits = s.payloadBits := rfl
@[simp] theorem State.tablesInvalid_freq : (s.tablesInvalid).freq = s.freq := rfl
@[simp] theorem State.tablesInvalid_codeLen : (s.tablesInvalid).codeLen = s.codeLen := rfl
@[simp] theorem State.tablesInvalid_codeW : (s.tablesInvalid).codeW = s.codeW := rfl
@[simp] theorem State.tablesInvalid_phase : (s.tablesInvalid).phase = s.phase := rfl
@[simp] theorem State.tablesInvalid_inBuf : (s.tablesInvalid).inBuf = s.inBuf := rfl
@[simp] theorem State.tablesInvalid_bitsBuf : (s.tablesInvalid).bitsBuf = s.bitsBuf := rfl
@[simp] theorem State.tablesInvalid_outBuf : (s.tablesInvalid).outBuf = s.outBuf := rfl
@[simp] theorem State.tablesInvalid_freqTable : (s.tablesInvalid).freqTable = s.freqTable := rfl
@[simp] theorem State.tablesInvalid_tree : (s.tablesInvalid).tree = s.tree := rfl
@[simp] theorem State.tablesInvalid_codeTable : (s.tablesInvalid).codeTable = s.codeTable := rfl
@[simp] theorem State.tablesInvalid_inReset : (s.tablesInvalid).inReset = s.inReset := rfl
@[simp] theorem State.tablesInvalid_script : (s.tablesInvalid).script = s.script := rfl
@[simp] theorem State.tablesInvalid_scriptPos : (s.tablesInvalid).scriptPos = s.scriptPos := rfl
@[simp] theorem State.tablesInvalid_pending : (s.tablesInvalid).pending = s.pending := rfl
@[simp] theorem State.tablesInvalid_seen : (s.tablesInvalid).seen = s.seen := rfl
@[simp] theorem State.tablesInvalid_latencies : (s.tablesInvalid).latencies = s.latencies := rfl
@[simp] theorem State.tablesInvalid_draws : (s.tablesInvalid).draws = s.draws := rfl

/-! ### The engine writes BITS (R64). -/

@[simp] theorem State.putBits_cfg (bits : Bits) : (s.putBits bits).cfg = s.cfg := rfl
@[simp] theorem State.putBits_acceptTrunc (bits : Bits) : (s.putBits bits).acceptTrunc = s.acceptTrunc := rfl
@[simp] theorem State.putBits_irqEn (bits : Bits) : (s.putBits bits).irqEn = s.irqEn := rfl
@[simp] theorem State.putBits_done (bits : Bits) : (s.putBits bits).done = s.done := rfl
@[simp] theorem State.putBits_ovr (bits : Bits) : (s.putBits bits).ovr = s.ovr := rfl
@[simp] theorem State.putBits_err (bits : Bits) : (s.putBits bits).err = s.err := rfl
@[simp] theorem State.putBits_freqValid (bits : Bits) : (s.putBits bits).freqValid = s.freqValid := rfl
@[simp] theorem State.putBits_tableValid (bits : Bits) : (s.putBits bits).tableValid = s.tableValid := rfl
@[simp] theorem State.putBits_treeValid (bits : Bits) : (s.putBits bits).treeValid = s.treeValid := rfl
@[simp] theorem State.putBits_treeEmpty (bits : Bits) : (s.putBits bits).treeEmpty = s.treeEmpty := rfl
@[simp] theorem State.putBits_partialFlag (bits : Bits) : (s.putBits bits).partialFlag = s.partialFlag := rfl
@[simp] theorem State.putBits_lastOp (bits : Bits) : (s.putBits bits).lastOp = s.lastOp := rfl
@[simp] theorem State.putBits_inLen (bits : Bits) : (s.putBits bits).inLen = s.inLen := rfl
@[simp] theorem State.putBits_bitLen (bits : Bits) : (s.putBits bits).bitLen = s.bitLen := rfl
@[simp] theorem State.putBits_outLen (bits : Bits) : (s.putBits bits).outLen = s.outLen := rfl
@[simp] theorem State.putBits_start (bits : Bits) : (s.putBits bits).start = s.start := rfl
@[simp] theorem State.putBits_value (bits : Bits) : (s.putBits bits).value = s.value := rfl
@[simp] theorem State.putBits_expCount (bits : Bits) : (s.putBits bits).expCount = s.expCount := rfl
@[simp] theorem State.putBits_symCount (bits : Bits) : (s.putBits bits).symCount = s.symCount := rfl
@[simp] theorem State.putBits_distinct (bits : Bits) : (s.putBits bits).distinct = s.distinct := rfl
@[simp] theorem State.putBits_treeBits (bits : Bits) : (s.putBits bits).treeBits = s.treeBits := rfl
@[simp] theorem State.putBits_payloadBits (bits : Bits) : (s.putBits bits).payloadBits = s.payloadBits := rfl
@[simp] theorem State.putBits_freq (bits : Bits) : (s.putBits bits).freq = s.freq := rfl
@[simp] theorem State.putBits_codeLen (bits : Bits) : (s.putBits bits).codeLen = s.codeLen := rfl
@[simp] theorem State.putBits_codeW (bits : Bits) : (s.putBits bits).codeW = s.codeW := rfl
@[simp] theorem State.putBits_phase (bits : Bits) : (s.putBits bits).phase = s.phase := rfl
@[simp] theorem State.putBits_inBuf (bits : Bits) : (s.putBits bits).inBuf = s.inBuf := rfl
@[simp] theorem State.putBits_bitsBuf (bits : Bits) : (s.putBits bits).bitsBuf = s.bitsBuf.writeBytes 0 (pack bits) := rfl
@[simp] theorem State.putBits_outBuf (bits : Bits) : (s.putBits bits).outBuf = s.outBuf := rfl
@[simp] theorem State.putBits_freqTable (bits : Bits) : (s.putBits bits).freqTable = s.freqTable := rfl
@[simp] theorem State.putBits_tree (bits : Bits) : (s.putBits bits).tree = s.tree := rfl
@[simp] theorem State.putBits_codeTable (bits : Bits) : (s.putBits bits).codeTable = s.codeTable := rfl
@[simp] theorem State.putBits_inReset (bits : Bits) : (s.putBits bits).inReset = s.inReset := rfl
@[simp] theorem State.putBits_script (bits : Bits) : (s.putBits bits).script = s.script := rfl
@[simp] theorem State.putBits_scriptPos (bits : Bits) : (s.putBits bits).scriptPos = s.scriptPos := rfl
@[simp] theorem State.putBits_pending (bits : Bits) : (s.putBits bits).pending = s.pending := rfl
@[simp] theorem State.putBits_seen (bits : Bits) : (s.putBits bits).seen = s.seen := rfl
@[simp] theorem State.putBits_latencies (bits : Bits) : (s.putBits bits).latencies = s.latencies := rfl
@[simp] theorem State.putBits_draws (bits : Bits) : (s.putBits bits).draws = s.draws := rfl

/-! ### The engine writes OUT (R12). -/

@[simp] theorem State.putOut_cfg (bytes : List Byte) : (s.putOut bytes).cfg = s.cfg := rfl
@[simp] theorem State.putOut_acceptTrunc (bytes : List Byte) : (s.putOut bytes).acceptTrunc = s.acceptTrunc := rfl
@[simp] theorem State.putOut_irqEn (bytes : List Byte) : (s.putOut bytes).irqEn = s.irqEn := rfl
@[simp] theorem State.putOut_done (bytes : List Byte) : (s.putOut bytes).done = s.done := rfl
@[simp] theorem State.putOut_ovr (bytes : List Byte) : (s.putOut bytes).ovr = s.ovr := rfl
@[simp] theorem State.putOut_err (bytes : List Byte) : (s.putOut bytes).err = s.err := rfl
@[simp] theorem State.putOut_freqValid (bytes : List Byte) : (s.putOut bytes).freqValid = s.freqValid := rfl
@[simp] theorem State.putOut_tableValid (bytes : List Byte) : (s.putOut bytes).tableValid = s.tableValid := rfl
@[simp] theorem State.putOut_treeValid (bytes : List Byte) : (s.putOut bytes).treeValid = s.treeValid := rfl
@[simp] theorem State.putOut_treeEmpty (bytes : List Byte) : (s.putOut bytes).treeEmpty = s.treeEmpty := rfl
@[simp] theorem State.putOut_partialFlag (bytes : List Byte) : (s.putOut bytes).partialFlag = s.partialFlag := rfl
@[simp] theorem State.putOut_lastOp (bytes : List Byte) : (s.putOut bytes).lastOp = s.lastOp := rfl
@[simp] theorem State.putOut_inLen (bytes : List Byte) : (s.putOut bytes).inLen = s.inLen := rfl
@[simp] theorem State.putOut_bitLen (bytes : List Byte) : (s.putOut bytes).bitLen = s.bitLen := rfl
@[simp] theorem State.putOut_outLen (bytes : List Byte) : (s.putOut bytes).outLen = s.outLen := rfl
@[simp] theorem State.putOut_start (bytes : List Byte) : (s.putOut bytes).start = s.start := rfl
@[simp] theorem State.putOut_value (bytes : List Byte) : (s.putOut bytes).value = s.value := rfl
@[simp] theorem State.putOut_expCount (bytes : List Byte) : (s.putOut bytes).expCount = s.expCount := rfl
@[simp] theorem State.putOut_symCount (bytes : List Byte) : (s.putOut bytes).symCount = s.symCount := rfl
@[simp] theorem State.putOut_distinct (bytes : List Byte) : (s.putOut bytes).distinct = s.distinct := rfl
@[simp] theorem State.putOut_treeBits (bytes : List Byte) : (s.putOut bytes).treeBits = s.treeBits := rfl
@[simp] theorem State.putOut_payloadBits (bytes : List Byte) : (s.putOut bytes).payloadBits = s.payloadBits := rfl
@[simp] theorem State.putOut_freq (bytes : List Byte) : (s.putOut bytes).freq = s.freq := rfl
@[simp] theorem State.putOut_codeLen (bytes : List Byte) : (s.putOut bytes).codeLen = s.codeLen := rfl
@[simp] theorem State.putOut_codeW (bytes : List Byte) : (s.putOut bytes).codeW = s.codeW := rfl
@[simp] theorem State.putOut_phase (bytes : List Byte) : (s.putOut bytes).phase = s.phase := rfl
@[simp] theorem State.putOut_inBuf (bytes : List Byte) : (s.putOut bytes).inBuf = s.inBuf := rfl
@[simp] theorem State.putOut_bitsBuf (bytes : List Byte) : (s.putOut bytes).bitsBuf = s.bitsBuf := rfl
@[simp] theorem State.putOut_outBuf (bytes : List Byte) : (s.putOut bytes).outBuf = s.outBuf.writeBytes 0 bytes := rfl
@[simp] theorem State.putOut_freqTable (bytes : List Byte) : (s.putOut bytes).freqTable = s.freqTable := rfl
@[simp] theorem State.putOut_tree (bytes : List Byte) : (s.putOut bytes).tree = s.tree := rfl
@[simp] theorem State.putOut_codeTable (bytes : List Byte) : (s.putOut bytes).codeTable = s.codeTable := rfl
@[simp] theorem State.putOut_inReset (bytes : List Byte) : (s.putOut bytes).inReset = s.inReset := rfl
@[simp] theorem State.putOut_script (bytes : List Byte) : (s.putOut bytes).script = s.script := rfl
@[simp] theorem State.putOut_scriptPos (bytes : List Byte) : (s.putOut bytes).scriptPos = s.scriptPos := rfl
@[simp] theorem State.putOut_pending (bytes : List Byte) : (s.putOut bytes).pending = s.pending := rfl
@[simp] theorem State.putOut_seen (bytes : List Byte) : (s.putOut bytes).seen = s.seen := rfl
@[simp] theorem State.putOut_latencies (bytes : List Byte) : (s.putOut bytes).latencies = s.latencies := rfl
@[simp] theorem State.putOut_draws (bytes : List Byte) : (s.putOut bytes).draws = s.draws := rfl

/-! ### The host has read a value. -/

@[simp] theorem State.saw_cfg (x : Reading) : (s.saw x).cfg = s.cfg := rfl
@[simp] theorem State.saw_acceptTrunc (x : Reading) : (s.saw x).acceptTrunc = s.acceptTrunc := rfl
@[simp] theorem State.saw_irqEn (x : Reading) : (s.saw x).irqEn = s.irqEn := rfl
@[simp] theorem State.saw_done (x : Reading) : (s.saw x).done = s.done := rfl
@[simp] theorem State.saw_ovr (x : Reading) : (s.saw x).ovr = s.ovr := rfl
@[simp] theorem State.saw_err (x : Reading) : (s.saw x).err = s.err := rfl
@[simp] theorem State.saw_freqValid (x : Reading) : (s.saw x).freqValid = s.freqValid := rfl
@[simp] theorem State.saw_tableValid (x : Reading) : (s.saw x).tableValid = s.tableValid := rfl
@[simp] theorem State.saw_treeValid (x : Reading) : (s.saw x).treeValid = s.treeValid := rfl
@[simp] theorem State.saw_treeEmpty (x : Reading) : (s.saw x).treeEmpty = s.treeEmpty := rfl
@[simp] theorem State.saw_partialFlag (x : Reading) : (s.saw x).partialFlag = s.partialFlag := rfl
@[simp] theorem State.saw_lastOp (x : Reading) : (s.saw x).lastOp = s.lastOp := rfl
@[simp] theorem State.saw_inLen (x : Reading) : (s.saw x).inLen = s.inLen := rfl
@[simp] theorem State.saw_bitLen (x : Reading) : (s.saw x).bitLen = s.bitLen := rfl
@[simp] theorem State.saw_outLen (x : Reading) : (s.saw x).outLen = s.outLen := rfl
@[simp] theorem State.saw_start (x : Reading) : (s.saw x).start = s.start := rfl
@[simp] theorem State.saw_value (x : Reading) : (s.saw x).value = s.value := rfl
@[simp] theorem State.saw_expCount (x : Reading) : (s.saw x).expCount = s.expCount := rfl
@[simp] theorem State.saw_symCount (x : Reading) : (s.saw x).symCount = s.symCount := rfl
@[simp] theorem State.saw_distinct (x : Reading) : (s.saw x).distinct = s.distinct := rfl
@[simp] theorem State.saw_treeBits (x : Reading) : (s.saw x).treeBits = s.treeBits := rfl
@[simp] theorem State.saw_payloadBits (x : Reading) : (s.saw x).payloadBits = s.payloadBits := rfl
@[simp] theorem State.saw_freq (x : Reading) : (s.saw x).freq = s.freq := rfl
@[simp] theorem State.saw_codeLen (x : Reading) : (s.saw x).codeLen = s.codeLen := rfl
@[simp] theorem State.saw_codeW (x : Reading) : (s.saw x).codeW = s.codeW := rfl
@[simp] theorem State.saw_phase (x : Reading) : (s.saw x).phase = s.phase := rfl
@[simp] theorem State.saw_inBuf (x : Reading) : (s.saw x).inBuf = s.inBuf := rfl
@[simp] theorem State.saw_bitsBuf (x : Reading) : (s.saw x).bitsBuf = s.bitsBuf := rfl
@[simp] theorem State.saw_outBuf (x : Reading) : (s.saw x).outBuf = s.outBuf := rfl
@[simp] theorem State.saw_freqTable (x : Reading) : (s.saw x).freqTable = s.freqTable := rfl
@[simp] theorem State.saw_tree (x : Reading) : (s.saw x).tree = s.tree := rfl
@[simp] theorem State.saw_codeTable (x : Reading) : (s.saw x).codeTable = s.codeTable := rfl
@[simp] theorem State.saw_inReset (x : Reading) : (s.saw x).inReset = s.inReset := rfl
@[simp] theorem State.saw_script (x : Reading) : (s.saw x).script = s.script := rfl
@[simp] theorem State.saw_scriptPos (x : Reading) : (s.saw x).scriptPos = s.scriptPos := rfl
@[simp] theorem State.saw_pending (x : Reading) : (s.saw x).pending = s.pending := rfl
@[simp] theorem State.saw_seen (x : Reading) : (s.saw x).seen = x :: s.seen := rfl
@[simp] theorem State.saw_latencies (x : Reading) : (s.saw x).latencies = s.latencies := rfl
@[simp] theorem State.saw_draws (x : Reading) : (s.saw x).draws = s.draws := rfl

/-! ### Replacing a buffer, and a buffer becoming unspecified (R281). -/

@[simp] theorem State.setBuf_cfg (sp : Space) (b : Buffer) : (s.setBuf sp b).cfg = s.cfg := by cases sp <;> rfl
@[simp] theorem State.setBuf_acceptTrunc (sp : Space) (b : Buffer) : (s.setBuf sp b).acceptTrunc = s.acceptTrunc := by cases sp <;> rfl
@[simp] theorem State.setBuf_irqEn (sp : Space) (b : Buffer) : (s.setBuf sp b).irqEn = s.irqEn := by cases sp <;> rfl
@[simp] theorem State.setBuf_done (sp : Space) (b : Buffer) : (s.setBuf sp b).done = s.done := by cases sp <;> rfl
@[simp] theorem State.setBuf_ovr (sp : Space) (b : Buffer) : (s.setBuf sp b).ovr = s.ovr := by cases sp <;> rfl
@[simp] theorem State.setBuf_err (sp : Space) (b : Buffer) : (s.setBuf sp b).err = s.err := by cases sp <;> rfl
@[simp] theorem State.setBuf_freqValid (sp : Space) (b : Buffer) : (s.setBuf sp b).freqValid = s.freqValid := by cases sp <;> rfl
@[simp] theorem State.setBuf_tableValid (sp : Space) (b : Buffer) : (s.setBuf sp b).tableValid = s.tableValid := by cases sp <;> rfl
@[simp] theorem State.setBuf_treeValid (sp : Space) (b : Buffer) : (s.setBuf sp b).treeValid = s.treeValid := by cases sp <;> rfl
@[simp] theorem State.setBuf_treeEmpty (sp : Space) (b : Buffer) : (s.setBuf sp b).treeEmpty = s.treeEmpty := by cases sp <;> rfl
@[simp] theorem State.setBuf_partialFlag (sp : Space) (b : Buffer) : (s.setBuf sp b).partialFlag = s.partialFlag := by cases sp <;> rfl
@[simp] theorem State.setBuf_lastOp (sp : Space) (b : Buffer) : (s.setBuf sp b).lastOp = s.lastOp := by cases sp <;> rfl
@[simp] theorem State.setBuf_inLen (sp : Space) (b : Buffer) : (s.setBuf sp b).inLen = s.inLen := by cases sp <;> rfl
@[simp] theorem State.setBuf_bitLen (sp : Space) (b : Buffer) : (s.setBuf sp b).bitLen = s.bitLen := by cases sp <;> rfl
@[simp] theorem State.setBuf_outLen (sp : Space) (b : Buffer) : (s.setBuf sp b).outLen = s.outLen := by cases sp <;> rfl
@[simp] theorem State.setBuf_start (sp : Space) (b : Buffer) : (s.setBuf sp b).start = s.start := by cases sp <;> rfl
@[simp] theorem State.setBuf_value (sp : Space) (b : Buffer) : (s.setBuf sp b).value = s.value := by cases sp <;> rfl
@[simp] theorem State.setBuf_expCount (sp : Space) (b : Buffer) : (s.setBuf sp b).expCount = s.expCount := by cases sp <;> rfl
@[simp] theorem State.setBuf_symCount (sp : Space) (b : Buffer) : (s.setBuf sp b).symCount = s.symCount := by cases sp <;> rfl
@[simp] theorem State.setBuf_distinct (sp : Space) (b : Buffer) : (s.setBuf sp b).distinct = s.distinct := by cases sp <;> rfl
@[simp] theorem State.setBuf_treeBits (sp : Space) (b : Buffer) : (s.setBuf sp b).treeBits = s.treeBits := by cases sp <;> rfl
@[simp] theorem State.setBuf_payloadBits (sp : Space) (b : Buffer) : (s.setBuf sp b).payloadBits = s.payloadBits := by cases sp <;> rfl
@[simp] theorem State.setBuf_freq (sp : Space) (b : Buffer) : (s.setBuf sp b).freq = s.freq := by cases sp <;> rfl
@[simp] theorem State.setBuf_codeLen (sp : Space) (b : Buffer) : (s.setBuf sp b).codeLen = s.codeLen := by cases sp <;> rfl
@[simp] theorem State.setBuf_codeW (sp : Space) (b : Buffer) : (s.setBuf sp b).codeW = s.codeW := by cases sp <;> rfl
@[simp] theorem State.setBuf_phase (sp : Space) (b : Buffer) : (s.setBuf sp b).phase = s.phase := by cases sp <;> rfl
@[simp] theorem State.setBuf_freqTable (sp : Space) (b : Buffer) : (s.setBuf sp b).freqTable = s.freqTable := by cases sp <;> rfl
@[simp] theorem State.setBuf_tree (sp : Space) (b : Buffer) : (s.setBuf sp b).tree = s.tree := by cases sp <;> rfl
@[simp] theorem State.setBuf_codeTable (sp : Space) (b : Buffer) : (s.setBuf sp b).codeTable = s.codeTable := by cases sp <;> rfl
@[simp] theorem State.setBuf_inReset (sp : Space) (b : Buffer) : (s.setBuf sp b).inReset = s.inReset := by cases sp <;> rfl
@[simp] theorem State.setBuf_script (sp : Space) (b : Buffer) : (s.setBuf sp b).script = s.script := by cases sp <;> rfl
@[simp] theorem State.setBuf_scriptPos (sp : Space) (b : Buffer) : (s.setBuf sp b).scriptPos = s.scriptPos := by cases sp <;> rfl
@[simp] theorem State.setBuf_pending (sp : Space) (b : Buffer) : (s.setBuf sp b).pending = s.pending := by cases sp <;> rfl
@[simp] theorem State.setBuf_seen (sp : Space) (b : Buffer) : (s.setBuf sp b).seen = s.seen := by cases sp <;> rfl
@[simp] theorem State.setBuf_latencies (sp : Space) (b : Buffer) : (s.setBuf sp b).latencies = s.latencies := by cases sp <;> rfl
@[simp] theorem State.setBuf_draws (sp : Space) (b : Buffer) : (s.setBuf sp b).draws = s.draws := by cases sp <;> rfl
@[simp] theorem State.unspecify_cfg (sp : Space) : (s.unspecify sp).cfg = s.cfg := by cases sp <;> rfl
@[simp] theorem State.unspecify_acceptTrunc (sp : Space) : (s.unspecify sp).acceptTrunc = s.acceptTrunc := by cases sp <;> rfl
@[simp] theorem State.unspecify_irqEn (sp : Space) : (s.unspecify sp).irqEn = s.irqEn := by cases sp <;> rfl
@[simp] theorem State.unspecify_done (sp : Space) : (s.unspecify sp).done = s.done := by cases sp <;> rfl
@[simp] theorem State.unspecify_ovr (sp : Space) : (s.unspecify sp).ovr = s.ovr := by cases sp <;> rfl
@[simp] theorem State.unspecify_err (sp : Space) : (s.unspecify sp).err = s.err := by cases sp <;> rfl
@[simp] theorem State.unspecify_freqValid (sp : Space) : (s.unspecify sp).freqValid = s.freqValid := by cases sp <;> rfl
@[simp] theorem State.unspecify_tableValid (sp : Space) : (s.unspecify sp).tableValid = s.tableValid := by cases sp <;> rfl
@[simp] theorem State.unspecify_treeValid (sp : Space) : (s.unspecify sp).treeValid = s.treeValid := by cases sp <;> rfl
@[simp] theorem State.unspecify_treeEmpty (sp : Space) : (s.unspecify sp).treeEmpty = s.treeEmpty := by cases sp <;> rfl
@[simp] theorem State.unspecify_partialFlag (sp : Space) : (s.unspecify sp).partialFlag = s.partialFlag := by cases sp <;> rfl
@[simp] theorem State.unspecify_lastOp (sp : Space) : (s.unspecify sp).lastOp = s.lastOp := by cases sp <;> rfl
@[simp] theorem State.unspecify_inLen (sp : Space) : (s.unspecify sp).inLen = s.inLen := by cases sp <;> rfl
@[simp] theorem State.unspecify_bitLen (sp : Space) : (s.unspecify sp).bitLen = s.bitLen := by cases sp <;> rfl
@[simp] theorem State.unspecify_outLen (sp : Space) : (s.unspecify sp).outLen = s.outLen := by cases sp <;> rfl
@[simp] theorem State.unspecify_start (sp : Space) : (s.unspecify sp).start = s.start := by cases sp <;> rfl
@[simp] theorem State.unspecify_value (sp : Space) : (s.unspecify sp).value = s.value := by cases sp <;> rfl
@[simp] theorem State.unspecify_expCount (sp : Space) : (s.unspecify sp).expCount = s.expCount := by cases sp <;> rfl
@[simp] theorem State.unspecify_symCount (sp : Space) : (s.unspecify sp).symCount = s.symCount := by cases sp <;> rfl
@[simp] theorem State.unspecify_distinct (sp : Space) : (s.unspecify sp).distinct = s.distinct := by cases sp <;> rfl
@[simp] theorem State.unspecify_treeBits (sp : Space) : (s.unspecify sp).treeBits = s.treeBits := by cases sp <;> rfl
@[simp] theorem State.unspecify_payloadBits (sp : Space) : (s.unspecify sp).payloadBits = s.payloadBits := by cases sp <;> rfl
@[simp] theorem State.unspecify_freq (sp : Space) : (s.unspecify sp).freq = s.freq := by cases sp <;> rfl
@[simp] theorem State.unspecify_codeLen (sp : Space) : (s.unspecify sp).codeLen = s.codeLen := by cases sp <;> rfl
@[simp] theorem State.unspecify_codeW (sp : Space) : (s.unspecify sp).codeW = s.codeW := by cases sp <;> rfl
@[simp] theorem State.unspecify_phase (sp : Space) : (s.unspecify sp).phase = s.phase := by cases sp <;> rfl
@[simp] theorem State.unspecify_freqTable (sp : Space) : (s.unspecify sp).freqTable = s.freqTable := by cases sp <;> rfl
@[simp] theorem State.unspecify_tree (sp : Space) : (s.unspecify sp).tree = s.tree := by cases sp <;> rfl
@[simp] theorem State.unspecify_codeTable (sp : Space) : (s.unspecify sp).codeTable = s.codeTable := by cases sp <;> rfl
@[simp] theorem State.unspecify_inReset (sp : Space) : (s.unspecify sp).inReset = s.inReset := by cases sp <;> rfl
@[simp] theorem State.unspecify_script (sp : Space) : (s.unspecify sp).script = s.script := by cases sp <;> rfl
@[simp] theorem State.unspecify_scriptPos (sp : Space) : (s.unspecify sp).scriptPos = s.scriptPos := by cases sp <;> rfl
@[simp] theorem State.unspecify_pending (sp : Space) : (s.unspecify sp).pending = s.pending := by cases sp <;> rfl
@[simp] theorem State.unspecify_seen (sp : Space) : (s.unspecify sp).seen = s.seen := by cases sp <;> rfl
@[simp] theorem State.unspecify_latencies (sp : Space) : (s.unspecify sp).latencies = s.latencies := by cases sp <;> rfl
@[simp] theorem State.unspecify_draws (sp : Space) : (s.unspecify sp).draws = s.draws + 1 := rfl
@[simp] theorem State.setBuf_buf (sp : Space) (b : Buffer) : (s.setBuf sp b).buf sp = b := by cases sp <;> rfl
@[simp] theorem State.setBuf_input (b : Buffer) : s.setBuf .input b = { s with inBuf := b } := rfl
@[simp] theorem State.setBuf_bits (b : Buffer) : s.setBuf .bits b = { s with bitsBuf := b } := rfl
@[simp] theorem State.setBuf_output (b : Buffer) : s.setBuf .output b = { s with outBuf := b } := rfl
@[simp] theorem State.buf_input : s.buf .input = s.inBuf := rfl
@[simp] theorem State.buf_bits : s.buf .bits = s.bitsBuf := rfl
@[simp] theorem State.buf_output : s.buf .output = s.outBuf := rfl

/-! ### Result registers (R28 to R39): what each write is, and what no such write changes. -/

@[simp] theorem State.putReg_bitLen_eq (v : Word) : s.putReg .bitLen v = { s with bitLen := v } := rfl
@[simp] theorem State.putReg_outLen_eq (v : Word) : s.putReg .outLen v = { s with outLen := v } := rfl
@[simp] theorem State.putReg_value_eq (v : Word) : s.putReg .value v = { s with value := v } := rfl
@[simp] theorem State.putReg_symCount_eq (v : Word) : s.putReg .symCount v = { s with symCount := v } := rfl
@[simp] theorem State.putReg_distinct_eq (v : Word) : s.putReg .distinct v = { s with distinct := v } := rfl
@[simp] theorem State.putReg_treeBits_eq (v : Word) : s.putReg .treeBits v = { s with treeBits := v } := rfl
@[simp] theorem State.putReg_payloadBits_eq (v : Word) : s.putReg .payloadBits v = { s with payloadBits := v } := rfl
@[simp] theorem State.putReg_freq_eq (v : Word) : s.putReg .freq v = { s with freq := v } := rfl
@[simp] theorem State.putReg_codeLen_eq (v : Word) : s.putReg .codeLen v = { s with codeLen := v } := rfl
@[simp] theorem State.putReg_codeW_eq (j : Nat) (v : Word) : s.putReg (.codeW j) v = { s with codeW := s.codeW.set j v } := rfl
@[simp] theorem State.putReg_cfg (r : Reg) (v : Word) : (s.putReg r v).cfg = s.cfg := by cases r <;> rfl
@[simp] theorem State.putReg_acceptTrunc (r : Reg) (v : Word) : (s.putReg r v).acceptTrunc = s.acceptTrunc := by cases r <;> rfl
@[simp] theorem State.putReg_irqEn (r : Reg) (v : Word) : (s.putReg r v).irqEn = s.irqEn := by cases r <;> rfl
@[simp] theorem State.putReg_done (r : Reg) (v : Word) : (s.putReg r v).done = s.done := by cases r <;> rfl
@[simp] theorem State.putReg_ovr (r : Reg) (v : Word) : (s.putReg r v).ovr = s.ovr := by cases r <;> rfl
@[simp] theorem State.putReg_err (r : Reg) (v : Word) : (s.putReg r v).err = s.err := by cases r <;> rfl
@[simp] theorem State.putReg_freqValid (r : Reg) (v : Word) : (s.putReg r v).freqValid = s.freqValid := by cases r <;> rfl
@[simp] theorem State.putReg_tableValid (r : Reg) (v : Word) : (s.putReg r v).tableValid = s.tableValid := by cases r <;> rfl
@[simp] theorem State.putReg_treeValid (r : Reg) (v : Word) : (s.putReg r v).treeValid = s.treeValid := by cases r <;> rfl
@[simp] theorem State.putReg_treeEmpty (r : Reg) (v : Word) : (s.putReg r v).treeEmpty = s.treeEmpty := by cases r <;> rfl
@[simp] theorem State.putReg_partialFlag (r : Reg) (v : Word) : (s.putReg r v).partialFlag = s.partialFlag := by cases r <;> rfl
@[simp] theorem State.putReg_lastOp (r : Reg) (v : Word) : (s.putReg r v).lastOp = s.lastOp := by cases r <;> rfl
@[simp] theorem State.putReg_inLen (r : Reg) (v : Word) : (s.putReg r v).inLen = s.inLen := by cases r <;> rfl
@[simp] theorem State.putReg_start (r : Reg) (v : Word) : (s.putReg r v).start = s.start := by cases r <;> rfl
@[simp] theorem State.putReg_expCount (r : Reg) (v : Word) : (s.putReg r v).expCount = s.expCount := by cases r <;> rfl
@[simp] theorem State.putReg_phase (r : Reg) (v : Word) : (s.putReg r v).phase = s.phase := by cases r <;> rfl
@[simp] theorem State.putReg_inBuf (r : Reg) (v : Word) : (s.putReg r v).inBuf = s.inBuf := by cases r <;> rfl
@[simp] theorem State.putReg_bitsBuf (r : Reg) (v : Word) : (s.putReg r v).bitsBuf = s.bitsBuf := by cases r <;> rfl
@[simp] theorem State.putReg_outBuf (r : Reg) (v : Word) : (s.putReg r v).outBuf = s.outBuf := by cases r <;> rfl
@[simp] theorem State.putReg_freqTable (r : Reg) (v : Word) : (s.putReg r v).freqTable = s.freqTable := by cases r <;> rfl
@[simp] theorem State.putReg_tree (r : Reg) (v : Word) : (s.putReg r v).tree = s.tree := by cases r <;> rfl
@[simp] theorem State.putReg_codeTable (r : Reg) (v : Word) : (s.putReg r v).codeTable = s.codeTable := by cases r <;> rfl
@[simp] theorem State.putReg_inReset (r : Reg) (v : Word) : (s.putReg r v).inReset = s.inReset := by cases r <;> rfl
@[simp] theorem State.putReg_script (r : Reg) (v : Word) : (s.putReg r v).script = s.script := by cases r <;> rfl
@[simp] theorem State.putReg_scriptPos (r : Reg) (v : Word) : (s.putReg r v).scriptPos = s.scriptPos := by cases r <;> rfl
@[simp] theorem State.putReg_pending (r : Reg) (v : Word) : (s.putReg r v).pending = s.pending := by cases r <;> rfl
@[simp] theorem State.putReg_seen (r : Reg) (v : Word) : (s.putReg r v).seen = s.seen := by cases r <;> rfl
@[simp] theorem State.putReg_latencies (r : Reg) (v : Word) : (s.putReg r v).latencies = s.latencies := by cases r <;> rfl
@[simp] theorem State.putReg_draws (r : Reg) (v : Word) : (s.putReg r v).draws = s.draws := by cases r <;> rfl

end Sys2Proof.Machine
end

