-- ==== Sys2Proof/Laws/Memory.lean ====
section
/-! SUPPORT. What the memory and buffer operations do: read after write, everything else left alone, and the canonical form
kept by every operation (spec/20_memory.md rules R62, R65). -/

namespace Sys2Proof.Machine

/-- Reading after a write: the byte written at its offset, the old byte elsewhere. -/
theorem Memory.read_write (m : Memory) (a : Nat) (v : Byte) (x : Nat) :
    Memory.read (Memory.write m a v) x = if x = a then some v else Memory.read m x := by
  induction m with
  | nil => simp only [Memory.write, Memory.read]; split_ifs <;> first | rfl | omega
  | cons c m ih =>
    obtain ⟨b, w⟩ := c
    rcases lt_trichotomy a b with h | h | h
    · simp only [Memory.write, if_pos h, Memory.read]; split_ifs <;> first | rfl | omega
    · subst h
      simp only [Memory.write, lt_irrefl, if_false, if_true, Memory.read]
      split_ifs <;> first | rfl | omega
    · have h1 : ¬ a < b := by omega
      have h2 : a ≠ b := by omega
      simp only [Memory.write, if_neg h1, if_neg h2, Memory.read, ih]
      split_ifs <;> first | rfl | omega

/-- The offsets a written memory lists are the written one and the old ones. -/
theorem Memory.mem_write {m : Memory} {a : Nat} {v : Byte} {c : Host.Cell} (h : c ∈ Memory.write m a v) :
    c = (a, v) ∨ c ∈ m := by
  induction m with
  | nil => simpa [Memory.write] using h
  | cons d m ih =>
    obtain ⟨b, w⟩ := d
    simp only [Memory.write] at h
    split_ifs at h
    · simpa using h
    · rcases List.mem_cons.1 h with h | h
      · exact .inl h
      · exact .inr (.tail _ h)
    · rcases List.mem_cons.1 h with h | h
      · exact .inr (h ▸ .head _)
      · exact (ih h).imp id (.tail _)

/-- A write keeps the canonical form. -/
theorem Memory.wf_write {m : Memory} (h : Memory.wf m) (a : Nat) (v : Byte) : Memory.wf (Memory.write m a v) := by
  induction m with
  | nil => simp [Memory.wf, Memory.write]
  | cons d m ih =>
    obtain ⟨b, w⟩ := d
    obtain ⟨hb, hm⟩ := List.pairwise_cons.1 h
    simp only [Memory.write]
    split_ifs with h1 h2
    · refine List.pairwise_cons.2 ⟨fun c hc => ?_, h⟩
      rcases List.mem_cons.1 hc with rfl | hc
      · exact h1
      · exact lt_trans h1 (hb c hc)
    · subst h2
      exact List.pairwise_cons.2 ⟨hb, hm⟩
    · refine List.pairwise_cons.2 ⟨fun c hc => ?_, ih hm⟩
      rcases Memory.mem_write hc with rfl | hc
      · show b < a; omega
      · exact hb c hc

/-- The empty memory is canonical. -/
theorem Memory.wf_nil : Memory.wf [] := List.Pairwise.nil

/-- Below every listed offset nothing is written. -/
theorem Memory.read_none_of_lt {m : Memory} {a : Nat} (h : ∀ c ∈ m, a < c.1) : Memory.read m a = none := by
  cases m with
  | nil => rfl
  | cons c m => simp [Memory.read, h c (.head _)]

/-- A byte of a buffer after one byte is written. -/
theorem Buffer.byte_writeByte (b : Buffer) (a : Nat) (v : Byte) (x : Nat) :
    (b.writeByte a v).byte x = if x = a then v else b.byte x := by
  simp only [Buffer.byte, Buffer.writeByte, Memory.read_write]
  split_ifs <;> rfl

/-- A byte of a buffer after successive bytes are written. -/
theorem Buffer.byte_writeBytes (bytes : List Byte) : ∀ (b : Buffer) (off x : Nat),
    (b.writeBytes off bytes).byte x =
      if off ≤ x ∧ x < off + bytes.length then bytes.getD (x - off) 0 else b.byte x := by
  induction bytes with
  | nil => intro b off x; simp [Buffer.writeBytes]
  | cons v vs ih =>
    intro b off x
    simp only [Buffer.writeBytes, ih, Buffer.byte_writeByte, List.length_cons]
    rcases lt_trichotomy x off with h | h | h
    · rw [if_neg (by omega), if_neg (by omega), if_neg (by omega)]
    · subst h; simp
    · obtain ⟨k, rfl⟩ : ∃ k, x = off + 1 + k := ⟨x - off - 1, by omega⟩
      have e : off + 1 + k - off = k + 1 := by omega
      simp only [e, List.getD_cons_succ, Nat.add_sub_cancel_left]
      split_ifs <;> first | rfl | omega

/-- Bytes written from offset 0: the bytes, and above them the old ones. -/
theorem Buffer.byte_writeBytes_zero (b : Buffer) (bytes : List Byte) (x : Nat) :
    (b.writeBytes 0 bytes).byte x = if x < bytes.length then bytes.getD x 0 else b.byte x := by
  simp [Buffer.byte_writeBytes]

/-- Writing bytes keeps the draw of the unwritten ones. -/
@[simp] theorem Buffer.gen_writeBytes (bytes : List Byte) : ∀ (b : Buffer) (off : Nat),
    (b.writeBytes off bytes).gen = b.gen := by
  induction bytes with
  | nil => intro b off; rfl
  | cons v vs ih => intro b off; exact ih _ _

/-- The buffer reset or a failure leaves is canonical. -/
theorem Buffer.wf_unwritten (size g : Nat) : (Buffer.unwritten g).wf size := ⟨Memory.wf_nil, by simp [Buffer.unwritten]⟩

/-- Writing a byte inside the buffer keeps its form. -/
theorem Buffer.wf_writeByte {size : Nat} {b : Buffer} (h : b.wf size) {a : Nat} (ha : a < size) (v : Byte) :
    (b.writeByte a v).wf size :=
  ⟨Memory.wf_write h.1 a v, fun c hc => (Memory.mem_write hc).elim (fun e => e ▸ ha) (h.2 c)⟩

/-- Writing successive bytes inside the buffer keeps its form. -/
theorem Buffer.wf_writeBytes {size : Nat} (bytes : List Byte) : ∀ {b : Buffer} {off : Nat}, b.wf size →
    off + bytes.length ≤ size → (b.writeBytes off bytes).wf size := by
  induction bytes with
  | nil => intro b off h _; exact h
  | cons v vs ih =>
    intro b off h hs
    simp only [List.length_cons] at hs
    exact ih (Buffer.wf_writeByte h (by omega) v) (by omega)

/-- Reading bytes depends only on those bytes. -/
theorem Buffer.readBytes_congr {b b' : Buffer} {off n : Nat} (h : ∀ i < n, b.byte (off + i) = b'.byte (off + i)) :
    b.readBytes off n = b'.readBytes off n :=
  List.map_congr_left fun i hi => h i (List.mem_range.1 hi)

@[simp] theorem Buffer.length_readBytes (b : Buffer) (off n : Nat) : (b.readBytes off n).length = n := by
  simp [Buffer.readBytes]

/-- The buffers of the state after reset, of any configuration, are canonical. -/
theorem State.resetWith_memory_wf (c : Config) (g : Nat) (sp : Space) :
    ((State.resetWith c g).buf sp).wf (bufSize c sp) := by
  cases sp <;> exact Buffer.wf_unwritten _ _

end Sys2Proof.Machine
end

