-- ==== Sys2Proof/Laws/HostAgent.lean ====
section
/-! SUPPORT. What the host's transactions do while the engine is IDLE, one transaction at a time (spec/20_memory.md rules
R62 and R79), and the transactions of successive bytes, first byte first. -/

namespace Sys2Proof.Machine

/-- A run whose first step answers goes on from that answer. -/
theorem run_succ_of_step {n : Nat} {s t : State} (h : step s = .next t) :
    Sys2Proof.core.run (n + 1) s = Sys2Proof.core.run n t := by
  have h' : Sys2Proof.core.step s = .next t := h
  simp only [Host.Core.run, h']

/-- While the engine is IDLE a pending transaction is performed in the next step. -/
theorem step_pending {s : State} {t : Txn} {rest : List Txn} (hi : s.phase = .idle) (hp : s.pending = t :: rest) :
    step s = performTxn t { s with pending := rest } := by
  simp [step, hi, hostStep, hp]

/-- While the engine is IDLE a register read returns the register's value and changes nothing else. -/
theorem performTxn_regRead_idle {s : State} (n : Nat) (e : Option Word) (hi : s.phase = .idle) (hr : s.inReset = false) :
    performTxn (.regRead n e) s = .next (s.saw (.reg n (s.reg (regOfNumber s.cfg n)) e)) := by
  simp [performTxn, State.readReg, State.regPending, hi, hr]

/-- While the engine is IDLE a byte read returns the byte, 0 at or beyond the size, and changes nothing else. -/
theorem performTxn_bufRead_idle {s : State} (sp : Space) (a : Nat) (hi : s.phase = .idle) (hr : s.inReset = false) :
    performTxn (.bufRead sp a) s =
      .next (s.saw (.byte sp a (if a < bufSize s.cfg sp then (s.buf sp).byte a else 0))) := by
  by_cases h : a < bufSize s.cfg sp
  · simp [performTxn, State.readBuf, State.bytePending, hi, hr, h, Nat.not_le.2 h]
  · simp [performTxn, State.readBuf, hr, h, Nat.not_lt.1 h]

/-- While the engine is IDLE a byte write inside IN or BITS has its effect, and any other is ignored. -/
theorem performTxn_bufWrite_idle {s : State} (sp : Space) (a : Nat) (v : Byte) (hi : s.phase = .idle)
    (hr : s.inReset = false) :
    performTxn (.bufWrite sp a v) s =
      .next (if sp ≠ .output ∧ a < bufSize s.cfg sp then s.setBuf sp ((s.buf sp).writeByte a v) else s) := by
  by_cases h : a < bufSize s.cfg sp
  · cases sp <;>
      simp [performTxn, State.writeBuf, State.inputWrite, State.busy, hi, hr, h, Nat.not_le.2 h]
  · simp [performTxn, State.writeBuf, hr, h, Nat.not_lt.1 h]

/-- The writes of a first byte and of those after it. -/
theorem writeTxns_cons (sp : Space) (off : Nat) (v : Byte) (vs : List Byte) :
    writeTxns sp off (v :: vs) = .bufWrite sp off v :: writeTxns sp (off + 1) vs := by
  simp only [writeTxns, List.zipIdx_cons', List.map_cons, List.map_map, Nat.add_zero]
  refine congrArg _ (List.map_congr_left fun x _ => ?_)
  simp [Function.comp, Nat.add_assoc, Nat.add_comm 1]

/-- The reads of a first byte and of those after it. -/
theorem readTxns_succ (sp : Space) (off n : Nat) :
    readTxns sp off (n + 1) = .bufRead sp off :: readTxns sp (off + 1) n := by
  simp only [readTxns, List.range_succ_eq_map, List.map_cons, List.map_map, Nat.add_zero]
  refine congrArg _ (List.map_congr_left fun x _ => ?_)
  simp [Function.comp, Nat.add_assoc, Nat.add_comm 1]

/-- The bytes of n reads in order, whatever was read before them. -/
theorem bytesRead_append (sp : Space) (off : Nat) (f : Nat → Byte) (seen : List Reading) : ∀ n,
    bytesRead sp off n (((List.range n).map fun i => Reading.byte sp (off + i) (f i)).reverse ++ seen) =
      some ((List.range n).map f)
  | 0 => rfl
  | n + 1 => by simp [List.range_succ, bytesRead, bytesRead_append sp off f seen n]

end Sys2Proof.Machine
end

