-- ==== Sys2Proof/Laws/Ops.lean ====
section
/-! SUPPORT. What the shared operations of a command's life do (spec/60_exceptions.md rules R280 to R283): completion,
failure of each command's write set, acceptance, and the trees' counts. -/

namespace Sys2Proof.Machine

open Host (Outcome)

/-- Completion with a result. -/
theorem complete_ok {α : Type} (i : Instr) {r : Except ErrKind α} {x : α} (apply : α → State → State) (s : State)
    (h : r = .ok x) : complete i r apply s = .next ((apply x s).finish none) := by subst h; rfl

/-- Completion with an error. -/
theorem complete_error {α : Type} (i : Instr) {r : Except ErrKind α} {e : ErrKind} (apply : α → State → State)
    (s : State) (h : r = .error e) : complete i r apply s = .next ((s.failWriteSet i).finish (some e)) := by
  subst h; rfl

/-- Everything completion can do. -/
theorem complete_cases {α : Type} {i : Instr} {r : Except ErrKind α} {apply : α → State → State} {s t : State}
    (h : complete i r apply s = .next t) :
    (∃ x, r = .ok x ∧ t = (apply x s).finish none) ∨
      ∃ e, r = .error e ∧ t = (s.failWriteSet i).finish (some e) := by
  cases r with
  | ok x => exact .inl ⟨x, rfl, by cases h; rfl⟩
  | error e => exact .inr ⟨e, rfl, by cases h; rfl⟩

/-- Zeroing the CODE_W registers one by one (R178, R281). -/
theorem foldl_putReg_codeW (n : Nat) : ∀ s : State,
    ((List.range n).map Reg.codeW).foldl (fun t r => t.putReg r 0) s =
      { s with codeW := (List.range n).foldl (fun ws j => ws.set j 0) s.codeW } := by
  induction n with
  | zero => intro s; rfl
  | succ n ih => intro s; rw [List.range_succ, List.map_append, List.foldl_append, ih, List.foldl_append]; rfl

/-- Zeroing keeps the number of CODE_W registers. -/
theorem length_foldl_set (n : Nat) (ws : List Word) :
    ((List.range n).foldl (fun (ws : List Word) j => ws.set j 0) ws).length = ws.length := by
  induction n with
  | zero => rfl
  | succ n ih => rw [List.range_succ, List.foldl_append, List.foldl_cons, List.foldl_nil, List.length_set, ih]

/-- The first n CODE_W words are zeroed, the others kept. -/
theorem getD_foldl_set (n : Nat) (ws : List Word) (j : Nat) :
    ((List.range n).foldl (fun (ws : List Word) j => ws.set j 0) ws).getD j 0 = if j < n then 0 else ws.getD j 0 := by
  induction n with
  | zero => simp
  | succ n ih =>
    simp only [List.getD_eq_getElem?_getD] at ih ⊢
    rw [List.range_succ, List.foldl_append, List.foldl_cons, List.foldl_nil, List.getElem?_set, length_foldl_set]
    by_cases h1 : n = j
    · subst h1; by_cases h2 : n < ws.length <;> simp [h2]
    · rw [if_neg h1, ih]
      by_cases h2 : j < n
      · rw [if_pos h2, if_pos (by omega)]
      · rw [if_neg h2, if_neg (by omega)]

section Failure

variable (s : State)

/-! What a failure leaves, command by command (R281). -/

theorem failWriteSet_valueOfBytes : s.failWriteSet .valueOfBytes = { s with value := 0, partialFlag := false } := rfl

theorem failWriteSet_valueOfBits : s.failWriteSet .valueOfBits = { s with value := 0, partialFlag := false } := rfl

theorem failWriteSet_frame : s.failWriteSet .frame =
    { s with outLen := 0, outBuf := Buffer.unwritten s.draws, draws := s.draws + 1, partialFlag := false } := rfl

theorem failWriteSet_unframe : s.failWriteSet .unframe =
    { s with bitLen := 0, bitsBuf := Buffer.unwritten s.draws, draws := s.draws + 1, partialFlag := false } := rfl

theorem failWriteSet_build : s.failWriteSet .build =
    { s with symCount := 0, distinct := 0, freqValid := false, tableValid := false, treeValid := false,
             treeEmpty := false, partialFlag := false } := rfl

theorem failWriteSet_freq : s.failWriteSet .freq = { s with freq := 0, partialFlag := false } := rfl

theorem failWriteSet_lookup : s.failWriteSet .lookup =
    { s with codeLen := 0, codeW := (List.range s.cfg.codeWords).foldl (fun ws j => ws.set j 0) s.codeW,
             partialFlag := false } := by
  unfold State.failWriteSet writeRegs
  rw [List.foldl_cons, foldl_putReg_codeW]
  rfl

theorem failWriteSet_serialize : s.failWriteSet .serialize =
    { s with bitLen := 0, treeBits := 0, bitsBuf := Buffer.unwritten s.draws, draws := s.draws + 1,
             partialFlag := false } := rfl

theorem failWriteSet_deserialize : s.failWriteSet .deserialize =
    { s with distinct := 0, treeBits := 0, freqValid := false, tableValid := false, treeValid := false,
             treeEmpty := false, partialFlag := false } := rfl

theorem failWriteSet_encode : s.failWriteSet .encode =
    { s with symCount := 0, distinct := 0, treeBits := 0, payloadBits := 0, bitLen := 0,
             bitsBuf := Buffer.unwritten s.draws, draws := s.draws + 1, freqValid := false, tableValid := false,
             treeValid := false, treeEmpty := false, partialFlag := false } := by
  simp only [State.failWriteSet, writeRegs, List.foldl_cons, List.foldl_nil, State.putReg_symCount_eq,
    State.putReg_distinct_eq, State.putReg_treeBits_eq, State.putReg_payloadBits_eq, State.putReg_bitLen_eq,
    State.failBuffer, writeSpace, State.unspecify, State.setBuf, State.failFlags, writesTree, State.tablesInvalid,
    if_true]

theorem failWriteSet_decode : s.failWriteSet .decode =
    { s with symCount := 0, distinct := 0, treeBits := 0, payloadBits := 0, outLen := 0,
             outBuf := Buffer.unwritten s.draws, draws := s.draws + 1, freqValid := false, tableValid := false,
             treeValid := false, treeEmpty := false, partialFlag := false } := by
  simp only [State.failWriteSet, writeRegs, List.foldl_cons, List.foldl_nil, State.putReg_symCount_eq,
    State.putReg_distinct_eq, State.putReg_treeBits_eq, State.putReg_payloadBits_eq, State.putReg_outLen_eq,
    State.failBuffer, writeSpace, State.unspecify, State.setBuf, State.failFlags, writesTree, State.tablesInvalid,
    if_true]

end Failure

/-- Everything acceptance can do: the accepted state, its latency the next chosen one or a free value. -/
theorem accept_cases (w : Word) (s : State) :
    ∃ n l d, s.accept w = { s.acceptWith w n with latencies := l, draws := d } := by
  unfold State.accept
  cases h : s.latencies with
  | nil => exact ⟨Config.latency s.draws, [], s.draws + 1, by simp [← h, State.acceptWith]⟩
  | cons n rest => exact ⟨n, rest, s.draws, rfl⟩

/-- The checks a command that reads a length register makes first (R276). -/
theorem checkInLen_ok {s : State} (h : s.inLen.toNat ≤ s.cfg.inCap) : s.checkInLen = .ok () := by
  simp [State.checkInLen, Nat.not_lt.2 h]

theorem checkInLen_error {s : State} (h : s.cfg.inCap < s.inLen.toNat) : s.checkInLen = .error .capacity := by
  simp [State.checkInLen, h]

theorem checkBitLen_ok {s : State} (h : s.bitLen.toNat ≤ s.cfg.bitCap) : s.checkBitLen = .ok () := by
  simp [State.checkBitLen, Nat.not_lt.2 h]

theorem checkBitLen_error {s : State} (h : s.cfg.bitCap < s.bitLen.toNat) : s.checkBitLen = .error .capacity := by
  simp [State.checkBitLen, h]

/-- A bit of BITS after a bit sequence is written from bit 0: the sequence, zero pad bits, the old bits (R63, R64). -/
theorem Buffer.bit_writeBits (b : Buffer) (bits : Bits) (i : Nat) :
    (b.writeBytes 0 (pack bits)).bit i =
      if i < 8 * ceilDiv bits.length 8 then bits.getD i false else b.bit i := by
  unfold Buffer.bit
  rw [Buffer.byte_writeBytes_zero, length_pack]
  by_cases h : i < 8 * ceilDiv bits.length 8
  · have hk : i / 8 < ceilDiv bits.length 8 := by omega
    rw [if_pos hk, if_pos h, getD_pack bits hk, getLsbD_packByte bits _ (by omega)]
    congr 1
    omega
  · rw [if_neg h, if_neg (by omega)]

/-- A byte of BITS above a bit sequence written from bit 0 keeps its value (R64). -/
theorem Buffer.byte_writeBits_above (b : Buffer) (bits : Bits) {a : Nat} (h : ceilDiv bits.length 8 ≤ a) :
    (b.writeBytes 0 (pack bits)).byte a = b.byte a := by
  rw [Buffer.byte_writeBytes_zero, length_pack, if_neg (by omega)]

@[simp] theorem length_inSeq (s : State) : s.inSeq.length = s.inLen.toNat := by simp [State.inSeq]

@[simp] theorem length_bitsSeq (s : State) : s.bitsSeq.length = s.bitLen.toNat := by simp [State.bitsSeq]

end Sys2Proof.Machine
end

