-- ==== Sys2Proof/Laws/PerInstr.lean ====
section
/-! SUPPORT. The statements made per instruction: one family, `RoundTrip`, about an instruction as syntax. -/

/-- The command's word is legal, decodes to that command, and the decoder reads it from the table's numbering too (R93,
R94, R96). -/
def Sys2Proof.Laws.RoundTrip.Statement (i : Sys2Proof.Instr) : Prop :=
  i.wf ∧ Sys2Proof.decodeCmd (Sys2Proof.encodeCmd i) = .legal i ∧
    Sys2Proof.decodeTableWord 64 (Sys2Proof.encodeCmd i).toNat = some i

theorem Sys2Proof.Laws.RoundTrip.bytesOf : Sys2Proof.Laws.RoundTrip.Statement .bytesOf := ⟨by decide, by decide, by decide⟩
theorem Sys2Proof.Laws.RoundTrip.valueOfBytes : Sys2Proof.Laws.RoundTrip.Statement .valueOfBytes := ⟨by decide, by decide, by decide⟩
theorem Sys2Proof.Laws.RoundTrip.bitsOf : Sys2Proof.Laws.RoundTrip.Statement .bitsOf := ⟨by decide, by decide, by decide⟩
theorem Sys2Proof.Laws.RoundTrip.valueOfBits : Sys2Proof.Laws.RoundTrip.Statement .valueOfBits := ⟨by decide, by decide, by decide⟩
theorem Sys2Proof.Laws.RoundTrip.frame : Sys2Proof.Laws.RoundTrip.Statement .frame := ⟨by decide, by decide, by decide⟩
theorem Sys2Proof.Laws.RoundTrip.unframe : Sys2Proof.Laws.RoundTrip.Statement .unframe := ⟨by decide, by decide, by decide⟩
theorem Sys2Proof.Laws.RoundTrip.build : Sys2Proof.Laws.RoundTrip.Statement .build := ⟨by decide, by decide, by decide⟩
theorem Sys2Proof.Laws.RoundTrip.freq : Sys2Proof.Laws.RoundTrip.Statement .freq := ⟨by decide, by decide, by decide⟩
theorem Sys2Proof.Laws.RoundTrip.lookup : Sys2Proof.Laws.RoundTrip.Statement .lookup := ⟨by decide, by decide, by decide⟩
theorem Sys2Proof.Laws.RoundTrip.serialize : Sys2Proof.Laws.RoundTrip.Statement .serialize := ⟨by decide, by decide, by decide⟩
theorem Sys2Proof.Laws.RoundTrip.deserialize : Sys2Proof.Laws.RoundTrip.Statement .deserialize := ⟨by decide, by decide, by decide⟩
theorem Sys2Proof.Laws.RoundTrip.encode : Sys2Proof.Laws.RoundTrip.Statement .encode := ⟨by decide, by decide, by decide⟩
theorem Sys2Proof.Laws.RoundTrip.decode : Sys2Proof.Laws.RoundTrip.Statement .decode := ⟨by decide, by decide, by decide⟩
end

