-- ==== Sys2Proof/Laws/Step.lean ====
section
/-! SUPPORT. Everything a step can do, said once: what the host's step changes, what a completed command leaves, and how
the two share the machine (spec/10_state.md rule R20). -/

namespace Sys2Proof.Machine

open Host (Outcome)

/-- Everything one host transaction, or the reset input, can do to the block. -/
inductive BlockEffect (s : State) : State → Prop where
  | nothing : BlockEffect s s
  | ctrl (v : Word) : s.busy = false → s.inReset = false → BlockEffect s (s.writeCtrl v)
  | status (v : Word) : s.inReset = false → BlockEffect s (s.writeStatus v)
  | cmd (w : Word) : s.inReset = false → BlockEffect s (s.writeCmd w)
  | inLen (v : Word) : s.busy = false → s.inReset = false → BlockEffect s { s with inLen := v }
  | bitLen (v : Word) : s.busy = false → s.inReset = false → BlockEffect s { s with bitLen := v }
  | start (v : Word) : s.busy = false → s.inReset = false → BlockEffect s { s with start := v }
  | value (v : Word) : s.busy = false → s.inReset = false → BlockEffect s { s with value := v }
  | expCount (v : Word) : s.busy = false → s.inReset = false → BlockEffect s { s with expCount := v }
  | inByte (a : Nat) (v : Byte) : s.busy = false → s.inReset = false → a < bufSize s.cfg .input →
      BlockEffect s { s with inBuf := s.inBuf.writeByte a v }
  | bitsByte (a : Nat) (v : Byte) : s.busy = false → s.inReset = false → a < bufSize s.cfg .bits →
      BlockEffect s { s with bitsBuf := s.bitsBuf.writeByte a v }
  | pin (level : Bool) : BlockEffect s (s.drivePin level)

/-- The host's own part of the state changed: the script's position, the pending transactions, what was read, and the
number of free values drawn. -/
def State.hostMoved (s : State) (pending : List Txn) (pos : Nat) (seen : List Reading) (draws : Nat) : State :=
  { s with pending := pending, scriptPos := pos, seen := seen, draws := draws }

/-- A host write of an argument has its effect only while no command runs (R304). -/
theorem inputWrite_next {t : Txn} {f : State → State} {s s' : State} (h : s.inputWrite t f = .next s') :
    s.busy = false ∧ s' = f s := by
  unfold State.inputWrite at h
  split at h
  · cases h
  · rename_i hb; exact ⟨by simpa using hb, by cases h; rfl⟩

/-- Everything a register write can do. -/
theorem writeReg_cases {n : Nat} {v : Word} {s s' : State} (h : s.writeReg n v = .next s') : BlockEffect s s' := by
  unfold State.writeReg at h
  split at h
  · cases h; exact .nothing
  · rename_i hr
    replace hr : s.inReset = false := by simpa using hr
    split at h
    · obtain ⟨hb, rfl⟩ := inputWrite_next h; exact .ctrl v hb hr
    · cases h; exact .cmd v hr
    · cases h; exact .status v hr
    · obtain ⟨hb, rfl⟩ := inputWrite_next h; exact .inLen v hb hr
    · obtain ⟨hb, rfl⟩ := inputWrite_next h; exact .bitLen v hb hr
    · obtain ⟨hb, rfl⟩ := inputWrite_next h; exact .start v hb hr
    · obtain ⟨hb, rfl⟩ := inputWrite_next h; exact .value v hb hr
    · obtain ⟨hb, rfl⟩ := inputWrite_next h; exact .expCount v hb hr
    all_goals cases h; exact .nothing

/-- Everything a buffer write can do. -/
theorem writeBuf_cases {sp : Space} {a : Nat} {v : Byte} {s s' : State} (h : s.writeBuf sp a v = .next s') :
    BlockEffect s s' := by
  unfold State.writeBuf at h
  split at h
  · cases h; exact .nothing
  · rename_i hc
    simp only [Bool.or_eq_true, decide_eq_true_eq, not_or, Nat.not_le, Bool.not_eq_true] at hc
    cases sp with
    | output => cases h; exact .nothing
    | input => obtain ⟨hb, rfl⟩ := inputWrite_next h; exact .inByte a v hb hc.1 hc.2
    | bits => obtain ⟨hb, rfl⟩ := inputWrite_next h; exact .bitsByte a v hb hc.1 hc.2

/-- A register read changes only what the host has seen and the number of draws. -/
theorem readReg_eq (n : Nat) (e : Option Word) (s : State) :
    ∃ x d, s.readReg n e = s.hostMoved s.pending s.scriptPos x d := by
  unfold State.readReg; split
  · exact ⟨_, _, rfl⟩
  · exact ⟨_, s.draws, rfl⟩

/-- A buffer read changes only what the host has seen and the number of draws. -/
theorem readBuf_eq (sp : Space) (a : Nat) (s : State) :
    ∃ x d, s.readBuf sp a = s.hostMoved s.pending s.scriptPos x d := by
  unfold State.readBuf; split
  · exact ⟨_, _, rfl⟩
  · split
    · exact ⟨_, s.draws, rfl⟩
    · split
      · exact ⟨_, _, rfl⟩
      · exact ⟨_, s.draws, rfl⟩

/-- Everything a transaction can do: the host's own part moves, and the block takes one effect. -/
theorem performTxn_cases {t : Txn} {s s' : State} (h : performTxn t s = .next s') :
    ∃ x d, BlockEffect (s.hostMoved s.pending s.scriptPos x d) s' := by
  cases t with
  | regRead n e =>
    obtain ⟨x, d, hx⟩ := readReg_eq n e s
    cases h; exact ⟨x, d, hx ▸ .nothing⟩
  | bufRead sp a =>
    obtain ⟨x, d, hx⟩ := readBuf_eq sp a s
    cases h; exact ⟨x, d, hx ▸ .nothing⟩
  | regWrite n v => exact ⟨s.seen, s.draws, writeReg_cases h⟩
  | bufWrite sp a v => exact ⟨s.seen, s.draws, writeBuf_cases h⟩

/-- Everything the first of a statement's transactions can do. -/
theorem performFirst_cases {ts : List Txn} {s s' : State} (h : performFirst ts s = .next s') :
    ∃ p x d, BlockEffect (s.hostMoved p s.scriptPos x d) s' := by
  cases ts with
  | nil => cases h; exact ⟨s.pending, s.seen, s.draws, .nothing⟩
  | cons t ts => obtain ⟨x, d, hx⟩ := performTxn_cases h; exact ⟨ts, x, d, hx⟩

/-- The last value read of a register draws at most one free value. -/
theorem lastValue_eq (n : Nat) (s : State) : ∃ v d, s.lastValue n = (v, { s with draws := d }) := by
  unfold State.lastValue; split
  · exact ⟨_, s.draws, rfl⟩
  · exact ⟨_, _, rfl⟩

/-- Everything a statement can do. -/
theorem runStmt_cases {st : Stmt} {s s' : State} (h : runStmt st s = .next s') :
    ∃ p k x d, BlockEffect (s.hostMoved p k x d) s' := by
  have base : ∀ {t : State}, (∃ x d, BlockEffect (s.hostMoved s.pending s.scriptPos x d) t) →
      ∃ p k x d, BlockEffect (s.hostMoved p k x d) t := fun ⟨x, d, hx⟩ => ⟨_, _, x, d, hx⟩
  have first : ∀ {ts : List Txn} {t : State}, performFirst ts s = .next t →
      ∃ p k x d, BlockEffect (s.hostMoved p k x d) t := fun h => by
    obtain ⟨p, x, d, hx⟩ := performFirst_cases h; exact ⟨p, _, x, d, hx⟩
  cases st with
  | wr n v => unfold runStmt at h; exact base (performTxn_cases h)
  | rd n e => unfold runStmt at h; exact base (performTxn_cases h)
  | wb sp off bytes => exact first h
  | rb sp off n => exact first h
  | cmd i => unfold runStmt at h; exact base (performTxn_cases h)
  | label l => cases h; exact ⟨s.pending, s.scriptPos, s.seen, s.draws, .nothing⟩
  | bnz n f l =>
    obtain ⟨v, d, hv⟩ := lastValue_eq n s
    simp only [runStmt, branchNonZero, hv] at h
    split at h
    · split at h
      · cases h; exact ⟨s.pending, _, s.seen, d, .nothing⟩
      · cases h
    · cases h; exact ⟨s.pending, s.scriptPos, s.seen, d, .nothing⟩
  | wrOld n f v =>
    obtain ⟨old, d, hv⟩ := lastValue_eq n s
    simp only [runStmt, hv] at h
    obtain ⟨x, d', hx⟩ := performTxn_cases h
    exact ⟨s.pending, s.scriptPos, x, d', hx⟩
  | busRegWr addr n v =>
    simp only [runStmt, busRegTxn] at h
    split at h
    · exact base (performTxn_cases h)
    · cases h
  | busRegRd addr n =>
    simp only [runStmt, busRegTxn] at h
    split at h
    · exact base (performTxn_cases h)
    · cases h
  | busBufWr sp addr n v =>
    simp only [runStmt, busBufTxns] at h
    split at h
    · exact first h
    · cases h
  | busBufRd sp addr n =>
    simp only [runStmt, busBufTxns] at h
    split at h
    · exact first h
    · cases h
  | resetPin level => cases h; exact ⟨s.pending, s.scriptPos, s.seen, s.draws, .pin level⟩

/-- Everything a host step can do: the host's own part moves, and the block takes one effect. -/
theorem hostStep_cases {s s' : State} (h : hostStep s = .next s') :
    ∃ p k x d, BlockEffect (s.hostMoved p k x d) s' := by
  unfold hostStep at h
  split at h
  · obtain ⟨x, d, hx⟩ := performTxn_cases h; exact ⟨_, _, x, d, hx⟩
  · split at h
    · obtain ⟨p, k, x, d, hx⟩ := runStmt_cases h; exact ⟨p, k, x, d, hx⟩
    · cases h; exact ⟨s.pending, s.scriptPos, s.seen, s.draws, .nothing⟩

/-- Everything a step can do: a host step, with the latency counted down in EXEC, or the completion of the latched
command, when no latency is left or the host has nothing left to do. -/
theorem step_cases {s s' : State} (h : step s = .next s') :
    (s.phase = .idle ∧ hostStep s = .next s') ∨
    (∃ op n, s.phase = .exec op (n + 1) ∧ hostStep { s with phase := .exec op n } = .next s') ∨
    ∃ op n, s.phase = .exec op n ∧ (n = 0 ∨ s.hostDone = true) ∧ completeOp op s = .next s' := by
  unfold step at h
  split at h
  · exact .inl ⟨‹_›, h⟩
  · exact .inr (.inr ⟨_, 0, ‹_›, .inl rfl, h⟩)
  · split at h
    · exact .inr (.inr ⟨_, _, ‹_›, .inr ‹_›, h⟩)
    · exact .inr (.inl ⟨_, _, ‹_›, h⟩)

/-- Everything a completed command can do: its own results, or the failure of its write set (R280, R281). -/
theorem exec_cases {i : Instr} {s t : State} (h : exec i s = .next t) :
    (t.err = none ∧ exec i s = .next t) ∨ ∃ e, t = (s.failWriteSet i).finish (some e) := by
  cases i
  case bytesOf => cases h; exact .inl ⟨rfl, rfl⟩
  case bitsOf => cases h; exact .inl ⟨rfl, rfl⟩
  all_goals
    have h' := h
    simp only [exec, execValueOfBytes, execValueOfBits, execFrame, execUnframe, execBuild, execFreq, execLookup,
      execSerialize, execDeserialize, execEncode, execDecode] at h'
    obtain ⟨x, _, rfl⟩ | ⟨e, _, rfl⟩ := complete_cases h'
    · exact .inl ⟨rfl, h⟩
    · exact .inr ⟨e, rfl⟩

end Sys2Proof.Machine
end

