-- ==== Sys2Proof/Laws/TreeBuilder.lean ====
section
/-! SUPPORT. What the reading and the counting of symbols compute (spec/42_tree_builder.md rules R162 to R164), and the
insertion of a node into the working list (R167). -/

namespace Sys2Proof.Machine

/-- Collecting results that all succeed. -/
theorem mapM_ok {α β ε : Type} {f : α → Except ε β} {g : α → β} (l : List α) (h : ∀ a ∈ l, f a = .ok (g a)) :
    l.mapM f = .ok (l.map g) := by
  induction l with
  | nil => rfl
  | cons a l ih =>
    rw [List.mapM_cons, h a (.head _), ih fun b hb => h b (.tail _ hb)]
    rfl

/-- A part of the bytes of a buffer. -/
theorem Buffer.take_drop_readBytes (b : Buffer) {n k m : Nat} (h : k + m ≤ n) :
    ((b.readBytes 0 n).drop k).take m = b.readBytes k m := by
  apply List.ext_getElem
  · simp; omega
  · intro i h1 h2
    simp [Buffer.readBytes]

/-- `read_symbols` of an input of whole symbols is the list of its symbols (R162). -/
theorem readSymbols_ok (s : State) (h : s.inLen.toNat % s.cfg.symBytes = 0) :
    readSymbols s.cfg s.inSeq = .ok s.inputSymbols := by
  unfold readSymbols
  rw [length_inSeq, if_neg (not_not.2 h)]
  refine mapM_ok _ fun i hi => ?_
  have hi := List.mem_range.1 hi
  have hle : i * s.cfg.symBytes + s.cfg.symBytes ≤ s.inLen.toNat := by
    have h1 : (i + 1) * s.cfg.symBytes ≤ s.inLen.toNat / s.cfg.symBytes * s.cfg.symBytes := Nat.mul_le_mul_right _ hi
    have h2 := Nat.div_mul_le_self s.inLen.toNat s.cfg.symBytes
    rw [Nat.add_mul, Nat.one_mul] at h1
    omega
  rw [valueOfBytes_ok _ (by simpa using hle), State.inSeq, Buffer.take_drop_readBytes _ hle]

/-- A final partial symbol is a truncation (R162). -/
theorem readSymbols_error (s : State) (h : s.inLen.toNat % s.cfg.symBytes ≠ 0) :
    readSymbols s.cfg s.inSeq = .error .truncatedInput := by
  unfold readSymbols
  rw [length_inSeq, if_pos h]

@[simp] theorem State.length_inputSymbols (s : State) : s.inputSymbols.length = s.inLen.toNat / s.cfg.symBytes := by
  simp [State.inputSymbols]

/-- A table in ascending symbol order, no present symbol with a count of 0. -/
def FreqTable.sorted (ft : FreqTable) : Prop :=
  List.Pairwise (fun x y : Symbol × Count => x.1.toNat < y.1.toNat) ft ∧ ∀ e ∈ ft, e.2 ≠ 0

/-- Counting the symbols `syms` on top of the table wraps no counter (R164). -/
def FreqTable.roomFor (ft : FreqTable) (syms : List Symbol) : Prop :=
  ∀ x, (FreqTable.count ft x).toNat + syms.count x < 2 ^ freqWidth

theorem FreqTable.count_cons (t : Symbol) (n : Count) (ft : FreqTable) (x : Symbol) :
    FreqTable.count ((t, n) :: ft) x = if x = t then n else FreqTable.count ft x := by
  unfold FreqTable.count
  rw [List.lookup_cons]
  by_cases h : x = t
  · simp [h]
  · rw [beq_false_of_ne h]; simp [h]

/-- Of a symbol that is not in the table the count is 0. -/
theorem FreqTable.count_of_not_mem {ft : FreqTable} {x : Symbol} (h : x ∉ ft.map Prod.fst) :
    FreqTable.count ft x = 0 := by
  induction ft with
  | nil => rfl
  | cons e ft ih =>
    rw [List.map_cons, List.mem_cons, not_or] at h
    rw [FreqTable.count_cons e.1 e.2, if_neg h.1, ih h.2]

/-- Of an entry's symbol the count is the entry's. -/
theorem FreqTable.count_of_mem {ft : FreqTable} (hs : (ft.map Prod.fst).Nodup) {e : Symbol × Count} (h : e ∈ ft) :
    FreqTable.count ft e.1 = e.2 := by
  induction ft with
  | nil => cases h
  | cons f ft ih =>
    rw [List.map_cons, List.nodup_cons] at hs
    rw [FreqTable.count_cons f.1 f.2]
    rcases List.mem_cons.1 h with rfl | h
    · simp
    · rw [if_neg (fun he => hs.1 (by rw [← he]; exact List.mem_map_of_mem h)), ih hs.2 h]

/-- A sorted table lists no symbol twice. -/
theorem FreqTable.sorted.nodup {ft : FreqTable} (h : ft.sorted) : (ft.map Prod.fst).Nodup := by
  rw [List.Nodup, List.pairwise_map]
  exact h.1.imp fun hlt he => by rw [he] at hlt; exact lt_irrefl _ hlt

/-- In a sorted table a symbol is present exactly when its count is not 0 (R45). -/
theorem FreqTable.sorted.mem_iff {ft : FreqTable} (h : ft.sorted) (x : Symbol) :
    x ∈ ft.map Prod.fst ↔ FreqTable.count ft x ≠ 0 := by
  constructor
  · intro hx
    obtain ⟨e, he, rfl⟩ := List.mem_map.1 hx
    rw [FreqTable.count_of_mem h.nodup he]
    exact h.2 e he
  · intro hx
    by_contra hn
    exact hx (FreqTable.count_of_not_mem hn)

/-- The symbols of a table after one is counted. -/
theorem FreqTable.mem_bump (ft : FreqTable) (s x : Symbol) :
    x ∈ (FreqTable.bump ft s).map Prod.fst ↔ x = s ∨ x ∈ ft.map Prod.fst := by
  induction ft with
  | nil => simp [FreqTable.bump]
  | cons e ft ih =>
    obtain ⟨t, n⟩ := e
    unfold FreqTable.bump
    split_ifs with h1 h2
    · simp
    · subst h2; simp
    · rw [List.map_cons, List.mem_cons, ih, List.map_cons, List.mem_cons]; tauto

/-- A symbol below the first entry of a sorted table is absent. -/
theorem FreqTable.sorted.count_below {t : Symbol} {n : Count} {ft : FreqTable} (h : FreqTable.sorted ((t, n) :: ft))
    {s : Symbol} (hlt : s.toNat < t.toNat) : FreqTable.count ((t, n) :: ft) s = 0 := by
  apply FreqTable.count_of_not_mem
  intro hm
  rcases List.mem_cons.1 hm with he | hm
  · rw [he] at hlt; exact lt_irrefl _ hlt
  · obtain ⟨z, hz, he⟩ := List.mem_map.1 hm
    have h1 : t.toNat < z.1.toNat := (List.pairwise_cons.1 h.1).1 z hz
    rw [he] at h1
    omega

/-- Counting one symbol raises its counter by one, with wrap-around, and no other (R163). -/
theorem FreqTable.sorted.count_bump {ft : FreqTable} (h : ft.sorted) (s x : Symbol) :
    FreqTable.count (FreqTable.bump ft s) x = FreqTable.count ft x + if x = s then 1 else 0 := by
  induction ft with
  | nil => rw [FreqTable.bump, FreqTable.count_cons]; simp [FreqTable.count]
  | cons e ft ih =>
    obtain ⟨t, n⟩ := e
    have hs : FreqTable.sorted ft := ⟨(List.pairwise_cons.1 h.1).2, fun e he => h.2 e (.tail _ he)⟩
    unfold FreqTable.bump
    by_cases c1 : s.toNat < t.toNat
    · rw [if_pos c1, FreqTable.count_cons]
      by_cases hx : x = s
      · rw [if_pos hx, if_pos hx, hx, h.count_below c1]; rfl
      · rw [if_neg hx, if_neg hx, add_zero]
    · rw [if_neg c1]
      by_cases c2 : s = t
      · rw [if_pos c2, FreqTable.count_cons, FreqTable.count_cons, c2]
        by_cases hx : x = t
        · rw [if_pos hx, if_pos hx, if_pos hx]
        · rw [if_neg hx, if_neg hx, if_neg hx, add_zero]
      · rw [if_neg c2, FreqTable.count_cons, FreqTable.count_cons, ih hs]
        by_cases hx : x = t
        · rw [if_pos hx, if_pos hx, if_neg (fun he => c2 (he.symm.trans hx)), add_zero]
        · rw [if_neg hx, if_neg hx]

/-- The counts after one symbol, where no counter wraps. -/
theorem FreqTable.sorted.toNat_count_bump {ft : FreqTable} (h : ft.sorted) {s : Symbol} {syms : List Symbol}
    (hr : ft.roomFor (s :: syms)) (x : Symbol) :
    (FreqTable.count (FreqTable.bump ft s) x).toNat = (FreqTable.count ft x).toNat + if x = s then 1 else 0 := by
  have hx := hr x
  rw [h.count_bump]
  by_cases he : x = s
  · subst he
    rw [List.count_cons_self] at hx
    rw [if_pos rfl, if_pos rfl, BitVec.toNat_add, Nat.mod_eq_of_lt]
    · rfl
    · simp at hx ⊢
      omega
  · rw [if_neg he, if_neg he, add_zero, Nat.add_zero]

/-- Room for a symbol and those after it is, after that symbol, room for those after it. -/
theorem FreqTable.sorted.roomFor_bump {ft : FreqTable} (h : ft.sorted) {s : Symbol} {syms : List Symbol}
    (hr : ft.roomFor (s :: syms)) : FreqTable.roomFor (FreqTable.bump ft s) syms := by
  intro x
  have hx := hr x
  rw [h.toNat_count_bump hr]
  rw [List.count_cons] at hx
  by_cases he : x = s
  · subst he; simp at hx ⊢; omega
  · have he' : ¬ s = x := fun e => he e.symm
    simpa [he, he'] using hx

/-- Counting one symbol keeps the table sorted, where no counter wraps. -/
theorem FreqTable.sorted.bump {ft : FreqTable} (h : ft.sorted) {s : Symbol} {syms : List Symbol}
    (hr : ft.roomFor (s :: syms)) : (FreqTable.bump ft s).sorted := by
  have hp : List.Pairwise (fun x y : Symbol × Count => x.1.toNat < y.1.toNat) (FreqTable.bump ft s) := by
    clear hr
    induction ft with
    | nil => exact List.pairwise_singleton _ _
    | cons e ft ih =>
      obtain ⟨t, n⟩ := e
      have h1 := List.pairwise_cons.1 h.1
      unfold FreqTable.bump
      split_ifs with c1 c2
      · refine List.pairwise_cons.2 ⟨fun y hy => ?_, h.1⟩
        rcases List.mem_cons.1 hy with rfl | hy
        · exact c1
        · exact lt_trans c1 (h1.1 y hy)
      · exact List.pairwise_cons.2 h1
      · refine List.pairwise_cons.2 ⟨fun y hy => ?_, ih ⟨h1.2, fun e he => h.2 e (.tail _ he)⟩⟩
        rcases (FreqTable.mem_bump ft s y.1).1 (List.mem_map_of_mem hy) with he | hm
        · have : t.toNat ≠ s.toNat := fun e => c2 (BitVec.eq_of_toNat_eq e.symm)
          show t.toNat < y.1.toNat
          rw [he]
          omega
        · obtain ⟨z, hz, hzy⟩ := List.mem_map.1 hm
          rw [← hzy]
          exact h1.1 z hz
  have hnd : ((FreqTable.bump ft s).map Prod.fst).Nodup := by
    rw [List.Nodup, List.pairwise_map]
    exact hp.imp fun hlt he => by rw [he] at hlt; exact lt_irrefl _ hlt
  refine ⟨hp, fun e he h0 => ?_⟩
  have h1 := h.toNat_count_bump hr e.1
  rw [FreqTable.count_of_mem hnd he, h0] at h1
  rcases (FreqTable.mem_bump ft s e.1).1 (List.mem_map_of_mem he) with hs | hm
  · rw [if_pos hs] at h1; simp at h1
  · apply (h.mem_iff e.1).1 hm
    apply BitVec.eq_of_toNat_eq
    simp at h1 ⊢
    omega

/-- How many symbols a table holds after one is counted. -/
theorem FreqTable.sorted.length_bump {ft : FreqTable} (h : ft.sorted) (s : Symbol) :
    List.length (FreqTable.bump ft s) = List.length ft + if FreqTable.count ft s = 0 then 1 else 0 := by
  induction ft with
  | nil => simp [FreqTable.bump, FreqTable.count]
  | cons e ft ih =>
    obtain ⟨t, n⟩ := e
    have hs : FreqTable.sorted ft := ⟨(List.pairwise_cons.1 h.1).2, fun e he => h.2 e (.tail _ he)⟩
    have hn : n ≠ 0 := h.2 (t, n) (.head _)
    unfold FreqTable.bump
    by_cases c1 : s.toNat < t.toNat
    · rw [if_pos c1, if_pos (h.count_below c1)]; rfl
    · rw [if_neg c1]
      by_cases c2 : s = t
      · rw [if_pos c2, c2, FreqTable.count_cons, if_pos rfl, if_neg hn]; rfl
      · rw [if_neg c2, List.length_cons, ih hs, FreqTable.count_cons, if_neg c2, List.length_cons]
        omega

/-- Two sorted tables with the same counts are the same table. -/
theorem FreqTable.sorted.ext {ft gt : FreqTable} (hf : ft.sorted) (hg : gt.sorted)
    (h : ∀ x, FreqTable.count ft x = FreqTable.count gt x) : ft = gt := by
  have key : ∀ {a b : FreqTable}, a.sorted → b.sorted → (∀ x, FreqTable.count a x = FreqTable.count b x) →
      ∀ e ∈ a, e ∈ b := by
    intro a b ha hb hab e he
    have h1 : e.1 ∈ b.map Prod.fst := by
      rw [hb.mem_iff, ← hab, ← ha.mem_iff]
      exact List.mem_map_of_mem he
    obtain ⟨z, hz, hze⟩ := List.mem_map.1 h1
    have h2 : z.2 = e.2 := by
      rw [← FreqTable.count_of_mem hb.nodup hz, hze, ← hab, FreqTable.count_of_mem ha.nodup he]
    have : z = e := Prod.ext hze h2
    exact this ▸ hz
  refine List.Perm.eq_of_pairwise (le := fun x y : Symbol × Count => x.1.toNat < y.1.toNat) ?_ hf.1 hg.1 ?_
  · intro a b _ _ h1 h2
    exact absurd h1 (by omega)
  · rw [List.perm_ext_iff_of_nodup (List.Nodup.of_map _ hf.nodup) (List.Nodup.of_map _ hg.nodup)]
    exact fun e => ⟨key hf hg h e, key hg hf (fun x => (h x).symm) e⟩

/-- The counts of the counting loop where no counter wraps (R163, R164). -/
theorem foldl_bump_spec (syms : List Symbol) : ∀ {ft : FreqTable}, ft.sorted → ft.roomFor syms →
    (syms.foldl FreqTable.bump ft).sorted ∧
    ∀ x, (FreqTable.count (syms.foldl FreqTable.bump ft) x).toNat =
      (FreqTable.count ft x).toNat + syms.count x := by
  induction syms with
  | nil => intro ft h _; exact ⟨h, by simp⟩
  | cons s syms ih =>
    intro ft h hr
    obtain ⟨i1, i2⟩ := ih (h.bump hr) (h.roomFor_bump hr)
    refine ⟨i1, fun x => ?_⟩
    rw [List.foldl_cons, i2, h.toNat_count_bump hr, List.count_cons]
    by_cases hx : x = s
    · subst hx; simp; omega
    · have hx' : ¬ s = x := fun e => hx e.symm
      simp [hx, hx']

/-- An input has fewer symbols than a counter has values (R164). -/
theorem State.count_inputSymbols_lt (s : State) (x : Symbol) : s.inputSymbols.count x < 2 ^ freqWidth := by
  have h1 : s.inputSymbols.count x ≤ s.inputSymbols.length := List.count_le_length
  rw [State.length_inputSymbols] at h1
  have h2 := Nat.div_le_self s.inLen.toNat s.cfg.symBytes
  have h3 : s.inLen.toNat < 2 ^ freqWidth := s.inLen.isLt
  omega

/-- The input's table is sorted and holds the number of occurrences of every symbol (R164). -/
theorem State.inputTable_spec (s : State) :
    s.inputTable.sorted ∧ (∀ x, (FreqTable.count s.inputTable x).toNat = s.inputSymbols.count x) ∧
      List.length s.inputTable = s.inputSymbols.dedup.length := by
  have hp := List.perm_insertionSort (fun x y : Symbol => x.toNat ≤ y.toNat) s.inputSymbols.dedup
  have hnd : (s.inputSymbols.dedup.insertionSort fun x y => x.toNat ≤ y.toNat).Nodup :=
    hp.nodup_iff.2 (List.nodup_dedup _)
  have hkeys : s.inputTable.map Prod.fst = s.inputSymbols.dedup.insertionSort fun x y => x.toNat ≤ y.toNat := by
    simp [State.inputTable, List.map_map, Function.comp_def]
  have hnat : ∀ x, (BitVec.ofNat freqWidth (s.inputSymbols.count x)).toNat = s.inputSymbols.count x := fun x => by
    rw [BitVec.toNat_ofNat, Nat.mod_eq_of_lt (s.count_inputSymbols_lt x)]
  have hs : s.inputTable.sorted := by
    refine ⟨?_, ?_⟩
    · have hsorted : List.Pairwise (fun x y : Symbol => x.toNat ≤ y.toNat)
          (s.inputSymbols.dedup.insertionSort fun x y => x.toNat ≤ y.toNat) := by
        have : Std.Total (fun x y : Symbol => x.toNat ≤ y.toNat) := ⟨fun a b => Nat.le_total _ _⟩
        have : IsTrans Symbol (fun x y => x.toNat ≤ y.toNat) := ⟨fun _ _ _ h1 h2 => Nat.le_trans h1 h2⟩
        exact List.pairwise_insertionSort _ _
      rw [State.inputTable, List.pairwise_map]
      exact (hsorted.and hnd).imp fun h =>
        lt_of_le_of_ne h.1 fun e => h.2 (BitVec.eq_of_toNat_eq e)
    · intro e he h0
      obtain ⟨x, hx, rfl⟩ := List.mem_map.1 he
      have hpos : 0 < s.inputSymbols.count x := List.count_pos_iff.2 (List.mem_dedup.1 (hp.mem_iff.1 hx))
      have := hnat x
      rw [show BitVec.ofNat freqWidth (s.inputSymbols.count x) = 0 from h0] at this
      simp at this
      omega
  refine ⟨hs, fun x => ?_, ?_⟩
  · by_cases hx : x ∈ s.inputSymbols
    · have : (x, BitVec.ofNat freqWidth (s.inputSymbols.count x)) ∈ s.inputTable :=
        List.mem_map.2 ⟨x, hp.mem_iff.2 (List.mem_dedup.2 hx), rfl⟩
      exact (congrArg BitVec.toNat (FreqTable.count_of_mem hs.nodup this)).trans (hnat x)
    · rw [List.count_eq_zero_of_not_mem hx, FreqTable.count_of_not_mem]
      · rfl
      · rw [hkeys]
        exact fun h => hx (List.mem_dedup.1 (hp.mem_iff.1 h))
  · simp [State.inputTable, hp.length_eq]

/-- A table only grows while symbols are counted. -/
theorem length_foldl_bump_le (syms : List Symbol) : ∀ {ft : FreqTable}, ft.sorted → ft.roomFor syms →
    List.length ft ≤ List.length (syms.foldl FreqTable.bump ft) := by
  induction syms with
  | nil => intro ft _ _; exact le_refl _
  | cons s syms ih =>
    intro ft h hr
    have h1 := ih (h.bump hr) (h.roomFor_bump hr)
    rw [h.length_bump] at h1
    exact le_trans (Nat.le_add_right _ _) h1

/-- The counting loop fails exactly when the finished table would be too long (R163). -/
theorem countFrom_eq (c : Config) (syms : List Symbol) : ∀ {ft : FreqTable}, ft.sorted → ft.roomFor syms →
    List.length ft ≤ c.maxDistinct →
    countFrom c syms ft = if List.length (syms.foldl FreqTable.bump ft) > c.maxDistinct then .error .capacity
      else .ok (syms.foldl FreqTable.bump ft) := by
  induction syms with
  | nil => intro ft _ _ hl; rw [countFrom, List.foldl_nil, if_neg (by omega)]
  | cons s syms ih =>
    intro ft h hr hl
    have hgrow := length_foldl_bump_le syms (h.bump hr) (h.roomFor_bump hr)
    rw [h.length_bump] at hgrow
    unfold countFrom
    by_cases hc : FreqTable.count ft s = 0 ∧ List.length ft = c.maxDistinct
    · rw [if_pos hc, List.foldl_cons, if_pos]
      rw [if_pos hc.1] at hgrow
      omega
    · rw [if_neg hc, List.foldl_cons]
      refine ih (h.bump hr) (h.roomFor_bump hr) ?_
      rw [h.length_bump]
      split_ifs with h0
      · have : List.length ft ≠ c.maxDistinct := fun e => hc ⟨h0, e⟩
        omega
      · omega

/-- `count_freq` of an input: its table, or CAPACITY for too many distinct symbols (R163, R164). -/
theorem countFreq_eq (s : State) (c : Config) :
    countFreq c s.inputSymbols = if s.inputSymbols.dedup.length > c.maxDistinct then .error .capacity
      else .ok s.inputTable := by
  have h0 : FreqTable.sorted [] := ⟨List.Pairwise.nil, by simp⟩
  have hr : FreqTable.roomFor [] s.inputSymbols := fun x => by
    simpa [FreqTable.count] using s.count_inputSymbols_lt x
  obtain ⟨h1, h2⟩ := foldl_bump_spec s.inputSymbols h0 hr
  obtain ⟨h3, h4, h5⟩ := s.inputTable_spec
  have he : s.inputSymbols.foldl FreqTable.bump [] = s.inputTable :=
    h1.ext h3 fun x => BitVec.eq_of_toNat_eq (by rw [h2, h4]; simp [FreqTable.count])
  unfold countFreq
  rw [countFrom_eq c s.inputSymbols h0 hr (Nat.zero_le _), he, h5]

/-- What the builder makes of an input (R162 to R170). -/
theorem buildFrom_eq (s : State) :
    buildFrom s.cfg s.inSeq =
      if s.inLen.toNat % s.cfg.symBytes ≠ 0 then .error .truncatedInput
      else if s.inputSymbols.dedup.length > s.cfg.maxDistinct then .error .capacity
      else .ok
        { syms := s.inputSymbols, freqTable := s.inputTable,
          tree := (mergeLoop s.inputTable (makeLeaves s.cfg s.inputTable)).1,
          codeTable := (mergeLoop s.inputTable (makeLeaves s.cfg s.inputTable)).2 } := by
  unfold buildFrom
  by_cases h : s.inLen.toNat % s.cfg.symBytes = 0
  · rw [readSymbols_ok s h, if_neg (not_not.2 h)]
    show (countFreq s.cfg s.inputSymbols >>= _) = _
    rw [countFreq_eq s s.cfg]
    split_ifs <;> rfl
  · rw [readSymbols_error s h, if_pos h]; rfl

end Sys2Proof.Machine
end

