-- ==== Sys2Proof/Laws/StreamCodec.lean ====
section
/-! SUPPORT. What the deserializer, the emitter and the walk can do (spec/43_tree_serdes.md rule R203,
spec/44_stream_codec.md rules R240 to R249). -/

namespace Sys2Proof.Machine

/-- The bits of the symbol read from a stream are the stream's (R122, R123). -/
theorem bitsOf_valueOfBits {c : Config} (hw : c.w ≤ 64) {bits : Bits} {start : Nat} {v : Symbol}
    (h : valueOfBits c bits start = .ok v) : bitsOf c v = (bits.drop start).take c.w := by
  have hle : start + c.w ≤ bits.length := by
    by_contra hn
    rw [valueOfBits_error c (by omega)] at h
    cases h
  apply List.ext_getElem
  · simp; omega
  · intro i h1 h2
    have hi : i < c.w := by simpa using h1
    have hi' : symbolBit i < c.w := symbolBit_lt hi
    have hb := getLsbD_of_valueOfBits c h (p := symbolBit i) (by omega)
    rw [symbolBit_symbolBit] at hb
    simp only [bitsOf, List.getElem_map, List.getElem_range, List.getElem_take, List.getElem_drop]
    rw [hb, List.getD_eq_getElem?_getD, List.getElem?_eq_getElem (by omega)]
    simp [hi']

/-- The symbol read from a stream is a `W`-bit value (R123). -/
theorem valueOfBits_lt {c : Config} {bits : Bits} {start : Nat} {v : Symbol}
    (h : valueOfBits c bits start = .ok v) : v.toNat < 2 ^ c.w := by
  unfold valueOfBits at h
  split_ifs at h
  cases h
  rw [BitVec.toNat_ofNat]
  refine lt_of_le_of_lt (Nat.mod_le _ _) (lt_of_lt_of_le (lsbValue_lt _) ?_)
  simp

/-- Everything a successful `node()` can do (R203): from cursor `cur` and `count` nodes it reads exactly the bits of the
tree it gives, whose leaves are `W`-bit symbols and whose frequencies are 0, and it counts the tree's nodes up to
`NODE_CAP`. -/
theorem deserNode_sound {c : Config} (hw : c.w ≤ 64) (bits : Bits) : ∀ {depth cur count : Nat} {t : CodeTree}
    {cur' count' : Nat}, deserNode c bits depth cur count = .ok (t, cur', count') → count ≤ c.nodeCap →
    bits.drop cur = t.ser c ++ bits.drop cur' ∧ cur' = cur + (t.ser c).length ∧ cur' ≤ bits.length ∧
      count' = count + t.nodes ∧ count' ≤ c.nodeCap ∧ t.symsFit c ∧ t.shape = t := by
  intro depth
  induction depth with
  | zero => intro cur count t cur' count' h; simp [deserNode] at h
  | succ depth ih =>
    intro cur count t cur' count' h hc
    rw [deserNode] at h
    by_cases hcur : cur < bits.length
    · rw [List.getElem?_eq_getElem hcur] at h
      have hdrop : bits.drop cur = bits[cur] :: bits.drop (cur + 1) := List.drop_eq_getElem_cons hcur
      dsimp only at h
      by_cases hcap : count = c.nodeCap
      · rw [if_pos hcap] at h; cases h
      · rw [if_neg hcap] at h
        by_cases htag : bits[cur] = true
        · rw [if_pos htag] at h
          cases hv : valueOfBits c bits (cur + 1) with
          | error e => rw [hv] at h; cases h
          | ok sym =>
            rw [hv] at h
            cases h
            have hle : cur + 1 + c.w ≤ bits.length := by
              by_contra hn
              rw [valueOfBits_error c (by omega)] at hv
              cases hv
            refine ⟨?_, ?_, hle, rfl, by omega, ?_, rfl⟩
            · rw [hdrop, htag, CodeTree.ser, bitsOf_valueOfBits hw hv, List.cons_append,
                ← List.drop_drop (j := cur + 1), List.take_append_drop]
            · simp [CodeTree.ser]; omega
            · intro x hx
              rw [CodeTree.syms, List.mem_singleton] at hx
              rw [hx]
              exact valueOfBits_lt hv
        · rw [if_neg htag] at h
          cases hl : deserNode c bits depth (cur + 1) (count + 1) with
          | error e => rw [hl] at h; cases h
          | ok p =>
            obtain ⟨l, curL, countL⟩ := p
            rw [hl] at h
            obtain ⟨l1, l2, l3, l4, l5, l6, l7⟩ := ih hl (by omega)
            change (deserNode c bits depth curL countL >>= _) = _ at h
            cases hr : deserNode c bits depth curL countL with
            | error e => rw [hr] at h; cases h
            | ok q =>
              obtain ⟨r, curR, countR⟩ := q
              rw [hr] at h
              cases h
              obtain ⟨r1, r2, r3, r4, r5, r6, r7⟩ := ih hr (by omega)
              dsimp only
              have hfalse : bits[cur] = false := by simpa using htag
              refine ⟨?_, ?_, r3, ?_, r5, ?_, ?_⟩
              · rw [hdrop, hfalse, l1, r1, CodeTree.ser, List.cons_append, List.append_assoc]
              · rw [CodeTree.ser, List.length_cons, List.length_append]; omega
              · rw [CodeTree.nodes]; omega
              · intro x hx
                rw [CodeTree.syms, List.mem_append] at hx
                exact hx.elim (l6 x) (r6 x)
              · rw [CodeTree.shape, l7, r7]
    · rw [List.getElem?_eq_none (by omega)] at h
      cases h

/-- A failed `node()` raises MALFORMED_TREE or CAPACITY (R203, R272, R274). -/
theorem deserNode_error {c : Config} (bits : Bits) : ∀ {depth cur count : Nat} {e : ErrKind},
    deserNode c bits depth cur count = .error e → e = .malformedTree ∨ e = .capacity := by
  intro depth
  induction depth with
  | zero => intro cur count e h; cases h; exact .inl rfl
  | succ depth ih =>
    intro cur count e h
    rw [deserNode] at h
    cases hb : bits[cur]? with
    | none => rw [hb] at h; cases h; exact .inl rfl
    | some tag =>
      rw [hb] at h
      dsimp only at h
      by_cases hcap : count = c.nodeCap
      · rw [if_pos hcap] at h; cases h; exact .inr rfl
      · rw [if_neg hcap] at h
        cases tag with
        | true =>
          rw [if_pos rfl] at h
          cases hv : valueOfBits c bits (cur + 1) with
          | error e => rw [hv] at h; cases h; exact .inl rfl
          | ok sym => rw [hv] at h; cases h
        | false =>
          rw [if_neg Bool.false_ne_true] at h
          cases hl : deserNode c bits depth (cur + 1) (count + 1) with
          | error e' => rw [hl] at h; cases h; exact ih hl
          | ok p =>
            obtain ⟨l, curL, countL⟩ := p
            rw [hl] at h
            change (deserNode c bits depth curL countL >>= _) = _ at h
            cases hr : deserNode c bits depth curL countL with
            | error e' => rw [hr] at h; cases h; exact ih hr
            | ok q => rw [hr] at h; cases h

/-- Everything `emit` can do (R249). -/
theorem emit_cases (c : Config) (out : List Symbol) (s : Symbol) :
    (c.outCap < (out.length + 1) * c.symBytes ∧ emit c out s = .error .capacity) ∨
      ((out.length + 1) * c.symBytes ≤ c.outCap ∧ emit c out s = .ok (out ++ [s])) := by
  unfold emit
  by_cases h : (out.length + 1) * c.symBytes > c.outCap
  · exact .inl ⟨h, if_pos h⟩
  · exact .inr ⟨by omega, if_neg h⟩

/-- Everything the repeated emission of a single leaf can do (R244): it fails when the symbols do not all fit. -/
theorem emitRepeat_eq (c : Config) (s : Symbol) (n : Nat) : ∀ {out : List Symbol}, out.length * c.symBytes ≤ c.outCap →
    emitRepeat c s n out = if (out.length + n) * c.symBytes > c.outCap then .error .capacity
      else .ok (out ++ List.replicate n s) := by
  induction n with
  | zero => intro out h; rw [emitRepeat, Nat.add_zero, if_neg (by omega)]; simp
  | succ n ih =>
    intro out h
    rw [emitRepeat]
    rcases emit_cases c out s with ⟨h1, h2⟩ | ⟨h1, h2⟩
    · rw [h2, if_pos]
      · rfl
      · have : (out.length + 1) * c.symBytes ≤ (out.length + (n + 1)) * c.symBytes := Nat.mul_le_mul_right _ (by omega)
        omega
    · rw [h2]
      change emitRepeat c s n (out ++ [s]) = _
      rw [ih (by simpa using h1), List.length_append, List.length_singleton, Nat.add_assoc, Nat.add_comm 1 n]
      by_cases h3 : (out.length + (n + 1)) * c.symBytes > c.outCap
      · rw [if_pos h3, if_pos h3]
      · rw [if_neg h3, if_neg h3, List.append_assoc, List.replicate_succ]; rfl

/-- What a walk has emitted stays inside OUT and extends what it started from (R249), and it fails only with CAPACITY or
TRUNCATED_PAYLOAD (R251). -/
theorem walk_cases (c : Config) (acceptTrunc : Bool) (root : CodeTree) (rest : Bits) :
    ∀ (node : CodeTree) (d : Nat) (out : List Symbol), out.length * c.symBytes ≤ c.outCap →
      (∃ out' part, walk c acceptTrunc root rest node d out = .ok (out', part) ∧ out <+: out' ∧
        out'.length * c.symBytes ≤ c.outCap ∧ (part = true → acceptTrunc = true)) ∨
      walk c acceptTrunc root rest node d out = .error .capacity ∨
      (walk c acceptTrunc root rest node d out = .error .truncatedPayload ∧ acceptTrunc = false) := by
  induction rest with
  | nil =>
    intro node d out h
    rw [walk]
    by_cases hd : d = 0
    · exact .inl ⟨out, false, if_pos hd, List.prefix_refl _, h, by simp⟩
    · rw [if_neg hd]
      cases acceptTrunc with
      | true => exact .inl ⟨out, true, rfl, List.prefix_refl _, h, fun _ => rfl⟩
      | false => exact .inr (.inr ⟨rfl, rfl⟩)
  | cons b rest ih =>
    intro node d out h
    rw [walk]
    cases node.child b with
    | leaf s f =>
      dsimp only
      rcases emit_cases c out s with ⟨-, h2⟩ | ⟨h1, h2⟩
      · rw [h2]; exact .inr (.inl rfl)
      · rw [h2]
        change (∃ out' part, walk c acceptTrunc root rest root 0 (out ++ [s]) = .ok (out', part) ∧ _) ∨ _
        rcases ih root 0 (out ++ [s]) (by simpa using h1) with ⟨out', part, e, p, q, r⟩ | e
        · exact .inl ⟨out', part, e, (List.prefix_append out [s]).trans p, q, r⟩
        · exact .inr e
    | node l r f => exact ih _ _ out h

end Sys2Proof.Machine
end

