-- ==== Sys2Proof/Tests/Slice0.lean ====
section
/-! SUPPORT. Small tests of single steps, their expected values taken from spec/95_test_vectors.md and the rules' own
examples; the smoke tests of WellFormed; and, for the statements with hypotheses, a state that meets them all. -/

namespace Sys2Proof.Tests

open Sys2Proof Sys2Proof.Machine

/-- A field of the next state, if there is one. -/
def get {α : Type} (o : Host.Outcome State Fault Refusal) (f : State → α) : Option α :=
  match o with
  | .next t => some (f t)
  | .fault _ => none
  | .refused _ => none

/-- The fault of an outcome, if it is one. -/
def faultOf (o : Host.Outcome State Fault Refusal) : Option Fault :=
  match o with
  | .next _ => none
  | .fault f => some f
  | .refused _ => none

/-- The refusal of an outcome, if it is one. -/
def refusalOf (o : Host.Outcome State Fault Refusal) : Option Refusal :=
  match o with
  | .next _ => none
  | .fault _ => none
  | .refused r => some r

/-- The reset state with bytes in IN and IN_LEN their number. -/
def withIn (bytes : List Byte) (s : State := State.reset) : State :=
  { s with inBuf := s.inBuf.writeBytes 0 bytes, inLen := BitVec.ofNat 64 bytes.length }

/-- The reset state with bytes in BITS and BIT_LEN as given. -/
def withBits (bytes : List Byte) (n : Nat) (s : State := State.reset) : State :=
  { s with bitsBuf := s.bitsBuf.writeBytes 0 bytes, bitLen := BitVec.ofNat 64 n }

/-- The reset state of the reference configuration with another symbol width. -/
def wide (n : Nat) : State := State.resetWith { Config.reference with symBytes := n } 0

/-- STATUS, as the host would read it. -/
def status (o : Host.Outcome State Fault Refusal) : Option Word := get o State.statusWord

/-! ## Well-formedness: each check refuses an ill-formed term -/

theorem test_reference_wf : Config.reference.wf := by decide
theorem test_wf_refuses_three_byte_symbols : ¬ Config.wf { Config.reference with symBytes := 3 } := by decide
theorem test_wf_refuses_small_in : ¬ Config.wf { Config.reference with inCap := 7 } := by decide
theorem test_wf_refuses_odd_in : ¬ Config.wf { Config.reference with symBytes := 4, inCap := 10 } := by decide
theorem test_wf_refuses_huge_in : ¬ Config.wf { Config.reference with inCap := 2 ^ 64 } := by decide
theorem test_wf_refuses_small_out : ¬ Config.wf { Config.reference with outCap := 7 } := by decide
theorem test_wf_refuses_odd_out : ¬ Config.wf { Config.reference with symBytes := 4, outCap := 10 } := by decide
theorem test_wf_refuses_huge_out : ¬ Config.wf { Config.reference with outCap := 2 ^ 64 } := by decide
theorem test_wf_refuses_small_bits : ¬ Config.wf { Config.reference with bitCap := 56 } := by decide
theorem test_wf_refuses_odd_bits : ¬ Config.wf { Config.reference with bitCap := 65 } := by decide
theorem test_wf_refuses_huge_bits : ¬ Config.wf { Config.reference with bitCap := 2 ^ 64 } := by decide
theorem test_wf_refuses_one_distinct : ¬ Config.wf { Config.reference with maxDistinct := 1 } := by decide
theorem test_wf_refuses_many_distinct : ¬ Config.wf { Config.reference with maxDistinct := 257 } := by decide
theorem test_wf_refuses_huge_node_cap :
    ¬ Config.wf { Config.reference with symBytes := 8, maxDistinct := 2 ^ 63 + 1 } := by decide
theorem test_word_refuses_reserved_bits : ¬ wordWf 0x10D := by decide
theorem test_word_refuses_opcode_zero : ¬ wordWf 0x00 := by decide
theorem test_word_refuses_opcode_0E : ¬ wordWf 0x0E := by decide
theorem test_script_wf : scriptWf Config.reference (pseudoRun .encode 1) = true := by decide
theorem test_script_refuses_undefined_label :
    scriptWf Config.reference [.bnz 8 fieldBusy 1] = false := by decide
theorem test_script_refuses_label_twice : scriptWf Config.reference [.label 1, .label 1] = false := by decide
theorem test_script_refuses_wide_field :
    scriptWf Config.reference [.label 1, .bnz 8 ⟨64, 0⟩ 1] = false := by decide
theorem test_script_refuses_upside_down_field : scriptWf Config.reference [.wrOld 8 ⟨0, 1⟩ 0] = false := by decide
theorem test_script_refuses_half_word : scriptWf Config.reference [.busRegRd 0 4] = false := by decide
theorem test_script_refuses_misaligned_word : scriptWf Config.reference [.busRegWr 4 8 0] = false := by decide
theorem test_script_refuses_below_window :
    scriptWf { Config.reference with bitsBase := 16 } [.busBufRd .bits 15 1] = false := by decide
theorem test_script_refuses_write_below_window :
    scriptWf { Config.reference with inBase := 16 } [.busBufWr .input 15 1 0] = false := by decide

/-! ## Decoding: words written out from R90 and R93, bits 63:8 zero and the opcode in bits 7:0 -/

theorem test_decode_bytes_of : decodeCmd 0b00000001 = .legal .bytesOf := by decide
theorem test_decode_value_of_bytes : decodeCmd 0b00000010 = .legal .valueOfBytes := by decide
theorem test_decode_bits_of : decodeCmd 0b00000011 = .legal .bitsOf := by decide
theorem test_decode_value_of_bits : decodeCmd 0b00000100 = .legal .valueOfBits := by decide
theorem test_decode_frame : decodeCmd 0b00000101 = .legal .frame := by decide
theorem test_decode_unframe : decodeCmd 0b00000110 = .legal .unframe := by decide
theorem test_decode_build : decodeCmd 0b00000111 = .legal .build := by decide
theorem test_decode_freq : decodeCmd 0b00001000 = .legal .freq := by decide
theorem test_decode_lookup : decodeCmd 0b00001001 = .legal .lookup := by decide
theorem test_decode_serialize : decodeCmd 0b00001010 = .legal .serialize := by decide
theorem test_decode_deserialize : decodeCmd 0b00001011 = .legal .deserialize := by decide
theorem test_decode_encode : decodeCmd 0b00001100 = .legal .encode := by decide
theorem test_decode_decode : decodeCmd 0b00001101 = .legal .decode := by decide
theorem test_decode_table_word : decodeTableWord 64 0x0C = some .encode := by decide
theorem test_decode_table_word_refuses : decodeTableWord 64 0x10D = none := by decide
theorem test_decode_bytes_needs_eight : decodeBytes [0x0C, 0, 0, 0, 0, 0, 0] = none := by decide

/-! ## The step: a placed word runs (V63 to V66) -/

theorem test_placed_word_runs : status (step (State.reset.withFetchWord 64 0x07)) = some 0x070F0002 := by decide
theorem test_illegal_0E : status (step (State.reset.withFetchWord 64 0x0E)) = some 0x0E000702 := by decide
theorem test_illegal_reserved : status (step (State.reset.withFetchWord 64 0x10D)) = some 0x0D000702 := by decide

/-! ## Commands (sections 2 to 6 of the vectors) -/

/-- V10. -/
theorem test_bytes_of_two : get (exec .bytesOf { wide 2 with value := 0x1234 })
    (fun t => (t.outLen, t.outBuf.readBytes 0 2)) = some (2, [0x34, 0x12]) := by decide
/-- V9. -/
theorem test_bytes_of_ignores_high : get (exec .bytesOf { State.reset with value := 0x1FF })
    (fun t => (t.outLen, t.outBuf.readBytes 0 1)) = some (1, [0xFF]) := by decide
/-- V19. -/
theorem test_value_of_bytes_four : get (exec .valueOfBytes
    { withIn [0x00, 0x44, 0x33, 0x22, 0x11] (wide 4) with start := 1 }) (fun t => (t.value, t.err)) =
    some (0x11223344, none) := by decide
/-- V22: START near 2^64 is compared without wrap. -/
theorem test_value_of_bytes_no_wrap : get (exec .valueOfBytes
    { withIn [0x61, 0x62] with start := 0xFFFFFFFFFFFFFFFF, value := 5 }) (fun t => (t.value, t.err)) =
    some (0, some .truncatedInput) := by decide
/-- V14. -/
theorem test_bits_of_two : get (exec .bitsOf { wide 2 with value := 0x1234 })
    (fun t => (t.bitLen, t.bitsBuf.readBytes 0 2)) = some (16, [0x34, 0x12]) := by decide
/-- V23. -/
theorem test_value_of_bits : get (exec .valueOfBits { withBits [0xB0, 0x80] 9 with start := 1 })
    (fun t => (t.value, t.err)) = some (0x61, none) := by decide
/-- V24a. -/
theorem test_value_of_bits_short : get (exec .valueOfBits { withBits [0xB0, 0x80] 9 with start := 2 })
    (fun t => (t.value, t.err)) = some (0, some .truncatedInput) := by decide
/-- V26: non-zero bits beyond BIT_LEN become zero pad. -/
theorem test_frame_pads : get (exec .frame (withBits [0xB0, 0xFF] 9)) (fun t => (t.outLen, t.outBuf.readBytes 0 10)) =
    some (10, [0x09, 0, 0, 0, 0, 0, 0, 0, 0xB0, 0x80]) := by decide
/-- V29. -/
theorem test_frame_too_long : get (exec .frame { State.reset with bitLen := 32705, outLen := 7 })
    (fun t => (t.outLen, t.err)) = some (0, some .capacity) := by decide
/-- V34. -/
theorem test_unframe_ignores_pad : get (exec .unframe (withIn [0x09, 0, 0, 0, 0, 0, 0, 0, 0xB0, 0xFF]))
    (fun t => (t.bitLen, t.bitsBuf.readBytes 0 2)) = some (9, [0xB0, 0x80]) := by decide
/-- V36: a count of 2^64 - 1 does not wrap. -/
theorem test_unframe_no_wrap : get (exec .unframe
    (withIn (List.replicate 8 0xFF ++ List.replicate 8 0))) (fun t => (t.bitLen, t.err)) =
    some (0, some .truncatedInput) := by decide
/-- V42: all ties; codes a = 01, b = 00, c = 11, d = 10. -/
theorem test_build_ties : get (exec .build (withIn [0x61, 0x62, 0x63, 0x64])) (fun t => (t.distinct, t.codeTable)) =
    some (4, [(0x61, [false, true]), (0x62, [false, false]), (0x63, [true, true]), (0x64, [true, false])]) := by decide
/-- V46: signed keys put 0xFF first. -/
theorem test_build_signed : get (exec .build
    (withIn [0x01, 0xFF] (State.resetWith { Config.reference with keySigned := true } 0))) (fun t => t.tree) =
    some (some (.node (.leaf 0x01 1) (.leaf 0xFF 1) 2)) := by decide
/-- V43: z is absent and reads 0. -/
theorem test_freq_absent : get (exec .freq
    { State.reset with freqValid := true, freqTable := [(0x61, 5)], value := 0x7A, freq := 9 })
    (fun t => (t.freq, t.err)) = some (0, none) := by decide
/-- V43: bits 63:8 of VALUE are ignored. -/
theorem test_freq_ignores_high : get (exec .freq
    { State.reset with freqValid := true, freqTable := [(0x61, 5)], value := 0x161 }) (fun t => t.freq) =
    some 5 := by decide
/-- V43: c = 1101. -/
theorem test_lookup_c : get (exec .lookup
    { State.reset with tableValid := true, codeTable := [(0x63, [true, true, false, true])], value := 0x63 })
    (fun t => (t.codeLen, t.codeW)) = some (4, [0xD000000000000000, 0, 0, 0]) := by decide
/-- V43: z has no code. -/
theorem test_lookup_absent : get (exec .lookup
    { State.reset with tableValid := true, codeTable := [(0x63, [true])], value := 0x7A, codeW := [1, 2, 3, 4] })
    (fun t => (t.codeLen, t.codeW, t.err)) = some (0, [0, 0, 0, 0], some .noSymbol) := by decide
/-- The tree of "ab" (V3). -/
def treeAb : CodeTree := .node (.leaf 0x62 1) (.leaf 0x61 1) 2
/-- V47. -/
theorem test_serialize_ab : get (exec .serialize { State.reset with treeValid := true, tree := some treeAb })
    (fun t => (t.bitLen, t.treeBits, t.bitsBuf.readBytes 0 3)) = some (19, 19, [0x58, 0xAC, 0x20]) := by decide
/-- V49. -/
theorem test_serialize_no_tree : get (exec .serialize State.reset) (fun t => (t.bitLen, t.err)) =
    some (0, some .noTree) := by decide
/-- V51. -/
theorem test_deserialize_start : get (exec .deserialize { withBits [0x00, 0xB0, 0x80] 17 with start := 8 })
    (fun t => (t.tree, t.distinct, t.treeBits)) = some (some (.leaf 0x61 0), 1, 9) := by decide
/-- V53: the second leaf has 7 of 8 symbol bits. -/
theorem test_deserialize_short_leaf : get (exec .deserialize (withBits [0x58, 0xAC, 0x20] 18))
    (fun t => (t.err, t.treeValid)) = some (some .malformedTree, false) := by decide
/-- V56, "ab". -/
theorem test_encode_ab : get (exec .encode (withIn [0x61, 0x62]))
    (fun t => (t.bitLen, t.treeBits, t.payloadBits, t.bitsBuf.readBytes 0 3)) =
    some (21, 19, 2, [0x58, 0xAC, 0x30]) := by decide
/-- V62: "abcd" (47 bits) does not fit `BIT_CAP` = 40. -/
theorem test_encode_too_long : get (exec .encode
    (withIn [0x61, 0x62, 0x63, 0x64] (State.resetWith { Config.reference with bitCap := 40 } 0)))
    (fun t => (t.bitLen, t.err)) = some (0, some .capacity) := by decide
/-- V58. -/
theorem test_decode_ab : get (exec .decode (withBits [0x58, 0xAC, 0x30] 21))
    (fun t => (t.outLen, t.payloadBits, t.outBuf.readBytes 0 2)) = some (2, 2, [0x61, 0x62]) := by decide
/-- V60: a single leaf is emitted EXP_COUNT times, the bits after it ignored. -/
theorem test_decode_leaf : get (exec .decode { withBits [0xB0, 0xFF, 0xFF] 17 with expCount := 2 })
    (fun t => (t.outLen, t.payloadBits, t.outBuf.readBytes 0 2)) = some (2, 0, [0x61, 0x61]) := by decide

/-! ## Host steps -/

/-- The reset state running BUILD, with latency left. -/
def busyBuild : State := State.reset.acceptWith 0x07 3

/-- The reset state running the illegal word 0, with latency left. -/
def busyIllegal : State := State.reset.acceptWith 0 3

/-- V67: a CMD write while busy is dropped and sets OVR. -/
theorem test_overrun : status (performTxn (.regWrite 0x07 0x0C) busyBuild) = some 0x07000005 := by decide
/-- V75: an input write while busy is a fault naming the transaction. -/
theorem test_busy_write_faults : faultOf (performTxn (.regWrite 0x09 5) busyBuild) =
    some (.inputWriteWhileBusy (.regWrite 0x09 5)) := by decide
/-- V68. -/
theorem test_clear_done_and_ovr : status (performTxn (.regWrite 0x08 0x6)
    { State.reset with done := true, ovr := true, treeValid := true }) = some 0x00040000 := by decide
/-- V77: reset abandons a running command. -/
theorem test_reset_abandons : get (runStmt (.resetPin true) busyBuild) (fun t => (t.phase, t.done, t.statusWord)) =
    some (.idle, false, 0) := by decide
/-- R73: a half-word register access is refused. -/
theorem test_partial_access : refusalOf (runStmt (.busRegRd 8 4) State.reset) =
    some (.partialRegisterAccess 8 4) := by decide
/-- R98: `WR CTRL.IRQ_EN, 1` keeps ACCEPT_TRUNC. -/
theorem test_field_write : get (runStmt (.wrOld 6 ⟨1, 1⟩ 1) { State.reset with acceptTrunc := true, seen := [.reg 6 1 none] })
    (fun t => t.ctrlWord) = some 3 := by decide
/-- R62: the bus value of a two-byte read of IN at 0 has byte 0 least significant. -/
theorem test_bus_read_value : ({ State.reset with seen := [.byte .input 1 0x12, .byte .input 0 0x34] } : State).busReadValue
    .input 0 2 = some 0x1234 := by decide
/-- Reads of other bytes are no reading of that access. -/
theorem test_bus_read_value_other : ({ State.reset with seen := [.byte .input 0 0x34, .byte .input 1 0x12] } :
    State).busReadValue .input 0 2 = none := by decide
/-- R62: the first byte of the two-byte value 0x1234 written at 0 is 0x34. -/
theorem test_bus_write_value : get (runStmt (.busBufWr .input 0 2 0x1234) State.reset)
    (fun t => (t.inBuf.byte 0, t.pending)) = some (0x34, [.bufWrite .input 1 0x12]) := by decide
/-- R34, R35: DISTINCT is register 0x10 and TREE_BITS 0x11. -/
theorem test_read_distinct : get (performTxn (.regRead 0x10 none) { State.reset with distinct := 5, treeBits := 7 })
    (fun t => t.seen) = some [.reg 0x10 5 none] := by decide
theorem test_read_tree_bits : get (performTxn (.regRead 0x11 none) { State.reset with distinct := 5, treeBits := 7 })
    (fun t => t.seen) = some [.reg 0x11 7 none] := by decide
/-- R97: a taken branch continues at the label. -/
theorem test_branch_taken : get (runStmt (.bnz 8 fieldBusy 7)
    { State.reset with script := [.rd 8 none, .label 7], seen := [.reg 8 1 none] }) (fun t => t.scriptPos) =
    some 1 := by decide

/-! ## The host assembler (section 9 of the vectors) -/

set_option maxRecDepth 8192 in
/-- P4's lines around its branches. -/
theorem test_assemble_P4 : assemble ("        BNZ  STATUS.ERR, retry    ; taken: ERR = 3\n" ++
    "        BNZ  STATUS.DONE, show\nretry:  WR   CTRL, 0x1            ; opt in\n" ++
    "show:   RD   STATUS         -> 0x0D14_0002").toList =
    some [.bnz 8 ⟨11, 8⟩ 0, .bnz 8 ⟨1, 1⟩ 1, .label 0, .wr 6 1, .label 1, .rd 8 (some 0x0D140002)] := by decide
/-- P5's first lines, and the encoding P5 gives them: RegWrite(0x06, 0x2); BufWrite(IN, 0, 61 62); RegWrite(0x09, 0x2);
RegWrite(0x07, 0x7). -/
theorem test_assemble_P5 : (assemble ("WR   CTRL, 0x2            ; IRQ_EN = 1\n" ++
    "WB   IN, 0, \"ab\"\nWR   IN_LEN, 2\nCMD  BUILD").toList).map (scriptTxns Config.reference fun _ => 0) =
    some [.regWrite 0x06 0x2, .bufWrite .input 0 0x61, .bufWrite .input 1 0x62, .regWrite 0x09 0x2,
      .regWrite 0x07 0x7] := by decide
/-- R98: `RUN` polls STATUS.BUSY, and `WR <reg>.<field>` reads first; P2's byte literals. -/
theorem test_assemble_pseudo : assemble "RUN FRAME\nWR CTRL.IRQ_EN, 1\nCLR\nWB IN, 0x2, 2E D6".toList =
    some [.cmd .frame, .label 0, .rd 8 none, .bnz 8 ⟨0, 0⟩ 0, .rd 6 none, .wrOld 6 ⟨1, 1⟩ 1, .wr 8 6,
      .wb .input 2 [0x2E, 0xD6]] := by decide
/-- R98, R99: `WR CTRL.IRQ_EN, 1` encodes to RegRead 0x06, then RegWrite 0x06 with the field set in the value read, here
one with ACCEPT_TRUNC = 1. -/
theorem test_encode_field_write :
    (assemble "WR CTRL.IRQ_EN, 1".toList).map (scriptTxns Config.reference fun _ => 1) =
      some [.regRead 0x06 none, .regWrite 0x06 3] := by decide
/-- Assumption 17: of a value wider than the field, the bits that fit are written. -/
theorem test_field_write_wide : (assemble "WR CTRL.IRQ_EN, 6".toList).map (scriptTxns Config.reference fun _ => 3) =
    some [.regRead 0x06 none, .regWrite 0x06 1] := by decide
/-- Assumption 16: digits may be grouped, and a number has at least one. -/
theorem test_assemble_groups_digits : assemble "WR VALUE, 0x_4_0".toList = some [.wr 13 0x40] := by decide
theorem test_assemble_refuses_number_without_digit : assemble "WR VALUE, _".toList = none ∧
    assemble "WR VALUE, 0x_".toList = none ∧ assemble "WR VALUE, 0x".toList = none := by decide
theorem test_assemble_refuses_byte_with_underscore : assemble "WB IN, 0, 4_".toList = none := by decide
/-- Assumption 18: commas among bytes have no other meaning, and a list may be empty. -/
theorem test_assemble_byte_commas : assemble "WB IN, 0, , 41,, 42,".toList = some [.wb .input 0 [0x41, 0x42]] ∧
    assemble "WB IN, 0,".toList = some [.wb .input 0 []] := by decide
/-- Assumption 18: CODE_W[4] of the reference configuration is the reserved register 0x24. -/
theorem test_assemble_code_w : assemble "RD CODE_W[3]\nRD CODE_W[4]".toList = some [.rd 0x23 none, .rd 0x24 none] := by
  decide
/-- Assumption 18: the index is decimal. -/
theorem test_assemble_code_w_decimal : assemble "RD CODE_W[0x3]".toList = none := by decide
theorem test_assemble_refuses_unknown_label : assemble "BNZ STATUS.ERR, fail".toList = none := by decide
theorem test_assemble_refuses_wide_value : assemble "WR VALUE, 0x1_0000_0000_0000_0000".toList = none := by decide

/-! ## Witnesses: for every statement with hypotheses, a state and operands that meet all of them together, and for each
clause one at a boundary of its range. A witness is named after the statement. -/

/-- BITS bytes of a stream of `n` bits, as the reset state's. -/
abbrev stream (bytes : List Byte) (n : Nat) : State := withBits bytes n

theorem witness_DecodeIsInverseOfEncode : decodeCmd 0x0C = .legal .encode ∧ (0x0C : Word) = encodeCmd .encode := by decide
theorem witness_StepRunsTheLatchedCommand : State.reset.phase = .idle ∧
    (State.reset.acceptWith 0x07 0).phase = .exec (.legal .build) 0 ∧
    (busyBuild.phase = .exec (.legal .build) 3 ∧ busyBuild.hostDone = true) ∧
    (State.reset.acceptWith 0 0).phase = .exec (.illegal .opcodeZero) 0 ∧
    (busyIllegal.phase = .exec (.illegal .opcodeZero) 3 ∧ busyIllegal.hostDone = true) ∧
    (({ busyIllegal with script := [.label 0] } : State).phase = .exec (.illegal .opcodeZero) (2 + 1) ∧
      ({ busyIllegal with script := [.label 0] } : State).hostDone = false) ∧
    (({ busyBuild with script := [.label 0] } : State).phase = .exec (.legal .build) (2 + 1) ∧
      ({ busyBuild with script := [.label 0] } : State).hostDone = false) ∧
    decodeTableWord 64 0x0D = some .decode := by decide
theorem witness_CommandWriteIsAcceptedWhenIdle : State.reset.phase = .idle ∧ State.reset.inReset = false := by decide
theorem witness_CommandWriteWhileBusyIsDropped : busyBuild.busy = true ∧ busyBuild.inReset = false := by decide
theorem witness_IllegalCommandWritesOnlyStatus : State.reset.phase = .idle ∧ State.reset.inReset = false ∧
    decodeCmd 0x00 = .illegal .opcodeZero ∧ (State.reset.acceptWith 0x00 0).phase = .exec (.illegal .opcodeZero) 0 := by
  decide
theorem witness_AcceptedCommandCompletes : (State.reset.acceptWith 0x07 0).phase = .exec (.legal .build) 0 ∧
    (State.reset.acceptWith 0x07 0).inReset = false ∧ SafeRun (0 + 1) (State.reset.acceptWith 0x07 0) :=
  ⟨by decide, by decide, _, rfl⟩
theorem witness_ConstantRegistersReadTheirConstants : State.reset.inReset = false ∧ State.reset.cfg.wf := by decide
theorem witness_ReservedRegistersReadZero_low : State.reset.inReset = false ∧
    ((0x15 ≤ 0x1F ∧ 0x1F ≤ 0x1F) ∨ 0x20 + State.reset.cfg.codeWords ≤ 0x1F) := by decide
theorem witness_ReservedRegistersReadZero_high : State.reset.inReset = false ∧
    ((0x15 ≤ 0x24 ∧ 0x24 ≤ 0x1F) ∨ 0x20 + State.reset.cfg.codeWords ≤ 0x24) := by decide
theorem witness_StatusWordFields : busyBuild.inReset = false ∧ (3 ≤ 3 ∨ 32 ≤ 3) := by decide
theorem witness_HostWrittenRegistersReadBack : State.reset.phase = .idle ∧ State.reset.inReset = false ∧
    0x06 ∈ [0x06, 0x09, 0x0A, 0x0C, 0x0D, 0x0E] ∧ 0x0E ∈ [0x06, 0x09, 0x0A, 0x0C, 0x0D, 0x0E] := by decide
/-- The reference configuration has CODE_W[0] to CODE_W[3]. -/
theorem witness_HostWrittenRegistersReadBack_read : State.reset.phase = .idle ∧ State.reset.inReset = false ∧
    3 < State.reset.cfg.codeWords ∧ ¬ 4 < State.reset.cfg.codeWords := by decide
theorem witness_IrqFollowsDone_completion : get (exec .freq { State.reset with irqEn := true }) State.irq = some true := by
  decide
theorem witness_IrqFollowsDone_acknowledge : get (performTxn (.regWrite 0x08 2)
    { State.reset with done := true, irqEn := true }) State.irq = some false := by decide
theorem witness_IrqFollowsDone_mask : get (performTxn (.regWrite 0x06 0)
    { State.reset with done := true, irqEn := true }) State.irq = some false := by decide
theorem witness_IrqFollowsDone_acceptance : get (performTxn (.regWrite 0x07 0x07)
    { State.reset with done := true, irqEn := true }) State.irq = some false := by decide
theorem witness_HostByteWriteReadsBack : State.reset.phase = .idle ∧ State.reset.inReset = false ∧
    Space.bits ≠ .output ∧ 8191 < bufSize State.reset.cfg .bits ∧ 4095 < bufSize State.reset.cfg .input := by decide
theorem witness_HostByteWriteReadsBack_read : State.reset.phase = .idle ∧ State.reset.inReset = false ∧
    4095 < bufSize State.reset.cfg .output ∧ ¬ 4096 < bufSize State.reset.cfg .output := by decide
theorem witness_BufferAccessOutOfRange : State.reset.inReset = false ∧ bufSize State.reset.cfg .bits ≤ 8192 ∧
    bufSize State.reset.cfg .output ≤ 4096 := by decide
theorem witness_InputWriteWhileBusyFaults : busyBuild.busy = true ∧ busyBuild.inReset = false ∧
    0x0E ∈ [0x06, 0x09, 0x0A, 0x0C, 0x0D, 0x0E] ∧ 4095 < bufSize busyBuild.cfg .input ∧
    8191 < bufSize busyBuild.cfg .bits := by decide
theorem witness_ReadsOfPendingResultsAreFree : busyBuild.phase = .exec (.legal .build) 3 ∧ busyBuild.inReset = false ∧
    regOfNumber busyBuild.cfg 0x0F ∈ writeRegs busyBuild.cfg .build ∧
    regOfNumber busyBuild.cfg 0x0A ∉ writeRegs busyBuild.cfg .build ∧
    writeSpace .build ≠ some Space.output ∧ 4095 < bufSize busyBuild.cfg .output := by decide
/-- A running BYTES_OF is going to write byte 0 of OUT and not byte 1. -/
theorem witness_ReadsOfPendingResultsAreFree_range : (State.reset.acceptWith 0x01 3).phase = .exec (.legal .bytesOf) 3 ∧
    (State.reset.acceptWith 0x01 3).cfg.wf ∧ writeSpace .bytesOf = some Space.output ∧
    get (exec .bytesOf (State.reset.acceptWith 0x01 3)) (fun t => (t.err, t.writtenBytes .output)) = some (none, 1) := by
  decide
/-- A running FRAME of a bit string that is too long is going to fail. -/
theorem witness_ReadsOfPendingResultsAreFree_failing :
    get (exec .frame { State.reset.acceptWith 0x05 3 with bitLen := 32705 }) (fun t => t.err) = some (some .capacity) := by
  decide
theorem witness_ReadsOfPendingResultsAreFree_illegal : busyIllegal.phase = .exec (.illegal .opcodeZero) 3 ∧
    busyIllegal.inReset = false ∧ 8191 < bufSize busyIllegal.cfg .bits := by decide
/-- R80: byte 1 of OUT, beyond what the running BYTES_OF writes, reads its value and takes no free one; byte 0 does. -/
theorem test_pending_byte_range : get (performTxn (.bufRead .output 1) (State.reset.acceptWith 0x01 3)) State.draws =
      some (State.reset.acceptWith 0x01 3).draws ∧
    get (performTxn (.bufRead .output 0) (State.reset.acceptWith 0x01 3)) State.draws =
      some ((State.reset.acceptWith 0x01 3).draws + 1) := by decide
theorem witness_RegisterAccessIsWholeAlignedWord : (7 ≠ 8 ∨ (8 - State.reset.cfg.regBase) % 8 ≠ 0) ∧
    (8 ≠ 8 ∨ (9 - State.reset.cfg.regBase) % 8 ≠ 0) := by decide
/-- The last byte of IN. -/
theorem witness_HostWritesSuccessiveBytes : State.reset.phase = .idle ∧ State.reset.inReset = false ∧
    ({ State.reset with pending := writeTxns .input 4095 [7] } : State).pending = writeTxns .input 4095 [7] ∧
    4095 + [(7 : Byte)].length ≤ bufSize State.reset.cfg .input := by decide
/-- The statement itself, on BITS: its last byte, and one beyond it, which is ignored. -/
theorem witness_HostWritesSuccessiveBytes_statement : State.reset.phase = .idle ∧ State.reset.inReset = false ∧
    State.reset.pending = [] ∧ Space.bits ≠ .output ∧ 8191 < bufSize State.reset.cfg .bits ∧
    ¬ 8192 < bufSize State.reset.cfg .bits ∧
    get (runStmt (.wb .bits 8191 [7, 8]) State.reset) (fun t => (t.bitsBuf.byte 8191, t.pending)) =
      some (7, [.bufWrite .bits 8192 8]) := by decide
/-- A read of the last byte of OUT and of one beyond it. -/
theorem witness_HostWritesSuccessiveBytes_read :
    get (runStmt (.rb .output 4095 2) { State.reset with outBuf := State.reset.outBuf.writeByte 4095 9 })
      (fun t => (t.seen, t.pending)) = some ([.byte .output 4095 9], [.bufRead .output 4096]) := by decide
/-- The first address of a window, and the one below it. -/
theorem witness_HostWritesSuccessiveBytes_bus : bufferBase { Config.reference with bitsBase := 16 } .bits ≤ 16 ∧
    ¬ bufferBase { Config.reference with bitsBase := 16 } .bits ≤ 15 := by decide
/-- BITS bytes B0 80 and B0 FF have the same first nine bits. -/
theorem witness_BitsBeyondBitLenHaveNoEffect : Instr.frame ∈ [Instr.valueOfBits, .frame, .deserialize, .decode] ∧
    ∀ k, k < (stream [0xB0, 0x80] 9).bitLen.toNat →
      (stream [0xB0, 0xFF] 9).bitsBuf.bit k = (stream [0xB0, 0x80] 9).bitsBuf.bit k := by decide
theorem witness_ResetAbandonsTheRunningCommand : busyBuild.inReset = false := by decide
theorem witness_NothingHappensWhileResetIsAsserted : ({ State.reset with inReset := true } : State).inReset = true := by
  decide
theorem witness_BytesOfWritesSymbolBytes : (wide 8).cfg.wf ∧ 7 < (wide 8).cfg.symBytes := by decide
theorem witness_BitsOfWritesSymbolBits : (wide 8).cfg.wf ∧ 7 < (wide 8).cfg.symBytes := by decide
theorem witness_ValueOfBytesReadsSymbol_capacity : State.reset.cfg.wf ∧
    ({ State.reset with inLen := 4097 } : State).inLen.toNat > State.reset.cfg.inCap := by decide
theorem witness_ValueOfBytesReadsSymbol_short : State.reset.cfg.wf ∧
    (withIn [1]).inLen.toNat ≤ State.reset.cfg.inCap ∧ (1 : Word).toNat + State.reset.cfg.symBytes > (withIn [1]).inLen.toNat := by
  decide
theorem witness_ValueOfBytesReadsSymbol_last : State.reset.cfg.wf ∧
    (withIn [1]).inLen.toNat ≤ State.reset.cfg.inCap ∧
    ¬ (0 : Word).toNat + State.reset.cfg.symBytes > (withIn [1]).inLen.toNat := by decide
theorem witness_ValueOfBitsReadsSymbol_capacity : State.reset.cfg.wf ∧
    ({ State.reset with bitLen := 65537 } : State).bitLen.toNat > State.reset.cfg.bitCap := by decide
theorem witness_ValueOfBitsReadsSymbol_short : State.reset.cfg.wf ∧
    (2 : Word).toNat + State.reset.cfg.w > (stream [0xB0, 0x80] 9).bitLen.toNat := by decide
theorem witness_ValueOfBitsReadsSymbol_last : State.reset.cfg.wf ∧
    ¬ (1 : Word).toNat + State.reset.cfg.w > (stream [0xB0, 0x80] 9).bitLen.toNat := by decide
theorem witness_PrimitiveRoundTrips : (wide 4).cfg.wf ∧ (0xFFFFFFFF : Symbol).toNat < 2 ^ (wide 4).cfg.w := by decide
/-- V28 and V29: the longest frame that fits, and one bit more. -/
theorem witness_FrameWritesCountAndBits : State.reset.cfg.wf ∧ ¬ 8 + ceilDiv 32704 8 > State.reset.cfg.outCap ∧
    8 + ceilDiv 32705 8 > State.reset.cfg.outCap ∧ 65537 > State.reset.cfg.bitCap := by decide
/-- The clauses of UNFRAME: a long IN_LEN, seven header bytes, a body one byte short (V32), a complete body. -/
theorem witness_UnframeReadsCountAndBits : State.reset.cfg.wf ∧ 4097 > State.reset.cfg.inCap ∧
    (withIn [9, 0, 0, 0, 0, 0, 0]).inLen.toNat < 8 ∧
    8 + ceilDiv 9 8 > (withIn [9, 0, 0, 0, 0, 0, 0, 0, 0xB0]).inLen.toNat ∧
    ¬ 8 + ceilDiv 9 8 > (withIn [9, 0, 0, 0, 0, 0, 0, 0, 0xB0, 0x80]).inLen.toNat := by decide
/-- V39: a complete body whose count is above a small `BIT_CAP`. -/
theorem witness_UnframeReadsCountAndBits_count : get (exec .unframe
    (withIn ([72, 0, 0, 0, 0, 0, 0, 0] ++ List.replicate 9 0) (State.resetWith { Config.reference with bitCap := 64 } 0)))
    (fun t => (t.bitLen, t.err)) = some (0, some .capacity) := by decide
theorem witness_FrameUnframeRoundTrip : State.reset.cfg.wf ∧
    (stream [0xB0, 0x80] 9).bitLen.toNat ≤ State.reset.cfg.bitCap ∧
    8 + ceilDiv (stream [0xB0, 0x80] 9).bitLen.toNat 8 ≤ min State.reset.cfg.outCap State.reset.cfg.inCap ∧
    get (exec .frame (stream [0xB0, 0x80] 9)) (fun t => t.outLen) =
      some (withIn [9, 0, 0, 0, 0, 0, 0, 0, 0xB0, 0x80]).inLen ∧
    ∀ a, a < 10 → get (exec .frame (stream [0xB0, 0x80] 9)) (fun t => t.outBuf.byte a) =
      some ((withIn [9, 0, 0, 0, 0, 0, 0, 0, 0xB0, 0x80]).inBuf.byte a) := by decide
/-- The clauses of BUILD and ENCODE: a partial last symbol, one distinct symbol too many, none too many. -/
theorem witness_BuildMakesTablesAndTree : State.reset.cfg.wf ∧ 4097 > State.reset.cfg.inCap ∧
    (withIn [1, 2, 3] (wide 2)).inLen.toNat % (wide 2).cfg.symBytes ≠ 0 ∧
    (withIn [1, 2, 3] (State.resetWith { Config.reference with maxDistinct := 2 } 0)).inputSymbols.dedup.length > 2 ∧
    ¬ (withIn [1, 2, 1] (State.resetWith { Config.reference with maxDistinct := 2 } 0)).inputSymbols.dedup.length > 2 := by
  decide
/-- ENCODE's last check: the 21 bits of "ab" against a `BIT_CAP` of 64 and the 47 of "abcd" against one of 40 are
test_encode_ab and test_encode_too_long. -/
theorem witness_EncodeWritesTreeAndPayload : (withIn [0x61, 0x62]).cfg.wf ∧
    ¬ (withIn [0x61, 0x62]).inLen.toNat > (withIn [0x61, 0x62]).cfg.inCap := by decide
theorem witness_CountsAreOccurrences : State.reset.cfg.wf ∧
    get (exec .build (withIn [0x61, 0x62, 0x61])) (fun t => (t.err, t.freqTable)) =
      some (none, [(0x61, 2), (0x62, 1)]) := by decide
theorem witness_LeavesAreInKeyOrder : Config.reference.wf ∧ (([(0xFF, 2), (0x01, 1)] : FreqTable).map Prod.fst).Nodup ∧
    ∀ e ∈ ([(0xFF, 2), (0x01, 1)] : FreqTable), e.1.toNat < 2 ^ Config.reference.w :=
  ⟨by decide, by decide, by simp [Config.w, Config.reference]⟩
theorem witness_WorkingListStaysDescending :
    [CodeTree.leaf 0x61 3, .leaf 0x62 3, .leaf 0x63 1].Pairwise (fun x y => y.freq ≤ x.freq) := by
  simp [CodeTree.freq, freqWidth]
theorem witness_MergeLoopBuildsTheCodeTree : (([(0x61, 2), (0x62, 1)] : FreqTable).map Prod.fst).Nodup ∧
    ([(0x61, 2), (0x62, 1)] : FreqTable) ≠ [] ∧ FreqTable.total [(0x61, 2), (0x62, 1)] < 2 ^ freqWidth := by decide
/-- R168, R169 on a = 2 and b = 1: b, the last, is the left child with bit 0, and a the right child with bit 1. -/
theorem test_merges_two : MergesTo [.leaf 0x61 2, .leaf 0x62 1] [(0x61, []), (0x62, [])]
    [.node (.leaf 0x62 1) (.leaf 0x61 2) 3] [(0x61, [true]), (0x62, [false])] :=
  .merge [] (.leaf 0x62 1) (.leaf 0x61 2) _ _ _ (.done _ _ (by decide))
theorem witness_CodesArePrefixFree : State.reset.cfg.wf ∧ get (exec .build (withIn [0x61, 0x62]))
    (fun t => (t.err, t.codeTable)) = some (none, [(0x61, [true]), (0x62, [false])]) := by decide
theorem witness_FreqReadsTheCount : State.reset.cfg.wf ∧ State.reset.freqValid = false ∧
    ({ State.reset with freqValid := true } : State).freqValid ≠ false := by decide
theorem witness_LookupReadsTheCode : State.reset.cfg.wf ∧ State.reset.tableValid = false ∧
    ({ State.reset with tableValid := true } : State).tableValid ≠ false := by decide
theorem witness_OnlyBuildAndEncodeWriteTables : get (step ((withIn [0x61]).acceptWith 0x07 0))
    (fun t => (t.tableValid, t.freqValid)) = some (true, true) := by decide
/-- A host step during a BUILD, with the tables of the build before it. -/
theorem witness_OnlyBuildAndEncodeWriteTables_running : get (step { busyBuild with
    script := [.rd 8 none], tableValid := true, freqValid := true, codeTable := [(0x61, [true])], freqTable := [(0x61, 1)] })
    (fun t => (t.phase, t.codeTable, t.freqTable)) =
      some (.exec (.legal .build) 2, [(0x61, [true])], [(0x61, 1)]) := by decide
theorem witness_SerializeWritesTheTree : State.reset.cfg.wf ∧ State.reset.treeValid = false ∧
    ¬ (serTree Config.reference (some treeAb)).length > Config.reference.bitCap := by decide
theorem witness_SerializeWritesTheTree_capacity : get (exec .serialize { State.resetWith { Config.reference with
    bitCap := 64, symBytes := 4 } 0 with treeValid := true, tree := some treeAb }) (fun t => t.err) =
      some (some .capacity) := by decide
theorem treeAb_symsFit : treeAb.symsFit Config.reference := by
  intro x hx
  simp only [treeAb, CodeTree.syms, List.cons_append, List.nil_append, List.mem_cons, List.not_mem_nil, or_false] at hx
  rcases hx with rfl | rfl <;> decide
theorem witness_TreeRoundTrip : Config.reference.wf ∧ treeAb.nodes ≤ Config.reference.nodeCap ∧
    treeAb.symsFit Config.reference := ⟨by decide, by decide, treeAb_symsFit⟩
theorem witness_DeserializeRebuildsTheTree : State.reset.cfg.wf ∧
    (stream [0x58, 0xAC, 0x20] 19).bitLen.toNat ≤ State.reset.cfg.bitCap ∧
    (stream [0x58, 0xAC, 0x20] 19).bitsSeq.drop (stream [0x58, 0xAC, 0x20] 19).start.toNat =
      treeAb.ser (stream [0x58, 0xAC, 0x20] 19).cfg ++ [] ∧
    treeAb.nodes ≤ (stream [0x58, 0xAC, 0x20] 19).cfg.nodeCap ∧ treeAb.symsFit (stream [0x58, 0xAC, 0x20] 19).cfg :=
  ⟨by decide, by decide, by decide, by decide, treeAb_symsFit⟩
theorem witness_DeserializeFailsWithoutATree_capacity : State.reset.cfg.wf ∧
    ({ State.reset with bitLen := 65537 } : State).bitLen.toNat > State.reset.cfg.bitCap := by decide
theorem witness_DeserializeFailsWithoutATree_tag : State.reset.cfg.wf ∧
    State.reset.bitLen.toNat ≤ State.reset.cfg.bitCap ∧ State.reset.bitLen.toNat ≤ State.reset.start.toNat := by decide
/-- V55a: one zero bit holds no tree. -/
theorem witness_DeserializeFailsWithoutATree_short : State.reset.cfg.wf ∧
    (stream [0x00] 1).bitLen.toNat ≤ (stream [0x00] 1).cfg.bitCap ∧
    ¬ holdsTree (stream [0x00] 1).cfg ((stream [0x00] 1).bitsSeq.drop (stream [0x00] 1).start.toNat) := by
  refine ⟨by decide, by decide, ?_⟩
  rintro ⟨t, rest, h, -, -⟩
  have e : (stream [0x00] 1).bitsSeq.drop (stream [0x00] 1).start.toNat = [false] := by decide
  rw [e] at h
  cases t with
  | leaf s f => simp [CodeTree.ser] at h
  | node l r f => cases l <;> simp [CodeTree.ser] at h
/-- Internal nodes alone close no tree. -/
theorem nodesOpen_inner (n : Nat) : nodesOpen (List.replicate n none) := by
  intro p hp
  rw [List.countP_eq_zero.2 fun e he => by simp [List.eq_of_mem_replicate (hp.subset he)]]
  exact Nat.zero_le _
/-- V55a: after one internal node the tag bit is missing. -/
theorem witness_treeReadingFails_tag :
    treeReadingFails Config.reference ((stream [0x00] 1).bitsSeq.drop (stream [0x00] 1).start.toNat) .malformedTree :=
  ⟨List.replicate 1 none, [], by decide, nodesOpen_inner 1, by decide, .inl ⟨rfl, .inl rfl⟩⟩
/-- A leaf with seven of its eight symbol bits, the first node (V53's case). -/
theorem witness_treeReadingFails_leaf : treeReadingFails Config.reference ((stream [0xB0] 8).bitsSeq.drop 0) .malformedTree :=
  ⟨List.replicate 0 none, (stream [0xB0] 8).bitsSeq, by decide, nodesOpen_inner 0, by decide,
    .inl ⟨rfl, .inr ⟨by decide, (stream [0xB0] 8).bitsSeq.tail, by decide, by decide⟩⟩⟩
/-- The reset state of a configuration with `NODE_CAP` = 3. -/
def threeNodes : State := State.resetWith { Config.reference with maxDistinct := 2 } 0
/-- A fourth zero bit is a tag beyond `NODE_CAP` = 3; three zero bits miss a tag. -/
theorem witness_treeReadingFails_capacity :
    treeReadingFails threeNodes.cfg ((withBits [0x00] 4 threeNodes).bitsSeq.drop 0) .capacity ∧
    treeReadingFails threeNodes.cfg ((withBits [0x00] 3 threeNodes).bitsSeq.drop 0) .malformedTree :=
  ⟨⟨List.replicate 3 none, [false], by decide, nodesOpen_inner 3, by decide, .inr ⟨rfl, by decide, by decide⟩⟩,
    ⟨List.replicate 3 none, [], by decide, nodesOpen_inner 3, by decide, .inl ⟨rfl, .inl rfl⟩⟩⟩
/-- R203: and so DESERIALIZE and DECODE answer. -/
theorem test_tree_reading_fails :
    get (exec .deserialize (withBits [0x00] 4 threeNodes)) (fun t => t.err) = some (some .capacity) ∧
    get (exec .deserialize (withBits [0x00] 3 threeNodes)) (fun t => t.err) = some (some .malformedTree) ∧
    get (exec .decode (withBits [0x00] 4 threeNodes)) (fun t => t.err) = some (some .capacity) := by decide
/-- DECODE's non-empty stream with no tree, V55a's. -/
theorem witness_DecodeOfEmptyOrOverlongStream_no_tree : (stream [0x00] 1).cfg.wf ∧
    (stream [0x00] 1).bitLen.toNat ≤ (stream [0x00] 1).cfg.bitCap ∧ (stream [0x00] 1).bitLen ≠ 0 ∧
    ¬ holdsTree (stream [0x00] 1).cfg (stream [0x00] 1).bitsSeq := by
  refine ⟨by decide, by decide, by decide, ?_⟩
  have h := witness_DeserializeFailsWithoutATree_short.2.2
  have e : (stream [0x00] 1).bitsSeq.drop (stream [0x00] 1).start.toNat = (stream [0x00] 1).bitsSeq := by decide
  rwa [e] at h
theorem witness_DecodeOfEmptyOrOverlongStream : State.reset.cfg.wf ∧ State.reset.bitLen = 0 ∧ State.reset.expCount = 0 ∧
    ({ State.reset with expCount := 3 } : State).expCount ≠ 0 ∧
    ({ State.reset with bitLen := 65537 } : State).bitLen.toNat > State.reset.cfg.bitCap := by decide
/-- V60: the leaf of 'a' and eight bits after it; 4096 symbols fit OUT and 4097 do not. -/
theorem witness_DecodeOfSingleLeafRepeatsTheSymbol : (stream [0xB0, 0xFF, 0xFF] 17).cfg.wf ∧
    (stream [0xB0, 0xFF, 0xFF] 17).bitLen.toNat ≤ State.reset.cfg.bitCap ∧
    (0x61 : Symbol).toNat < 2 ^ State.reset.cfg.w ∧
    (stream [0xB0, 0xFF, 0xFF] 17).bitsSeq = (CodeTree.leaf 0x61 4).ser Config.reference ++ List.replicate 8 true ∧
    ¬ 4096 * State.reset.cfg.symBytes > State.reset.cfg.outCap ∧
    4097 * State.reset.cfg.symBytes > State.reset.cfg.outCap := by decide
/-- V58's stream: the tree of "ab", then the codes of a and b, and nothing dangling. -/
theorem witness_DecodeWalksTheTree : (stream [0x58, 0xAC, 0x30] 21).cfg.wf ∧
    (stream [0x58, 0xAC, 0x30] 21).bitLen.toNat ≤ State.reset.cfg.bitCap ∧
    treeAb.nodes ≤ State.reset.cfg.nodeCap ∧ treeAb.symsFit State.reset.cfg ∧
    (∀ e ∈ [((0x61 : Symbol), [true]), (0x62, [false])], e ∈ treeAb.paths) ∧
    [((0x61 : Symbol), [true]), (0x62, [false])].length * State.reset.cfg.symBytes ≤ State.reset.cfg.outCap ∧
    (stream [0x58, 0xAC, 0x30] 21).bitsSeq = treeAb.ser Config.reference ++
      ([((0x61 : Symbol), [true]), (0x62, [false])].flatMap Prod.snd ++ []) :=
  ⟨by decide, by decide, by decide, treeAb_symsFit, by simp [treeAb, CodeTree.paths], by decide, by decide⟩
/-- The tree of a, b and c: a = 0, b = 10, c = 11. -/
def treeAbc : CodeTree := .node (.leaf 0x61 0) (.node (.leaf 0x62 0) (.leaf 0x63 0) 0) 0
theorem treeAbc_symsFit : treeAbc.symsFit Config.reference := by
  intro x hx
  simp only [treeAbc, CodeTree.syms, List.cons_append, List.nil_append, List.mem_cons, List.not_mem_nil, or_false] at hx
  rcases hx with rfl | rfl | rfl <;> decide
/-- A stream of that tree with the dangling code 1. -/
theorem witness_DecodeWalksTheTree_dangling : (stream [0x58, 0x56, 0x2B, 0x1C] 30).bitsSeq =
      treeAbc.ser Config.reference ++ (([] : List (Symbol × Bits)).flatMap Prod.snd ++ [true]) ∧
    treeAbc.nodes ≤ State.reset.cfg.nodeCap ∧ treeAbc.symsFit State.reset.cfg ∧ treeAbc.partialCode [true] :=
  ⟨by decide, by decide, treeAbc_symsFit, by decide, ((0x62 : Symbol), [true, false]), by decide, by decide, by decide⟩
/-- R249: nine symbols against `OUT_CAP` = 8 are CAPACITY, though a code dangles after them. -/
theorem test_decode_overflow : get (exec .decode (withBits [0x58, 0x56, 0x2B, 0x18, 0x02] 39
    (State.resetWith { Config.reference with outCap := 8 } 0))) (fun t => (t.err, t.outLen)) =
    some (some .capacity, 0) := by decide
theorem witness_DecodeWalksTheTree_overflow : (withBits [0x58, 0x56, 0x2B, 0x18, 0x02] 39
      (State.resetWith { Config.reference with outCap := 8 } 0)).bitsSeq =
      treeAbc.ser Config.reference ++ ((List.replicate 9 ((0x61 : Symbol), [false])).flatMap Prod.snd ++ [true]) ∧
    (List.replicate 9 ((0x61 : Symbol), [false])).length * 1 > 8 ∧
    (List.replicate 9 ((0x61 : Symbol), [false])).length * 1 ≤ 9 ∧
    Config.wf { Config.reference with outCap := 8 } := by decide
/-- R242: a dangling code fails. -/
theorem test_decode_dangling : get (exec .decode (stream [0x58, 0x56, 0x2B, 0x1C] 30)) (fun t => (t.err, t.outLen)) =
    some (some .truncatedPayload, 0) := by decide
/-- R243: or is dropped, when the host opted in. -/
theorem test_decode_dangling_accepted : get (exec .decode
    { stream [0x58, 0x56, 0x2B, 0x1C] 30 with acceptTrunc := true })
    (fun t => (t.err, t.partialFlag, t.outLen, t.payloadBits)) = some (none, true, 0, 1) := by decide
theorem witness_TraversalMachineIsDecode : [true] ≠ ([] : Bits) := by decide
theorem witness_EncodeDecodeRoundTrip : State.reset.cfg.wf ∧
    get (exec .encode (withIn [0x61, 0x62])) (fun t => t.err) = some none ∧
    (withIn [0x61, 0x62]).inLen.toNat ≤ State.reset.cfg.outCap := by decide
/-- Two states with the same input and different pasts. -/
theorem witness_EncodeAndDecodeReadNoEarlierState :
    (withIn [0x61]).cfg = (withIn [0x61, 0x62]).cfg ∧
    ({ withIn [0x61, 0x62] with inLen := 1, treeValid := true, tree := some treeAb } : State).inLen = (withIn [0x61]).inLen ∧
    ∀ a, a < 1 → (withIn [0x61]).inBuf.byte a = (withIn [0x61, 0x62]).inBuf.byte a := by decide
theorem witness_FailureDestroysOnlyTheWriteSet : get (exec .lookup State.reset) (fun t => t.err) = some (some .noTree) := by
  decide
theorem witness_EngineNeverWritesItsInputs : get (exec .frame State.reset) (fun t => t.outLen) = some 8 := by decide
theorem witness_RunningCommandSeesItsAcceptanceInputs : busyBuild.busy = true ∧ busyBuild.inReset = false ∧
    get (hostStep { busyBuild with script := [.rd 0x08 none] }) (fun t => (t.inReset, t.seen)) =
      some (false, [.reg 8 0x07000001 none]) := by decide
theorem witness_StepKeepsTheConfiguration : get (step { State.reset with script := [.wr 0x0D 5] }) (fun t => t.value) =
    some 5 := by decide
/-- The reset state meets the hypotheses of the three invariants' statements, and a step from it answers. -/
theorem witness_invariants : State.reset.cfg.wf ∧ State.reset.memoryWf ∧ State.reset.statusCoherent ∧
    State.reset.tablesBounded ∧ get (step State.reset) (fun t => t.phase) = some .idle := by
  refine ⟨by decide, by unfold State.memoryWf; decide, by unfold State.statusCoherent; decide, ?_, by decide⟩
  refine ⟨by decide, ?_, by decide, by decide, by decide, by decide, by decide, by decide, by decide, by decide,
    by decide⟩
  intro h; cases h
/-- A state with a tree, both tables and a result meets the bounds too. -/
theorem witness_StepKeepsTheTablesBounded : get (step ((withIn [0x61, 0x62]).acceptWith 0x07 0))
    (fun t => (t.treeValid, t.tree, t.distinct)) = some (true, some treeAb, 2) := by decide

end Sys2Proof.Tests
end

section
/-! The reasoning rules of this family: what a command leaves of the state, said once for all thirteen commands, and
what the host's step, the reset input and the failure of a command keep (spec/60_exceptions.md rules R280 and R281). -/

namespace Sys2Proof.Machine

/-- Everything a command that succeeds makes of the state, before STATUS records its completion (R280). -/
inductive CommandResult (s : State) : Instr → State → Prop where
  | bytesOf : CommandResult s .bytesOf
      ((s.putOut (Machine.bytesOf s.cfg s.symbol)).putReg .outLen (word s.cfg.symBytes))
  | valueOfBytes {v : Symbol} : s.valueOfBytesResult = .ok v → CommandResult s .valueOfBytes (s.putReg .value v)
  | bitsOf : CommandResult s .bitsOf
      ((s.putBits (Machine.bitsOf s.cfg s.symbol)).putReg .bitLen (word s.cfg.w))
  | valueOfBits {v : Symbol} : s.valueOfBitsResult = .ok v → CommandResult s .valueOfBits (s.putReg .value v)
  | frame {bytes : List Byte} : s.frameResult = .ok bytes →
      CommandResult s .frame ((s.putOut bytes).putReg .outLen (word bytes.length))
  | unframe {bits : Bits} : s.unframeResult = .ok bits →
      CommandResult s .unframe ((s.putBits bits).putReg .bitLen (word bits.length))
  | build {b : Built} : s.buildResult = .ok b → CommandResult s .build (s.putBuilt b)
  | freq {n : Count} : s.freqResult = .ok n → CommandResult s .freq (s.putReg .freq (n.setWidth 64))
  | lookup {code : Bits} : s.lookupResult = .ok code →
      CommandResult s .lookup { s.putReg .codeLen (word code.length) with
        codeW := (List.range s.cfg.codeWords).map (codeWord code) }
  | serialize {bits : Bits} : s.serializeResult = .ok bits →
      CommandResult s .serialize
        (((s.putBits bits).putReg .bitLen (word bits.length)).putReg .treeBits (word bits.length))
  | deserialize {t : CodeTree} {k : Nat} : s.deserializeResult = .ok (t, k) →
      CommandResult s .deserialize
        ((({ s with tree := some t }.treeRebuilt false).putReg .distinct (word t.leaves)).putReg .treeBits (word k))
  | encode {e : Encoded} : s.encodeResult = .ok e →
      CommandResult s .encode
        (((((s.putBits (e.treeBits ++ e.payload)).putBuilt e.built).putReg .bitLen
          (word (e.treeBits ++ e.payload).length)).putReg .treeBits (word e.treeBits.length)).putReg
          .payloadBits (word e.payload.length))
  | decode {d : DecodedStream} : s.decodeResult = .ok d → CommandResult s .decode (s.putDecoded d)

/-- Every command completes: with its result, or with the failure of its write set (R280, R281). -/
theorem exec_result {i : Instr} {s t : State} (h : exec i s = .next t) :
    (∃ u, CommandResult s i u ∧ t = u.finish none) ∨ ∃ e, t = (s.failWriteSet i).finish (some e) := by
  have completes : ∀ {α : Type} {r : Except ErrKind α} {apply : α → State → State},
      complete i r apply s = .next t → (∀ x, r = .ok x → CommandResult s i (apply x s)) →
      (∃ u, CommandResult s i u ∧ t = u.finish none) ∨ ∃ e, t = (s.failWriteSet i).finish (some e) := by
    intro α r apply hc hr
    obtain ⟨x, hx, ht⟩ | ⟨e, _, ht⟩ := complete_cases hc
    · exact .inl ⟨_, hr x hx, ht⟩
    · exact .inr ⟨e, ht⟩
  cases i <;> simp only [exec, execBytesOf, execValueOfBytes, execBitsOf, execValueOfBits, execFrame, execUnframe,
    execBuild, execFreq, execLookup, execSerialize, execDeserialize, execEncode, execDecode] at h
  case bytesOf => exact completes h fun x hx => by cases hx; exact .bytesOf
  case valueOfBytes => exact completes h fun x hx => .valueOfBytes hx
  case bitsOf => exact completes h fun x hx => by cases hx; exact .bitsOf
  case valueOfBits => exact completes h fun x hx => .valueOfBits hx
  case frame => exact completes h fun x hx => .frame hx
  case unframe => exact completes h fun x hx => .unframe hx
  case build => exact completes h fun x hx => .build hx
  case freq => exact completes h fun x hx => .freq hx
  case lookup => exact completes h fun x hx => .lookup hx
  case serialize => exact completes h fun x hx => .serialize hx
  case deserialize => exact completes h fun x hx => .deserialize hx
  case encode => exact completes h fun x hx => .encode hx
  case decode => exact completes h fun x hx => .decode hx

/-- A property that zeroing a register, an unspecified buffer, cleared table flags and a cleared PARTIAL keep is kept by
the failure of every command (R281). -/
theorem failWriteSet_induction {P : State → Prop} {s : State} (i : Instr) (hs : P s)
    (reg : ∀ t r, P t → P (t.putReg r 0)) (buf : ∀ t sp, writeSpace i = some sp → P t → P (t.unspecify sp))
    (flags : ∀ t, P t → P t.tablesInvalid) (part : ∀ t, P t → P { t with partialFlag := false }) :
    P (s.failWriteSet i) := by
  have regs : ∀ (rs : List Reg) (t : State), P t → P (rs.foldl (fun t r => t.putReg r 0) t) := by
    intro rs
    induction rs with
    | nil => exact fun t ht => ht
    | cons r rs ih => exact fun t ht => ih _ (reg t r ht)
  have buffer : ∀ t, P t → P (t.failBuffer i) := by
    intro t ht
    unfold State.failBuffer
    cases hsp : writeSpace i with
    | none => exact ht
    | some sp => exact buf t sp hsp ht
  have tables : ∀ t, P t → P (t.failFlags i) := by
    intro t ht
    unfold State.failFlags
    cases writesTree i with
    | false => exact ht
    | true => exact flags t ht
  exact part _ (tables _ (buffer _ (regs _ s hs)))

@[simp] theorem State.failWriteSet_partialFlag (s : State) (i : Instr) : (s.failWriteSet i).partialFlag = false := rfl

@[simp] theorem State.putBuilt_partialFlag (s : State) (b : Built) : (s.putBuilt b).partialFlag = s.partialFlag := rfl

/-- Driving the reset input resets the block or changes nothing (R300). -/
theorem drivePin_cases (level : Bool) (s : State) :
    (∃ asserted, s.drivePin level = s.loadReset asserted) ∨ s.drivePin level = s := by
  unfold State.drivePin
  split_ifs
  · exact .inl ⟨true, rfl⟩
  · exact .inl ⟨false, rfl⟩
  · exact .inr rfl

/-- A write to CMD sets OVR while a command runs, and is accepted while none does (R280, R303). -/
theorem writeCmd_cases (w : Word) (s : State) :
    (s.busy = true ∧ s.writeCmd w = { s with ovr := true }) ∨
      s.busy = false ∧ ∃ n l d, s.writeCmd w = { s.acceptWith w n with latencies := l, draws := d } := by
  unfold State.writeCmd
  cases hb : s.busy with
  | true => exact .inl ⟨rfl, rfl⟩
  | false => exact .inr ⟨rfl, accept_cases w s⟩

end Sys2Proof.Machine
end

section
/-! The STATUS flags: coherent after every step (spec/10_state.md rules R26, R41 and R46). -/

namespace Sys2Proof.Machine

/-- The part of `State.statusCoherent` that is about the tables' flags and the tree alone (R26, R46). -/
def State.flagsCoherent (s : State) : Prop :=
  s.freqValid = s.tableValid ∧ (s.freqValid = true → s.treeValid = true) ∧
  (s.treeEmpty = true → s.treeValid = true) ∧ (s.treeValid = true → s.treeEmpty = s.tree.isNone)

theorem State.statusCoherent.flagsCoherent {s : State} (h : s.statusCoherent) : s.flagsCoherent := by
  obtain ⟨-, -, hft, hfv, he, ht, -⟩ := h
  exact ⟨hft, hfv, he, ht⟩

/-- While a command runs PARTIAL is 0. -/
theorem State.statusCoherent.partialFlag {s : State} (h : s.statusCoherent) (hb : s.busy = true) :
    s.partialFlag = false := (h.1 hb).2.2

/-- Completion leaves a coherent STATUS when the tables' flags are coherent and PARTIAL is set only beside a success
that left a valid tree (R280). -/
theorem statusCoherent_finish {s : State} {e : Option ErrKind} (h : s.flagsCoherent)
    (hp : s.partialFlag = true → e = none ∧ s.treeValid = true) : (s.finish e).statusCoherent := by
  obtain ⟨hft, hfv, he, ht⟩ := h
  exact ⟨fun hb => (by cases hb), fun _ => rfl, hft, hfv, he, ht, hp⟩

/-- A command's results leave the tables' flags coherent: BUILD, ENCODE, DESERIALIZE and DECODE set them with the tree,
the others leave flags and tree alone. -/
theorem CommandResult.flagsCoherent {s u : State} {i : Instr} (h : CommandResult s i u) (hs : s.flagsCoherent) :
    u.flagsCoherent := by
  cases h
  case build | encode | deserialize | decode => exact ⟨rfl, fun _ => rfl, fun _ => rfl, fun _ => rfl⟩
  all_goals simpa [State.flagsCoherent] using hs

/-- Of the commands only DECODE raises PARTIAL, and it leaves a valid tree (R251). -/
theorem CommandResult.treeValid_of_partialFlag {s u : State} {i : Instr} (h : CommandResult s i u)
    (hs : s.partialFlag = false) (hu : u.partialFlag = true) : u.treeValid = true := by
  cases h
  case decode => rfl
  all_goals simp [hs] at hu

/-- A failed command leaves the tables' flags coherent: it clears all four or none (R281). -/
theorem flagsCoherent_failWriteSet {s : State} (i : Instr) (h : s.flagsCoherent) :
    (s.failWriteSet i).flagsCoherent := by
  refine failWriteSet_induction i h (fun t r ht => ?_) (fun t sp _ ht => ?_) (fun t _ => ?_) (fun t ht => ht)
  · simpa [State.flagsCoherent] using ht
  · simpa [State.flagsCoherent] using ht
  · exact ⟨rfl, fun hf => hf, fun hf => hf, fun hf => (by cases hf)⟩

/-- A completion leaves a coherent STATUS. -/
theorem completeOp_statusCoherent {op : Decoded} {s t : State} (h : completeOp op s = .next t)
    (hs : s.statusCoherent) (hb : s.busy = true) : t.statusCoherent := by
  have hp := hs.partialFlag hb
  cases op with
  | illegal why =>
    cases h
    exact statusCoherent_finish hs.flagsCoherent fun hu => absurd (hp.symm.trans hu) Bool.false_ne_true
  | legal i =>
    obtain ⟨u, hu, rfl⟩ | ⟨e, rfl⟩ := exec_result h
    · exact statusCoherent_finish (hu.flagsCoherent hs.flagsCoherent)
        fun hpart => ⟨rfl, hu.treeValid_of_partialFlag hp hpart⟩
    · exact statusCoherent_finish (flagsCoherent_failWriteSet i hs.flagsCoherent)
        fun hpart => absurd hpart (by simp)

/-- The reset values are coherent, in every configuration. -/
theorem statusCoherent_resetWith (c : Config) (g : Nat) : (State.resetWith c g).statusCoherent :=
  ⟨fun hb => (by cases hb), fun _ => rfl, rfl, fun hf => hf, fun hf => hf, fun hf => (by cases hf),
    fun hf => (by cases hf)⟩

/-- No host transaction, nor the reset input, makes STATUS incoherent. -/
theorem BlockEffect.statusCoherent {s t : State} (h : BlockEffect s t) (hs : s.statusCoherent) : t.statusCoherent := by
  cases h with
  | status v _ =>
    obtain ⟨hbusy, hrest⟩ := hs
    refine ⟨fun hb => ?_, hrest⟩
    obtain ⟨hdone, herr, hpart⟩ := hbusy hb
    exact ⟨by rw [State.writeStatus_done, hdone, Bool.false_and], herr, hpart⟩
  | cmd w hr =>
    obtain ⟨-, hw⟩ | ⟨-, n, l, d, hw⟩ := writeCmd_cases w s <;> rw [hw]
    · exact hs
    · obtain ⟨hft, hfv, he, ht⟩ := hs.flagsCoherent
      exact ⟨fun _ => ⟨rfl, rfl, rfl⟩, fun h => absurd (hr.symm.trans h) Bool.false_ne_true, hft, hfv, he, ht,
        fun hf => (by cases hf)⟩
  | pin level =>
    obtain ⟨asserted, hp⟩ | hp := drivePin_cases level s <;> rw [hp]
    · obtain ⟨hbusy, -, hflags⟩ := statusCoherent_resetWith s.cfg s.draws
      exact ⟨hbusy, fun _ => rfl, hflags⟩
    · exact hs
  | _ => exact hs

/-- A host step keeps STATUS coherent. -/
theorem hostStep_statusCoherent {s t : State} (h : hostStep s = .next t) (hs : s.statusCoherent) :
    t.statusCoherent := by
  obtain ⟨p, k, x, d, he⟩ := hostStep_cases h
  exact he.statusCoherent hs

/-- Settles O59: a step is a host step or a completion, and each keeps STATUS coherent. -/
theorem stepKeepsTheStatusCoherent : Obligations.StepKeepsTheStatusCoherent := by
  intro s t hs h
  obtain ⟨-, hh⟩ | ⟨op, n, hp, hh⟩ | ⟨op, n, hp, -, hc⟩ := step_cases h
  · exact hostStep_statusCoherent hh hs
  · have hb : s.busy = true := by simp [State.busy, hp]
    obtain ⟨hbusy, hreset, hflags⟩ := hs
    refine hostStep_statusCoherent hh ⟨fun _ => hbusy hb, fun hr => ?_, hflags⟩
    exact absurd ((hreset hr).symm.trans hb) Bool.false_ne_true
  · exact completeOp_statusCoherent hc hs (by simp [State.busy, hp])

end Sys2Proof.Machine
end

section
/-! The tree builder inside its capacities (spec/42_tree_builder.md rules R164, R170 and R172): the merges permute the
leaves' symbols, and each lengthens a code by at most one bit. -/

namespace Sys2Proof.Machine

/-- A tree has as many leaves as leaf symbols. -/
@[simp] theorem CodeTree.length_syms (t : CodeTree) : t.syms.length = t.leaves := by
  induction t with
  | leaf s f => rfl
  | node l r f ihl ihr => rw [CodeTree.syms, List.length_append, ihl, ihr, CodeTree.leaves]

/-- A full binary tree has one internal node fewer than leaves. -/
theorem CodeTree.nodes_add_one (t : CodeTree) : t.nodes + 1 = 2 * t.leaves := by
  induction t with
  | leaf s f => rfl
  | node l r f ihl ihr => rw [CodeTree.nodes, CodeTree.leaves]; omega

/-- `NODE_CAP` nodes are room for exactly `MAX_DISTINCT` leaves (R7). -/
theorem CodeTree.nodes_le_nodeCap_iff (t : CodeTree) (c : Config) :
    t.nodes ≤ c.nodeCap ↔ t.leaves ≤ c.maxDistinct := by
  have := t.nodes_add_one
  unfold Config.nodeCap
  omega

/-- Inserting an entry by its key adds that entry to the table. -/
theorem perm_insertByKey (c : Config) (e : Symbol × Count) (ft : FreqTable) :
    (insertByKey c e ft).Perm (e :: ft) := by
  induction ft with
  | nil => exact .refl _
  | cons f fs ih =>
    rw [insertByKey]
    split_ifs
    · exact .refl _
    · exact (ih.cons f).trans (.swap e f fs)

/-- The key order rearranges the table (R165). -/
theorem perm_sortByKey (c : Config) (ft : FreqTable) : (sortByKey c ft).Perm ft := by
  induction ft with
  | nil => exact .refl _
  | cons e es ih => exact (perm_insertByKey c e _).trans (ih.cons e)

/-- Inserting a node adds it to the working list (R167). -/
theorem perm_insertOrdered (work : List CodeTree) (n : CodeTree) : (insertOrdered work n).Perm (n :: work) := by
  unfold insertOrdered
  exact List.perm_middle.trans (by rw [List.take_append_drop])

/-- Inserting node after node adds them all to the working list. -/
theorem perm_foldl_insertOrdered (leaves : List CodeTree) : ∀ work : List CodeTree,
    (leaves.foldl insertOrdered work).Perm (leaves ++ work) := by
  induction leaves with
  | nil => exact fun work => .refl _
  | cons t ts ih =>
    intro work
    exact (ih _).trans (((perm_insertOrdered work t).append_left ts).trans List.perm_middle)

/-- The leaves made of a table carry its symbols (R165). -/
theorem perm_syms_makeLeaves (c : Config) (ft : FreqTable) :
    ((makeLeaves c ft).flatMap CodeTree.syms).Perm (ft.map Prod.fst) := by
  have hs : (makeLeaves c ft).flatMap CodeTree.syms = (sortByKey c ft).map Prod.fst := by
    rw [makeLeaves, List.flatMap_map, List.map_eq_flatMap]
    rfl
  rw [hs]
  exact (perm_sortByKey c ft).map Prod.fst

/-- Appending a bit to the codes of some symbols lengthens their codes only. -/
theorem mem_appendBit {syms : List Symbol} {b : Bool} {g : CodeTable} {e : Symbol × Bits}
    (h : e ∈ appendBit syms b g) :
    ∃ e' ∈ g, e'.1 = e.1 ∧ e.2.length = e'.2.length + if e.1 ∈ syms then 1 else 0 := by
  obtain ⟨e', he', rfl⟩ := List.mem_map.1 h
  refine ⟨e', he', ?_⟩
  split_ifs <;> simp

/-- What the merge loop keeps, of a table with the symbols `keys`: the working list holds each of them once, and no
code has outgrown the merges so far, each of which shortens the list by one (R168, R169). -/
structure MergeBounds (keys : List Symbol) (work : List CodeTree) (g : CodeTable) : Prop where
  syms : (work.flatMap CodeTree.syms).Perm keys
  codes : ∀ e ∈ g, 1 ≤ work.length ∧ e.2.length + work.length ≤ keys.length

/-- One merge keeps the bounds: no symbol is under both merged nodes, so each code gets at most one bit. -/
theorem MergeBounds.mergeOnce {keys : List Symbol} (hnd : keys.Nodup) {rest : List CodeTree} {lo ot : CodeTree}
    {g : CodeTable} (h : MergeBounds keys (rest ++ [ot, lo]) g) :
    MergeBounds keys (mergeOnce rest lo ot g).1 (mergeOnce rest lo ot g).2 := by
  have hp := perm_insertOrdered rest (.node lo ot (lo.freq + ot.freq))
  have hsyms : (lo.syms ++ ot.syms ++ rest.flatMap CodeTree.syms).Perm keys := by
    refine List.Perm.trans ?_ h.syms
    rw [List.flatMap_append]
    refine List.perm_append_comm.trans (List.Perm.append_left _ ?_)
    simpa [List.flatMap_cons] using List.perm_append_comm
  constructor
  · refine (hp.flatMap_right _).trans ?_
    rw [List.flatMap_cons]
    exact hsyms
  · intro e he
    obtain ⟨e₁, he₁, hk₁, hl₁⟩ := mem_appendBit he
    obtain ⟨e₀, he₀, hk₀, hl₀⟩ := mem_appendBit he₁
    have hdisj : e.1 ∈ lo.syms → e.1 ∉ ot.syms := by
      have := (hsyms.nodup_iff.2 hnd).of_append_left
      exact fun hlo hot => List.disjoint_of_nodup_append this hlo hot
    have hlen := (h.codes e₀ he₀).2
    have hwork : (Machine.mergeOnce rest lo ot g).1.length = rest.length + 1 := hp.length_eq
    rw [List.length_append] at hlen
    rw [hwork, hl₁, hl₀, hk₁]
    refine ⟨by omega, ?_⟩
    by_cases hlo : e.1 ∈ lo.syms
    · rw [if_pos hlo, if_neg (hdisj hlo)]; simp at hlen; omega
    · rw [if_neg hlo]; split_ifs <;> simp at hlen <;> omega

/-- The merge loop keeps the bounds, for any number of rounds. -/
theorem MergeBounds.mergeRounds {keys : List Symbol} (hnd : keys.Nodup) (n : Nat) :
    ∀ {work : List CodeTree} {g : CodeTable}, MergeBounds keys work g →
      MergeBounds keys (mergeRounds n (work, g)).1 (mergeRounds n (work, g)).2 := by
  induction n with
  | zero => exact fun h => h
  | succ n ih =>
    intro work g h
    rw [Machine.mergeRounds]
    rcases hw : work.reverse with _ | ⟨lo, _ | ⟨ot, rest⟩⟩
    · exact h
    · exact h
    · have : work = rest.reverse ++ [ot, lo] := by
        rw [← List.reverse_reverse work, hw]; simp
      exact ih ((this ▸ h).mergeOnce hnd)

/-- The tree and the codes the builder makes of a table are inside the bounds the table's length gives (R172). -/
theorem mergeLoop_bounds (c : Config) {ft : FreqTable} (hnd : (ft.map Prod.fst).Nodup) :
    (∀ t, (mergeLoop ft (makeLeaves c ft)).1 = some t →
      t.leaves ≤ List.length ft ∧ ∀ x ∈ t.syms, x ∈ ft.map Prod.fst) ∧
    ∀ e ∈ (mergeLoop ft (makeLeaves c ft)).2, e.2.length + 1 ≤ List.length ft := by
  have hwork := perm_foldl_insertOrdered (makeLeaves c ft) []
  rw [List.append_nil] at hwork
  have hlen : ((makeLeaves c ft).foldl insertOrdered []).length = List.length ft := by
    rw [hwork.length_eq, makeLeaves, List.length_map, (perm_sortByKey c ft).length_eq]
  have hstart : MergeBounds (ft.map Prod.fst) ((makeLeaves c ft).foldl insertOrdered [])
      (ft.map fun e => (e.1, [])) := by
    refine ⟨(hwork.flatMap_right _).trans (perm_syms_makeLeaves c ft), fun e he => ?_⟩
    obtain ⟨e', he', rfl⟩ := List.mem_map.1 he
    rw [hlen, List.length_map]
    exact ⟨List.length_pos_of_mem he', by simp⟩
  obtain ⟨hsyms, hcodes⟩ := hstart.mergeRounds hnd (makeLeaves c ft).length
  refine ⟨fun t ht => ?_, fun e he => ?_⟩
  · have hmem : t ∈ (mergeRounds (makeLeaves c ft).length
        ((makeLeaves c ft).foldl insertOrdered [], ft.map fun e => (e.1, []))).1 := List.mem_of_head? ht
    have hsub : ∀ x ∈ t.syms, x ∈ ft.map Prod.fst :=
      fun x hx => hsyms.mem_iff.1 (List.mem_flatMap.2 ⟨t, hmem, hx⟩)
    refine ⟨?_, hsub⟩
    have hle : t.syms.length ≤ (List.flatMap CodeTree.syms _).length :=
      (List.sublist_flatten_of_mem (List.mem_map_of_mem hmem)).length_le
    rwa [hsyms.length_eq, List.length_map, CodeTree.length_syms] at hle
  · obtain ⟨e', he', rfl⟩ := List.mem_map.1 he
    have := hcodes e' he'
    rw [List.length_map] at this
    simp
    omega

end Sys2Proof.Machine
end

section
/-! What the commands' results stay inside (spec/10_state.md rules R45 to R47, spec/60_exceptions.md rule R277). -/

namespace Sys2Proof.Machine

/-- A sequence of checks succeeds only when its first check and the rest of it do. -/
theorem bind_eq_ok {ε α β : Type} {x : Except ε α} {f : α → Except ε β} {b : β} (h : x >>= f = .ok b) :
    ∃ a, x = .ok a ∧ f a = .ok b := by
  cases x with
  | error e => cases h
  | ok a => exact ⟨a, rfl, h⟩

/-- A command that reads IN_LEN and succeeds found it within IN (R276). -/
theorem inLen_le_of_checkInLen {s : State} {u : Unit} (h : s.checkInLen = .ok u) : s.inLen.toNat ≤ s.cfg.inCap := by
  by_contra hn
  rw [checkInLen_error (by omega)] at h
  cases h

/-- A command that reads BIT_LEN and succeeds found it within BITS (R276). -/
theorem bitLen_le_of_checkBitLen {s : State} {u : Unit} (h : s.checkBitLen = .ok u) :
    s.bitLen.toNat ≤ s.cfg.bitCap := by
  by_contra hn
  rw [checkBitLen_error (by omega)] at h
  cases h

/-- A symbol has between 1 and 8 bytes (R6). -/
theorem symBytes_bounds {c : Config} (h : c.wf) : 1 ≤ c.symBytes ∧ c.symBytes ≤ 8 := by
  obtain ⟨hsym, -⟩ := h
  omega

/-- A symbol has at most 64 bits (R6). -/
theorem w_le_of_wf {c : Config} (h : c.wf) : c.w ≤ 64 := by
  have := symBytes_bounds h
  unfold Config.w
  omega

/-- An input symbol is a `W`-bit value (R121). -/
theorem State.toNat_lt_of_mem_inputSymbols {s : State} {x : Symbol} (h : x ∈ s.inputSymbols) :
    x.toNat < 2 ^ s.cfg.w := by
  obtain ⟨i, -, rfl⟩ := List.mem_map.1 h
  rw [BitVec.toNat_ofNat]
  refine lt_of_le_of_lt (Nat.mod_le _ _) (lt_of_lt_of_le (leBytesValue_lt _) (le_of_eq ?_))
  rw [Buffer.length_readBytes, Config.w, Nat.pow_mul]

/-- The symbols of an input's table are those of the input (R164). -/
theorem State.mem_keys_inputTable {s : State} {x : Symbol} (h : x ∈ s.inputTable.map Prod.fst) :
    x ∈ s.inputSymbols := by
  obtain ⟨hs, hcount, -⟩ := s.inputTable_spec
  have hne := (hs.mem_iff x).1 h
  refine List.count_pos_iff.1 ?_
  rw [← hcount]
  exact Nat.pos_of_ne_zero fun h0 => hne (BitVec.eq_of_toNat_eq h0)

/-- A tree fits the node store and carries `W`-bit symbols (R46). -/
def CodeTree.bounded (c : Config) (t : CodeTree) : Prop := t.nodes ≤ c.nodeCap ∧ t.symsFit c

/-- What the builder makes stays inside the capacities (R45 to R47, R172). -/
structure Built.bounded (c : Config) (b : Built) : Prop where
  tree : ∀ t, b.tree = some t → t.bounded c
  length : List.length b.freqTable ≤ c.maxDistinct
  entries : ∀ e ∈ b.freqTable, 1 ≤ e.2.toNat ∧ e.2.toNat ≤ c.inCap ∧ e.1.toNat < 2 ^ c.w
  codes : ∀ e ∈ b.codeTable, e.2.length ≤ c.maxCodeLen
  syms : b.syms.length ≤ c.inCap

/-- BUILD's tables stay inside the capacities (R164, R172). -/
theorem buildResult_bounded {s : State} {b : Built} (h : s.buildResult = .ok b) : b.bounded s.cfg := by
  obtain ⟨u, hcheck, hb⟩ := bind_eq_ok h
  have hin := inLen_le_of_checkInLen hcheck
  rw [buildFrom_eq] at hb
  split_ifs at hb with hpart hmany
  cases hb
  obtain ⟨hs, hcount, hlen⟩ := s.inputTable_spec
  obtain ⟨htree, hcodes⟩ := mergeLoop_bounds s.cfg hs.nodup
  have hsyms : s.inputSymbols.length ≤ s.cfg.inCap := by
    rw [State.length_inputSymbols]
    exact (Nat.div_le_self _ _).trans hin
  refine ⟨fun t ht => ?_, by dsimp only; omega, fun e he => ?_, fun e he => ?_, hsyms⟩
  · obtain ⟨hl, hx⟩ := htree t ht
    refine ⟨(t.nodes_le_nodeCap_iff s.cfg).2 (by omega), fun x hm => ?_⟩
    exact State.toNat_lt_of_mem_inputSymbols (State.mem_keys_inputTable (hx x hm))
  · have hcnt : e.2.toNat = s.inputSymbols.count e.1 := by rw [← hcount, FreqTable.count_of_mem hs.nodup he]
    have hle : s.inputSymbols.count e.1 ≤ s.inputSymbols.length := List.count_le_length
    have hmem := State.mem_keys_inputTable (List.mem_map_of_mem he)
    have hpos := List.count_pos_iff.2 hmem
    exact ⟨by omega, by omega, State.toNat_lt_of_mem_inputSymbols hmem⟩
  · have := hcodes e he
    unfold Config.maxCodeLen
    omega

/-- ENCODE's tables stay inside the capacities, and its stream inside BITS (R250). -/
theorem encodeResult_bounded {s : State} {e : Encoded} (h : s.encodeResult = .ok e) :
    e.built.bounded s.cfg ∧ e.treeBits.length + e.payload.length ≤ s.cfg.bitCap := by
  obtain ⟨u, hcheck, h⟩ := bind_eq_ok h
  obtain ⟨b, hb, h⟩ := bind_eq_ok h
  dsimp only at h
  split_ifs at h with hlong
  cases h
  rw [List.length_append] at hlong
  refine ⟨buildResult_bounded ?_, by dsimp only; omega⟩
  rw [State.buildResult, hcheck]
  exact hb

/-- A tree read from a stream fits the node store, and its bits lie in the stream (R203). -/
theorem deser_bounded {c : Config} (hc : c.wf) {bits : Bits} {start k : Nat} {t : CodeTree}
    (h : deser c bits start = .ok (t, k)) : t.bounded c ∧ k ≤ bits.length := by
  obtain ⟨⟨t', cur, count⟩, hnode, h⟩ := bind_eq_ok h
  cases h
  obtain ⟨-, -, hcur, hcount, hcap, hfit, -⟩ := deserNode_sound (w_le_of_wf hc) bits hnode (Nat.zero_le _)
  exact ⟨⟨by omega, hfit⟩, by omega⟩

/-- DESERIALIZE's tree fits the node store, and its bits lie in BITS (R206). -/
theorem deserializeResult_bounded {s : State} (hc : s.cfg.wf) {t : CodeTree} {k : Nat}
    (h : s.deserializeResult = .ok (t, k)) : t.bounded s.cfg ∧ k ≤ s.cfg.bitCap := by
  obtain ⟨u, hcheck, h⟩ := bind_eq_ok h
  obtain ⟨ht, hk⟩ := deser_bounded hc h
  rw [length_bitsSeq] at hk
  exact ⟨ht, hk.trans (bitLen_le_of_checkBitLen hcheck)⟩

/-- What DECODE makes of a stream of `n` bits stays inside the capacities. -/
structure DecodedStream.bounded (c : Config) (n : Nat) (d : DecodedStream) : Prop where
  tree : ∀ t, d.tree = some t → t.bounded c
  out : d.out.length * c.symBytes ≤ c.outCap
  treeBits : d.k ≤ n
  payloadBits : d.used ≤ n

/-- The decoded symbols fit OUT, for both kinds of tree (R244, R249). -/
theorem decodePayload_bounded {c : Config} {bits : Bits} {expCount k : Nat} {acceptTrunc : Bool} {t : CodeTree}
    {d : DecodedStream} (h : decodePayload c bits expCount acceptTrunc t k = .ok d) (ht : t.bounded c)
    (hk : k ≤ bits.length) : d.bounded c bits.length := by
  have hnone : ([] : List Symbol).length * c.symBytes ≤ c.outCap := by simp
  cases t with
  | leaf x f =>
    obtain ⟨out, hout, h⟩ := bind_eq_ok h
    cases h
    rw [emitRepeat_eq c x expCount hnone] at hout
    split_ifs at hout with hlong
    cases hout
    refine ⟨fun t' e => ?_, by simp at hlong ⊢; omega, hk, Nat.zero_le _⟩
    cases e; exact ht
  | node l r f =>
    obtain ⟨⟨out, part⟩, hout, h⟩ := bind_eq_ok h
    cases h
    refine ⟨fun t' e => ?_, ?_, hk, Nat.sub_le _ _⟩
    · cases e; exact ht
    · obtain ⟨out', part', hw, -, hfit, -⟩ | hw | ⟨hw, -⟩ :=
        walk_cases c acceptTrunc (.node l r f) (bits.drop k) (.node l r f) 0 [] hnone <;> rw [hw] at hout
      · cases hout; exact hfit
      · cases hout
      · cases hout

/-- DECODE's results stay inside the capacities (R246, R251). -/
theorem decodeResult_bounded {s : State} (hc : s.cfg.wf) {d : DecodedStream} (h : s.decodeResult = .ok d) :
    d.bounded s.cfg s.cfg.bitCap := by
  obtain ⟨u, hcheck, h⟩ := bind_eq_ok h
  have hlen := bitLen_le_of_checkBitLen hcheck
  rw [← length_bitsSeq] at hlen
  unfold decodeFrom at h
  split_ifs at h
  · cases h
    exact ⟨fun t e => (by cases e), by simp, Nat.zero_le _, Nat.zero_le _⟩
  · obtain ⟨⟨t, k⟩, htree, h⟩ := bind_eq_ok h
    obtain ⟨ht, hk⟩ := deser_bounded hc htree
    obtain ⟨h1, h2, h3, h4⟩ := decodePayload_bounded h ht hk
    exact ⟨h1, h2, h3.trans hlen, h4.trans hlen⟩

/-- FRAME's bytes fit OUT (R144). -/
theorem frameResult_bounded {s : State} {bytes : List Byte} (h : s.frameResult = .ok bytes) :
    bytes.length ≤ s.cfg.outCap := by
  obtain ⟨u, -, h⟩ := bind_eq_ok h
  split_ifs at h with hlong
  cases h
  rw [length_frameBytes, length_bitsSeq]
  omega

/-- SERIALIZE's bits fit BITS (R205). -/
theorem serializeResult_bounded {s : State} {bits : Bits} (h : s.serializeResult = .ok bits) :
    bits.length ≤ s.cfg.bitCap := by
  unfold State.serializeResult at h
  split_ifs at h with hv hlong
  cases h
  omega

/-- What a table lists for a symbol is one of its entries. -/
theorem mem_of_lookup {α : Type} {x : Symbol} {a : α} {l : List (Symbol × α)} (h : List.lookup x l = some a) :
    (x, a) ∈ l := by
  obtain ⟨l₁, l₂, rfl, -⟩ := List.lookup_eq_some_iff.1 h
  exact List.mem_append_right l₁ (.head _)

/-- FREQ's count is 0 or a count of the valid table (R177). -/
theorem freqResult_bounded {s : State} {n : Count} (h : s.freqResult = .ok n) (hs : s.tablesBounded) :
    n.toNat ≤ s.cfg.inCap := by
  obtain ⟨-, -, hfreq, -⟩ := hs
  unfold State.freqResult at h
  split_ifs at h with hv
  cases h
  unfold FreqTable.count
  cases hl : List.lookup s.symbol s.freqTable with
  | none => exact Nat.zero_le _
  | some n => exact ((hfreq hv).2 _ (mem_of_lookup hl)).2.1

/-- LOOKUP's code is a code of the valid table (R178). -/
theorem lookupResult_bounded {s : State} {code : Bits} (h : s.lookupResult = .ok code) (hs : s.tablesBounded) :
    code.length ≤ s.cfg.maxCodeLen := by
  obtain ⟨-, -, -, hcodes, -⟩ := hs
  unfold State.lookupResult at h
  split_ifs at h with hv
  cases hl : List.lookup s.symbol s.codeTable with
  | none => rw [hl] at h; cases h
  | some code' => rw [hl] at h; cases h; exact hcodes hv _ (mem_of_lookup hl)

end Sys2Proof.Machine
end

section
/-! The tables and the result registers: inside their capacities after every step (spec/10_state.md rules R45 to R47,
spec/60_exceptions.md rule R277). -/

namespace Sys2Proof.Machine

/-- What `State.tablesBounded` bounds a register by; a register it does not speak of is bounded by its width. -/
def resultCap (c : Config) : Reg → Nat
  | .outLen => c.outCap
  | .symCount => max c.inCap c.outCap
  | .distinct => c.maxDistinct
  | .treeBits => c.bitCap
  | .payloadBits => c.bitCap
  | .freq => c.inCap
  | .codeLen => c.maxCodeLen
  | _ => 2 ^ 64

/-- A count written to a register is the count or, wrapped, less. -/
theorem toNat_word_le {n m : Nat} (h : n ≤ m) : (word n).toNat ≤ m := by
  rw [word, BitVec.toNat_ofNat]
  exact (Nat.mod_le _ _).trans h

/-- A state of configuration `c` whose tables and result registers are inside its capacities. -/
def State.boundedIn (c : Config) (s : State) : Prop := s.cfg = c ∧ s.tablesBounded

section Updates

variable {c : Config} {s : State} (h : s.boundedIn c)
include h

/-- Writing a result register within its capacity keeps the bounds. -/
theorem State.boundedIn.putReg {r : Reg} {v : Word} (hv : v.toNat ≤ resultCap c r) : (s.putReg r v).boundedIn c := by
  obtain ⟨rfl, hw, ht, hf, hc, hout, htree, hpay, hdist, hsym, hfreq, hlen⟩ := h
  refine ⟨s.putReg_cfg r v, ?_⟩
  cases r
  case outLen => exact ⟨hw, ht, hf, hc, hv, htree, hpay, hdist, hsym, hfreq, hlen⟩
  case symCount => exact ⟨hw, ht, hf, hc, hout, htree, hpay, hdist, hv, hfreq, hlen⟩
  case distinct => exact ⟨hw, ht, hf, hc, hout, htree, hpay, hv, hsym, hfreq, hlen⟩
  case treeBits => exact ⟨hw, ht, hf, hc, hout, hv, hpay, hdist, hsym, hfreq, hlen⟩
  case payloadBits => exact ⟨hw, ht, hf, hc, hout, htree, hv, hdist, hsym, hfreq, hlen⟩
  case freq => exact ⟨hw, ht, hf, hc, hout, htree, hpay, hdist, hsym, hv, hlen⟩
  case codeLen => exact ⟨hw, ht, hf, hc, hout, htree, hpay, hdist, hsym, hfreq, hv⟩
  case codeW j =>
    exact ⟨(List.length_set).trans hw, ht, hf, hc, hout, htree, hpay, hdist, hsym, hfreq, hlen⟩
  all_goals exact ⟨hw, ht, hf, hc, hout, htree, hpay, hdist, hsym, hfreq, hlen⟩

/-- VALUE and BIT_LEN take any value. -/
theorem State.boundedIn.putReg_any {r : Reg} {v : Word} (hr : resultCap c r = 2 ^ 64) : (s.putReg r v).boundedIn c :=
  h.putReg (hr ▸ v.isLt.le)

/-- PARTIAL is no part of the tables. -/
theorem State.boundedIn.partialFlag (b : Bool) : ({ s with partialFlag := b } : State).boundedIn c := h

/-- Writing BITS or OUT touches no table and no register. -/
theorem State.boundedIn.putBits (bits : Bits) : (s.putBits bits).boundedIn c := h

theorem State.boundedIn.putOut (bytes : List Byte) : (s.putOut bytes).boundedIn c := h

/-- Taking over a rebuilt tree inside the capacities keeps the bounds; the other tables become invalid (R206, R251). -/
theorem State.boundedIn.treeRebuilt {t : Option CodeTree} (empty : Bool) (ht : ∀ t', t = some t' → t'.bounded c) :
    ({ s with tree := t }.treeRebuilt empty).boundedIn c := by
  obtain ⟨rfl, hw, -, -, -, hregs⟩ := h
  exact ⟨rfl, hw, fun _ => ht, fun hf => (by cases hf), fun hf => (by cases hf), hregs⟩

/-- Taking over built tables inside the capacities keeps the bounds (R176, R250). -/
theorem State.boundedIn.putBuilt {b : Built} (hb : b.bounded c) : (s.putBuilt b).boundedIn c := by
  obtain ⟨rfl, hw, -, -, -, hregs⟩ := h
  have htables : State.boundedIn s.cfg ({ s with freqTable := b.freqTable, tree := b.tree, codeTable := b.codeTable }
      |>.tablesBuilt b.tree.isNone) :=
    ⟨rfl, hw, fun _ => hb.tree, fun _ => ⟨hb.length, hb.entries⟩, fun _ => hb.codes, hregs⟩
  exact (htables.putReg (toNat_word_le (hb.syms.trans (Nat.le_max_left _ _)))).putReg (toNat_word_le hb.length)

/-- Taking over what DECODE made keeps the bounds (R251). -/
theorem State.boundedIn.putDecoded (hwf : c.wf) {d : DecodedStream} (hd : d.bounded c c.bitCap) :
    (s.putDecoded d).boundedIn c := by
  have hsym : d.out.length ≤ max c.inCap c.outCap :=
    ((Nat.le_mul_of_pos_right _ (symBytes_bounds hwf).1).trans hd.out).trans (Nat.le_max_right _ _)
  have hdist : treeLeaves d.tree ≤ c.maxDistinct := by
    cases ht : d.tree with
    | none => exact Nat.zero_le _
    | some t => exact (t.nodes_le_nodeCap_iff c).1 (hd.tree t ht).1
  have hout : d.out.length * s.cfg.symBytes ≤ c.outCap := h.1 ▸ hd.out
  have hbytes := (h.treeRebuilt d.tree.isNone hd.tree).putOut (d.out.flatMap (bytesOf s.cfg))
  unfold State.putDecoded
  refine State.boundedIn.partialFlag (State.boundedIn.putReg (State.boundedIn.putReg (State.boundedIn.putReg
    (State.boundedIn.putReg (State.boundedIn.putReg hbytes ?_) ?_) ?_) ?_) ?_) _
  · exact toNat_word_le hout
  · exact toNat_word_le hsym
  · exact toNat_word_le hdist
  · exact toNat_word_le hd.treeBits
  · exact toNat_word_le hd.payloadBits

end Updates

/-- A command's results keep the bounds. -/
theorem CommandResult.boundedIn {s u : State} {i : Instr} (h : CommandResult s i u) (hc : s.cfg.wf)
    (hs : s.tablesBounded) : u.boundedIn s.cfg := by
  have hb : s.boundedIn s.cfg := ⟨rfl, hs⟩
  cases h with
  | bytesOf =>
    have hsym := (symBytes_bounds hc).2
    obtain ⟨-, -, ⟨hcap, -⟩, -⟩ := hc
    exact (hb.putOut _).putReg (toNat_word_le (hsym.trans hcap))
  | valueOfBytes _ => exact hb.putReg_any rfl
  | bitsOf => exact (hb.putBits _).putReg_any rfl
  | valueOfBits _ => exact hb.putReg_any rfl
  | frame hr => exact (hb.putOut _).putReg (toNat_word_le (frameResult_bounded hr))
  | unframe _ => exact (hb.putBits _).putReg_any rfl
  | build hr => exact hb.putBuilt (buildResult_bounded hr)
  | freq hr => exact hb.putReg (by rw [BitVec.setWidth_eq]; exact freqResult_bounded hr hs)
  | lookup hr =>
    obtain ⟨-, -, hrest⟩ := hb.putReg (r := .codeLen) (toNat_word_le (lookupResult_bounded hr hs))
    exact ⟨rfl, by simp, hrest⟩
  | serialize hr =>
    exact ((hb.putBits _).putReg_any rfl).putReg (toNat_word_le (serializeResult_bounded hr))
  | deserialize hr =>
    obtain ⟨ht, hk⟩ := deserializeResult_bounded hc hr
    have hleaves := (CodeTree.nodes_le_nodeCap_iff _ s.cfg).1 ht.1
    have htree := hb.treeRebuilt false fun t' e => Option.some.inj e ▸ ht
    exact (htree.putReg (toNat_word_le hleaves)).putReg (toNat_word_le hk)
  | encode hr =>
    obtain ⟨hbuilt, hlen⟩ := encodeResult_bounded hr
    exact ((((hb.putBits _).putBuilt hbuilt).putReg_any rfl).putReg
      (toNat_word_le (Nat.le_of_add_right_le hlen))).putReg (toNat_word_le (Nat.le_of_add_left_le hlen))
  | decode hr => exact hb.putDecoded hc (decodeResult_bounded hc hr)

/-- A failed command keeps the bounds: its registers become 0, and tables only become invalid (R281). -/
theorem tablesBounded_failWriteSet {s : State} (i : Instr) (h : s.tablesBounded) :
    (s.failWriteSet i).tablesBounded := by
  have reg : ∀ (t : State) (r : Reg), t.tablesBounded → (t.putReg r 0).tablesBounded :=
    fun t r ht => (State.boundedIn.putReg ⟨rfl, ht⟩ (Nat.zero_le _)).2
  refine failWriteSet_induction i h reg (fun t sp _ ht => ?_) (fun t ht => ?_)
    (fun t ht => ht)
  · simpa [State.tablesBounded] using ht
  · obtain ⟨hw, -, -, -, hregs⟩ := ht
    exact ⟨hw, fun hf => (by cases hf), fun hf => (by cases hf), fun hf => (by cases hf), hregs⟩

/-- A completion keeps the bounds. -/
theorem completeOp_tablesBounded {op : Decoded} {s t : State} (h : completeOp op s = .next t) (hc : s.cfg.wf)
    (hs : s.tablesBounded) : t.tablesBounded := by
  cases op with
  | illegal why => cases h; exact hs
  | legal i =>
    obtain ⟨u, hu, rfl⟩ | ⟨e, rfl⟩ := exec_result h
    · exact (hu.boundedIn hc hs).2
    · exact tablesBounded_failWriteSet i hs

/-- The reset values meet the bounds, in every configuration. -/
theorem tablesBounded_resetWith (c : Config) (g : Nat) : (State.resetWith c g).tablesBounded :=
  ⟨List.length_replicate, fun hf => (by cases hf), fun hf => (by cases hf), fun hf => (by cases hf), Nat.zero_le _,
    Nat.zero_le _, Nat.zero_le _, Nat.zero_le _, Nat.zero_le _, Nat.zero_le _, Nat.zero_le _⟩

/-- No host transaction, nor the reset input, breaks the bounds. -/
theorem BlockEffect.tablesBounded {s t : State} (h : BlockEffect s t) (hs : s.tablesBounded) : t.tablesBounded := by
  cases h with
  | cmd w _ =>
    obtain ⟨-, hw⟩ | ⟨-, n, l, d, hw⟩ := writeCmd_cases w s <;> rw [hw] <;> exact hs
  | pin level =>
    obtain ⟨asserted, hp⟩ | hp := drivePin_cases level s <;> rw [hp]
    · exact tablesBounded_resetWith s.cfg s.draws
    · exact hs
  | _ => exact hs

/-- A host step keeps the bounds. -/
theorem hostStep_tablesBounded {s t : State} (h : hostStep s = .next t) (hs : s.tablesBounded) : t.tablesBounded := by
  obtain ⟨p, k, x, d, he⟩ := hostStep_cases h
  exact he.tablesBounded hs

/-- Settles O60: a step is a host step or a completion, and each keeps the bounds. -/
theorem stepKeepsTheTablesBounded : Obligations.StepKeepsTheTablesBounded := by
  intro s t hc hs h
  obtain ⟨-, hh⟩ | ⟨op, n, -, hh⟩ | ⟨op, n, -, -, hop⟩ := step_cases h
  · exact hostStep_tablesBounded hh hs
  · exact hostStep_tablesBounded hh hs
  · exact completeOp_tablesBounded hop hc hs

end Sys2Proof.Machine
end

section
/-! What no command writes, and what no step changes (spec/10_state.md rules R22, R23, R27, R30, R32 and R44,
spec/20_memory.md rule R66). -/

namespace Sys2Proof.Machine

/-- `t` has the configuration, the inputs and the host of `s`: the whole state but the phase, DONE, ERR, PARTIAL, the
results, BITS, OUT, the tables and the count of draws. -/
def State.keepsInputs (s t : State) : Prop :=
  t.cfg = s.cfg ∧ t.inBuf = s.inBuf ∧ t.inLen = s.inLen ∧ t.start = s.start ∧ t.expCount = s.expCount ∧
  t.acceptTrunc = s.acceptTrunc ∧ t.irqEn = s.irqEn ∧ t.ovr = s.ovr ∧ t.lastOp = s.lastOp ∧
  t.inReset = s.inReset ∧ t.script = s.script ∧ t.scriptPos = s.scriptPos ∧ t.pending = s.pending ∧
  t.seen = s.seen ∧ t.latencies = s.latencies

theorem State.keepsInputs_refl (s : State) : s.keepsInputs s :=
  ⟨rfl, rfl, rfl, rfl, rfl, rfl, rfl, rfl, rfl, rfl, rfl, rfl, rfl, rfl, rfl⟩

/-- No command's write set holds IN (R49, R66). -/
theorem writeSpace_ne_input (i : Instr) : writeSpace i ≠ some .input := by cases i <;> decide

/-- A command's results are none of its inputs. -/
theorem CommandResult.keepsInputs {s u : State} {i : Instr} (h : CommandResult s i u) : s.keepsInputs u := by
  cases h <;> simp [State.keepsInputs, State.putBuilt, State.putDecoded]

/-- A failure spares the inputs (R282). -/
theorem keepsInputs_failWriteSet (s : State) (i : Instr) : s.keepsInputs (s.failWriteSet i) := by
  refine failWriteSet_induction i s.keepsInputs_refl (fun t r ht => ?_) (fun t sp hsp ht => ?_)
    (fun t ht => ht) (fun t ht => ht)
  · simpa [State.keepsInputs] using ht
  · cases sp with
    | input => exact absurd hsp (writeSpace_ne_input i)
    | bits => exact ht
    | output => exact ht

/-- Every command keeps its inputs. -/
theorem exec_keepsInputs {i : Instr} {s t : State} (h : exec i s = .next t) : s.keepsInputs t := by
  obtain ⟨u, hu, rfl⟩ | ⟨e, rfl⟩ := exec_result h
  · exact hu.keepsInputs
  · exact keepsInputs_failWriteSet s i

/-- Settles O54: a command's results and its failure both keep the inputs. -/
theorem engineNeverWritesItsInputs : Obligations.EngineNeverWritesItsInputs := by
  intro i s t h
  obtain ⟨-, hinputs⟩ := exec_keepsInputs h
  exact hinputs

/-- A completion keeps the configuration. -/
theorem completeOp_cfg {op : Decoded} {s t : State} (h : completeOp op s = .next t) : t.cfg = s.cfg := by
  cases op with
  | illegal why => cases h; rfl
  | legal i => exact (exec_keepsInputs h).1

/-- No host transaction, nor the reset input, changes the configuration. -/
theorem BlockEffect.cfg {s t : State} (h : BlockEffect s t) : t.cfg = s.cfg := by
  cases h with
  | cmd w _ => obtain ⟨-, hw⟩ | ⟨-, n, l, d, hw⟩ := writeCmd_cases w s <;> simp [hw]
  | pin level =>
    obtain ⟨asserted, hp⟩ | hp := drivePin_cases level s
    · rw [hp]; rfl
    · rw [hp]
  | _ => rfl

/-- A host step keeps the configuration. -/
theorem hostStep_cfg {s t : State} (h : hostStep s = .next t) : t.cfg = s.cfg := by
  obtain ⟨p, k, x, d, he⟩ := hostStep_cases h
  exact he.cfg

/-- Settles O56: a step is a host step or a completion, and each keeps the configuration. -/
theorem stepKeepsTheConfiguration : Obligations.StepKeepsTheConfiguration := by
  intro s t h
  obtain ⟨-, hh⟩ | ⟨op, n, -, hh⟩ | ⟨op, n, -, -, hop⟩ := step_cases h
  · exact hostStep_cfg hh
  · exact (hostStep_cfg hh).trans rfl
  · exact completeOp_cfg hop

end Sys2Proof.Machine
end

section
/-! Register numbers, register accesses and the STATUS and CTRL words (spec/10_state.md rules R21 to R40,
spec/20_memory.md rules R61, R74 and R80). -/

namespace Sys2Proof.Machine

/-- A register the host cannot write (R21 to R40). -/
def Reg.isReadOnly : Reg → Bool
  | .ctrl => false
  | .cmd => false
  | .status => false
  | .inLen => false
  | .bitLen => false
  | .start => false
  | .value => false
  | .expCount => false
  | _ => true

/-- From 0x15 up a number names a CODE_W register or is reserved (R39, R40). -/
theorem regOfNumber_of_ge {n : Nat} (c : Config) (h : 0x15 ≤ n) :
    regOfNumber c n = if 0x20 ≤ n ∧ n < 0x20 + c.codeWords then .codeW (n - 0x20) else .reserved := by
  obtain ⟨k, rfl⟩ := Nat.exists_eq_add_of_le' h
  rfl

/-- Between the last named register and the first CODE_W, and above the last, a number is reserved (R40). -/
theorem regOfNumber_reserved {n : Nat} {c : Config} (h : (0x15 ≤ n ∧ n ≤ 0x1F) ∨ 0x20 + c.codeWords ≤ n) :
    regOfNumber c n = .reserved := by
  rw [regOfNumber_of_ge c (by omega), if_neg (by omega)]

/-- The numbers of the CODE_W registers (R39). -/
theorem regOfNumber_codeW {j : Nat} {c : Config} (h : j < c.codeWords) : regOfNumber c (0x20 + j) = .codeW j := by
  rw [regOfNumber_of_ge c (by omega), if_pos (by omega), Nat.add_sub_cancel_left]

/-- The constants, the result registers and every number after EXP_COUNT are read-only. -/
theorem isReadOnly_regOfNumber {n : Nat} (c : Config) (h : n ≤ 0x05 ∨ n = 0x0B ∨ 0x0F ≤ n) :
    (regOfNumber c n).isReadOnly = true := by
  by_cases hn : 0x15 ≤ n
  · rw [regOfNumber_of_ge c hn]
    split_ifs <;> rfl
  · obtain h | rfl | h := h
    · interval_cases n <;> rfl
    · rfl
    · replace hn : n ≤ 0x14 := by omega
      interval_cases n <;> rfl

/-- A write to a read-only register is ignored (R40). -/
theorem performTxn_regWrite_readOnly {s : State} {n : Nat} (v : Word)
    (h : (regOfNumber s.cfg n).isReadOnly = true) : performTxn (.regWrite n v) s = .next s := by
  rw [performTxn, State.writeReg]
  cases hr : s.inReset with
  | true => rfl
  | false =>
    cases hn : regOfNumber s.cfg n
    case ctrl | cmd | status | inLen | bitLen | start | value | expCount => rw [hn] at h; cases h
    all_goals rfl

/-- A write to STATUS (R26). -/
theorem performTxn_regWrite_status {s : State} (v : Word) (hr : s.inReset = false) :
    performTxn (.regWrite 0x08 v) s = .next (s.writeStatus v) := by
  simp [performTxn, State.writeReg, hr, regOfNumber]

/-- A write to CMD (R25). -/
theorem performTxn_regWrite_cmd {s : State} (w : Word) (hr : s.inReset = false) :
    performTxn (.regWrite 0x07 w) s = .next (s.writeCmd w) := by
  simp [performTxn, State.writeReg, hr, regOfNumber]

/-- A write to CTRL (R24). -/
theorem performTxn_regWrite_ctrl {s : State} (v : Word) (hr : s.inReset = false) :
    performTxn (.regWrite 0x06 v) s = s.inputWrite (.regWrite 0x06 v) (State.writeCtrl v) := by
  simp [performTxn, State.writeReg, hr, regOfNumber]

/-- A register that is in no command's write set reads its value at any time (R74, R80). -/
theorem performTxn_regRead_of_not_written {s : State} {n : Nat} (e : Option Word) (hr : s.inReset = false)
    (hw : ∀ i, regOfNumber s.cfg n ∉ writeRegs s.cfg i) :
    performTxn (.regRead n e) s = .next (s.saw (.reg n (s.reg (regOfNumber s.cfg n)) e)) := by
  have hp : s.regPending (regOfNumber s.cfg n) = false := by
    unfold State.regPending
    split
    · rfl
    · exact decide_eq_false (hw _)
    · rfl
  simp [performTxn, State.readReg, hr, hp]

/-- The registers commands write (R49). -/
theorem mem_writeRegs {c : Config} {i : Instr} {r : Reg} (h : r ∈ writeRegs c i) :
    r ∈ [Reg.bitLen, .outLen, .value, .symCount, .distinct, .treeBits, .payloadBits, .freq, .codeLen] ∨
      ∃ j, r = .codeW j := by
  cases i <;> simp only [writeRegs, List.mem_cons, List.not_mem_nil, or_false, List.mem_map] at h ⊢
  case lookup => obtain rfl | ⟨j, -, rfl⟩ := h <;> simp
  all_goals tauto

/-- The bits of a field of `n` bits placed in a register word. -/
theorem getLsbD_fieldAt {n : Nat} (x : BitVec n) {i : Nat} (hi : i + n ≤ 64) (j : Nat) :
    ((x.setWidth 64) <<< i : Word).getLsbD j = (decide (i ≤ j ∧ j < i + n) && x.getLsbD (j - i)) := by
  rw [BitVec.getLsbD_shiftLeft, BitVec.getLsbD_setWidth]
  by_cases h1 : i ≤ j
  · by_cases h2 : j < i + n
    · simp [h1, h2, Nat.not_lt.2 h1, show j < 64 by omega, show j - i < 64 by omega]
    · simp [h2, BitVec.getLsbD_of_ge x (j - i) (by omega)]
  · simp [h1, Nat.not_le.1 h1]

/-- A flag's bit in a register word. -/
theorem getLsbD_flagAt (b : Bool) {i : Nat} (hi : i < 64) (j : Nat) :
    (flagAt b i).getLsbD j = (decide (j = i) && b) := by
  rw [flagAt, getLsbD_fieldAt _ (by omega), BitVec.getLsbD_ofBool, ← Bool.and_assoc]
  congr 1
  rw [Bool.eq_iff_iff]
  simp
  omega

/-- The STATUS word, bit by bit (R26). -/
theorem getLsbD_statusWord (s : State) (j : Nat) :
    s.statusWord.getLsbD j = (decide (j = 0) && s.busy || decide (j = 1) && s.done || decide (j = 2) && s.ovr ||
      decide (8 ≤ j ∧ j < 12) && (errCode s.err).getLsbD (j - 8) || decide (j = 16) && s.freqValid ||
      decide (j = 17) && s.tableValid || decide (j = 18) && s.treeValid || decide (j = 19) && s.treeEmpty ||
      decide (j = 20) && s.partialFlag || decide (24 ≤ j ∧ j < 32) && s.lastOp.getLsbD (j - 24)) := by
  have herr := getLsbD_fieldAt (errCode s.err) (i := 8) (by omega) j
  have hop := getLsbD_fieldAt s.lastOp (i := 24) (by omega) j
  simp only [State.statusWord, BitVec.getLsbD_or, herr, hop]
  simp (disch := omega) only [getLsbD_flagAt]

/-- The CTRL word, bit by bit (R24). -/
theorem getLsbD_ctrlWord (s : State) (j : Nat) :
    s.ctrlWord.getLsbD j = (decide (j = 0) && s.acceptTrunc || decide (j = 1) && s.irqEn) := by
  rw [State.ctrlWord, BitVec.getLsbD_or, getLsbD_flagAt _ (by omega), getLsbD_flagAt _ (by omega)]

/-- The CTRL word after a write to CTRL (R24): the two defined bits of the value written. -/
theorem ctrlWord_writeCtrl (s : State) (v : Word) : (s.writeCtrl v).ctrlWord = v &&& 3 := by
  have hmask : ∀ i < 64, (3 : Word).getLsbD i = decide (i < 2) := by decide
  refine BitVec.eq_of_getLsbD_eq fun i hi => ?_
  rw [BitVec.getLsbD_and, hmask i hi]
  rw [getLsbD_ctrlWord, State.writeCtrl_acceptTrunc, State.writeCtrl_irqEn]
  obtain rfl | rfl | h : i = 0 ∨ i = 1 ∨ 2 ≤ i := by omega
  · simp
  · simp
  · simp [show i ≠ 0 by omega, show i ≠ 1 by omega, show ¬ i < 2 by omega]

end Sys2Proof.Machine
end

section
/-! Register accesses: the constants, the reserved numbers, STATUS, what the host writes and reads back, and irq
(spec/10_state.md rules R21 to R48). -/

namespace Sys2Proof.Machine

/-- A register outside the ones commands write is in no command's write set. -/
theorem not_mem_writeRegs {c : Config} {r : Reg}
    (h : r ∉ [Reg.bitLen, .outLen, .value, .symCount, .distinct, .treeBits, .payloadBits, .freq, .codeLen])
    (hw : ∀ j, r ≠ .codeW j) (i : Instr) : r ∉ writeRegs c i := fun hm =>
  (mem_writeRegs hm).elim h fun ⟨j, hj⟩ => hw j hj

/-- CFG holds SYM_BYTES and, from bit 4 on, KEY_SIGNED (R22). -/
theorem cfgWord_eq {c : Config} (h : c.wf) : cfgWord c = BitVec.ofNat 64 (c.symBytes + 16 * c.keySigned.toNat) := by
  obtain ⟨hsym, -⟩ := h
  unfold cfgWord
  obtain e | e | e | e := hsym <;> rw [e] <;> cases c.keySigned <;> decide

/-- Settles O9: the constants are in no command's write set, and the numbers named are read-only. -/
theorem constantRegistersReadTheirConstants : Obligations.ConstantRegistersReadTheirConstants := by
  intro s e v hr
  have read : ∀ n, (∀ i, regOfNumber s.cfg n ∉ writeRegs s.cfg i) →
      performTxn (.regRead n e) s = .next (s.saw (.reg n (s.reg (regOfNumber s.cfg n)) e)) :=
    fun n => performTxn_regRead_of_not_written e hr
  refine ⟨read 0x00 ?_, fun hc => ?_, read 0x02 ?_, read 0x03 ?_, read 0x04 ?_, read 0x05 ?_, fun n hn => ?_⟩
  case refine_2 =>
    rw [← cfgWord_eq hc]
    exact read 0x01 (not_mem_writeRegs (by simp [regOfNumber]) (by simp [regOfNumber]))
  case refine_7 => exact performTxn_regWrite_readOnly v (isReadOnly_regOfNumber s.cfg hn)
  all_goals exact not_mem_writeRegs (by simp [regOfNumber]) (by simp [regOfNumber])

/-- Settles O10: a reserved number names a register that no command and no host write changes and that reads 0. -/
theorem reservedRegistersReadZero : Obligations.ReservedRegistersReadZero := by
  intro s n e v hr hn
  have hreg := regOfNumber_reserved hn
  refine ⟨?_, performTxn_regWrite_readOnly v (by rw [hreg]; rfl)⟩
  rw [performTxn_regRead_of_not_written e hr (by rw [hreg]; exact not_mem_writeRegs (by simp) (by simp)), hreg]
  rfl

/-- The ERR field of STATUS is the error code (R26, R270). -/
theorem extractLsb'_statusWord_err (s : State) : s.statusWord.extractLsb' 8 4 = errCode s.err := by
  refine BitVec.eq_of_getLsbD_eq fun i hi => ?_
  rw [BitVec.getLsbD_extractLsb', getLsbD_statusWord]
  interval_cases i <;> simp

/-- The LAST_OP field of STATUS (R26). -/
theorem extractLsb'_statusWord_lastOp (s : State) : s.statusWord.extractLsb' 24 8 = s.lastOp := by
  refine BitVec.eq_of_getLsbD_eq fun i hi => ?_
  rw [BitVec.getLsbD_extractLsb', getLsbD_statusWord]
  interval_cases i <;> simp

/-- A write to STATUS clears DONE and OVR where a 1 is written (R26). -/
theorem writeStatus_eq (s : State) (v : Word) : s.writeStatus v = { s with
    done := if v.getLsbD 1 then false else s.done, ovr := if v.getLsbD 2 then false else s.ovr } := by
  unfold State.writeStatus
  cases v.getLsbD 1 <;> cases v.getLsbD 2 <;> simp

/-- Settles O11: the word read is STATUS, whose bits `getLsbD_statusWord` gives. -/
theorem statusWordFields : Obligations.StatusWordFields := by
  intro s e hr
  refine ⟨⟨s.statusWord, ?_, ?_, ?_, ?_, extractLsb'_statusWord_err s, ?_, ?_, ?_, ?_, ?_,
    extractLsb'_statusWord_lastOp s, fun b hb => ?_⟩, fun v => ?_⟩
  case refine_1 =>
    exact performTxn_regRead_of_not_written e hr (not_mem_writeRegs (by simp [regOfNumber]) (by simp [regOfNumber]))
  case refine_10 =>
    rw [getLsbD_statusWord]
    simp
    omega
  case refine_11 => rw [performTxn_regWrite_status v hr, writeStatus_eq]
  all_goals
    rw [getLsbD_statusWord]
    simp

/-- While the engine is IDLE a host write of an argument has its effect, and the register reads what it then holds
(R79). -/
theorem inputWrite_readsBack {s : State} {n : Nat} {v w : Word} {f : State → State} (e : Option Word)
    (hi : s.phase = .idle) (hr : s.inReset = false)
    (hw : s.writeReg n v = if s.inReset then .next s else s.inputWrite (.regWrite n v) f)
    (hphase : (f s).phase = s.phase) (hreset : (f s).inReset = s.inReset)
    (hreg : (f s).reg (regOfNumber (f s).cfg n) = w) :
    ∃ t, performTxn (.regWrite n v) s = .next t ∧ performTxn (.regRead n e) t = .next (t.saw (.reg n w e)) ∧
      t = f s := by
  refine ⟨f s, ?_, ?_, rfl⟩
  · rw [performTxn, hw, hr, State.inputWrite, State.busy, hi]; rfl
  · rw [performTxn_regRead_idle n e (hphase.trans hi) (hreset.trans hr), hreg]

/-- Settles O12: while the engine is IDLE every read is of the register's value, and each of the six writes has its
effect. -/
theorem hostWrittenRegistersReadBack : Obligations.HostWrittenRegistersReadBack := by
  refine ⟨fun s e hi hr => ⟨fun r hmem => ?_, fun j hj => ?_, s.ctrlWord, ?_, ?_, ?_, fun b hb => ?_⟩,
    fun s v n e hi hr hn => ?_⟩
  · rw [performTxn_regRead_idle _ e hi hr]
    simp only [List.mem_cons, List.not_mem_nil, or_false] at hmem
    obtain rfl | rfl | rfl | rfl | rfl | rfl | rfl | rfl | rfl | rfl | rfl | rfl | rfl := hmem <;> rfl
  · rw [performTxn_regRead_idle _ e hi hr, regOfNumber_codeW hj]
    rfl
  · exact performTxn_regRead_idle 0x06 e hi hr
  · rw [getLsbD_ctrlWord]; simp
  · rw [getLsbD_ctrlWord]; simp
  · simp [getLsbD_ctrlWord, show b ≠ 0 by omega, show b ≠ 1 by omega]
  · simp only [List.mem_cons, List.not_mem_nil, or_false] at hn
    obtain rfl | rfl | rfl | rfl | rfl | rfl := hn
    · exact inputWrite_readsBack (f := State.writeCtrl v) e hi hr rfl rfl rfl (ctrlWord_writeCtrl s v)
    · exact inputWrite_readsBack (f := fun s => { s with inLen := v }) e hi hr rfl rfl rfl rfl
    · exact inputWrite_readsBack (f := fun s => { s with bitLen := v }) e hi hr rfl rfl rfl rfl
    · exact inputWrite_readsBack (f := fun s => { s with start := v }) e hi hr rfl rfl rfl rfl
    · exact inputWrite_readsBack (f := fun s => { s with value := v }) e hi hr rfl rfl rfl rfl
    · exact inputWrite_readsBack (f := fun s => { s with expCount := v }) e hi hr rfl rfl rfl rfl

/-- Settles O13: a completion sets DONE, and the three writes each clear DONE or IRQ_EN. -/
theorem irqFollowsDone : Obligations.IrqFollowsDone := by
  refine ⟨fun s => rfl, fun i s t h => ?_, fun s t v hr hv h => ?_, fun s t v hr hv h => ?_,
    fun s t w hi hr h => ?_⟩
  · obtain ⟨-, -, -, -, -, -, hirq, -⟩ := exec_keepsInputs h
    have hdone : t.done = true := by obtain ⟨u, -, rfl⟩ | ⟨e, rfl⟩ := exec_result h <;> rfl
    rw [State.irq, hdone, hirq, Bool.true_and]
  · rw [performTxn_regWrite_status v hr] at h
    cases h
    simp [State.irq, hv]
  · rw [performTxn_regWrite_ctrl v hr] at h
    obtain ⟨-, rfl⟩ := inputWrite_next h
    rw [State.irq, State.writeCtrl_irqEn, hv, Bool.and_false]
  · rw [performTxn_regWrite_cmd w hr] at h
    cases h
    obtain ⟨hb, -⟩ | ⟨-, n, l, d, hw⟩ := writeCmd_cases w s
    · simp [State.busy, hi] at hb
    · simp [hw, State.irq]

end Sys2Proof.Machine
end

section
/-! Who moves in a step (spec/10_state.md rules R20 and R41, spec/60_exceptions.md rule R280). -/

namespace Sys2Proof.Machine

/-- The bytes of a word carry its value (R61). -/
theorem ofNat_leBytesValue_wordBytes (w : Word) : BitVec.ofNat 64 (leBytesValue (wordBytes w)) = w := by
  refine BitVec.eq_of_getLsbD_eq fun i hi => ?_
  have hsplit : i = 8 * (i / 8) + i % 8 := by omega
  have hbyte : (wordBytes w).getD (i / 8) 0 = w.extractLsb' (8 * (i / 8)) 8 := by
    simp [wordBytes, List.getD_eq_getElem?_getD, show i / 8 < 8 by omega]
  rw [BitVec.getLsbD_ofNat, decide_eq_true hi, Bool.true_and]
  conv_lhs => rw [hsplit]
  rw [testBit_leBytesValue _ _ (by omega), hbyte, BitVec.getLsbD_extractLsb', ← hsplit]
  simp [show i % 8 < 8 by omega]

/-- The decoder reads from a word's bytes the command the word decodes to (R96). -/
theorem decodeCmd_of_decodeTableWord {nbits w : Nat} {i : Instr} (h : decodeTableWord nbits w = some i) :
    decodeCmd (BitVec.ofNat 64 (w % 2 ^ nbits)) = .legal i := by
  generalize hw : BitVec.ofNat 64 (w % 2 ^ nbits) = x at h
  have hlen : (wordBytes x).length = 8 := by simp [wordBytes]
  have hbytes : decodeBytes (wordBytes x) = some (decodeCmd x, []) := by
    rw [decodeBytes, hlen]
    simp [hlen, List.take_of_length_le, ofNat_leBytesValue_wordBytes]
  rw [decodeTableWord, hw, hbytes] at h
  cases hd : decodeCmd x with
  | legal j => rw [hd] at h; cases h; rfl
  | illegal why => rw [hd] at h; cases h

/-- While the engine is IDLE a step is the host's (R41). -/
theorem step_idle {s : State} (hp : s.phase = .idle) : step s = hostStep s := by simp only [step, hp]

/-- With no latency left, or with a host that has nothing left to do, a step completes the latched command (R280). -/
theorem step_completes {s : State} {op : Decoded} {n : Nat} (hp : s.phase = .exec op n)
    (h : n = 0 ∨ s.hostDone = true) : step s = completeOp op s := by
  cases n with
  | zero => simp only [step, hp]
  | succ n =>
    obtain h | h := h
    · cases h
    · simp only [step, hp, h, if_true]

/-- Otherwise the host moves and the latency counts down (R309). -/
theorem step_waits {s : State} {op : Decoded} {n : Nat} (hp : s.phase = .exec op (n + 1)) (h : s.hostDone = false) :
    step s = hostStep { s with phase := .exec op n } := by
  simp only [step, hp, h, Bool.false_eq_true, if_false]

/-- Settles O4: the three rules of the step, for a command and for an illegal word. -/
theorem stepRunsTheLatchedCommand : Obligations.StepRunsTheLatchedCommand := by
  intro s i why n
  refine ⟨step_idle, fun hp => step_completes hp (.inl rfl), fun hp hd => step_completes hp (.inr hd),
    fun hp => step_completes hp (.inl rfl), step_waits, fun hp hd => step_completes hp (.inr hd), step_waits,
    fun nbits w hw => ?_⟩
  have hp : (s.withFetchWord nbits w).phase = .exec (.legal i) 0 := by
    rw [State.withFetchWord, State.acceptWith_phase, decodeCmd_of_decodeTableWord hw]
  exact step_completes hp (.inl rfl)

end Sys2Proof.Machine
end

section
/-! The state after reset (spec/10_state.md rule R50). -/

namespace Sys2Proof.Machine

/-- After reset CTRL is 0 (R50). -/
theorem ctrlWord_resetWith (c : Config) (g : Nat) : (State.resetWith c g).ctrlWord = 0 := by
  simp [State.ctrlWord, State.resetWith, flagAt]

/-- After reset STATUS is 0 (R50). -/
theorem statusWord_resetWith (c : Config) (g : Nat) : (State.resetWith c g).statusWord = 0 := by
  simp [State.statusWord, State.busy, State.resetWith, flagAt, errCode]

/-- After reset every register from CTRL on is 0 (R50). -/
theorem reg_resetWith {n : Nat} (c : Config) (g : Nat) (hn : 0x06 ≤ n) :
    (State.resetWith c g).reg (regOfNumber c n) = 0 := by
  by_cases h : 0x15 ≤ n
  · rw [regOfNumber_of_ge c h]
    split_ifs with hw
    · simp [State.reg, State.resetWith, List.getD_eq_getElem?_getD, show n - 0x20 < c.codeWords by omega]
    · rfl
  · replace h : n ≤ 0x14 := by omega
    by_cases hctrl : n = 0x06
    · rw [hctrl]; exact ctrlWord_resetWith c g
    by_cases hstatus : n = 0x08
    · rw [hstatus]; exact statusWord_resetWith c g
    interval_cases n <;> trivial

/-- Settles O21: the reset values by number, the constants, and buffers with no byte written. -/
theorem resetValues : Obligations.ResetValues := by
  refine ⟨fun c g => ⟨fun n hn => reg_resetWith c g hn, rfl, rfl, rfl, rfl, rfl, fun hc => cfgWord_eq hc, rfl, rfl,
    fun sp => ?_⟩, rfl, by decide, by decide, by decide, by decide, by decide⟩
  cases sp
  · exact ⟨g, fun a => rfl⟩
  · exact ⟨g + 1, fun a => rfl⟩
  · exact ⟨g + 2, fun a => rfl⟩

/-- Settles O57: the three invariants hold of the reset state of any configuration. -/
theorem resetMeetsTheInvariants : Obligations.ResetMeetsTheInvariants := by
  refine ⟨by decide, ⟨?_, ?_, ?_⟩, ?_, tablesBounded_resetWith _ _⟩
  · exact State.resetWith_memory_wf Config.reference 0 .input
  · exact State.resetWith_memory_wf Config.reference 0 .bits
  · exact State.resetWith_memory_wf Config.reference 0 .output
  · exact statusCoherent_resetWith Config.reference 0

end Sys2Proof.Machine
end

section
/-! Host accesses to single bytes and to registers on the bus (spec/20_memory.md rules R61, R62, R73, R74 and R78 to
R80). -/

namespace Sys2Proof.Machine

/-- Replacing a buffer replaces that buffer and no other. -/
theorem State.buf_setBuf (s : State) (sp sp' : Space) (b : Buffer) :
    (s.setBuf sp b).buf sp' = if sp' = sp then b else s.buf sp' := by
  cases sp <;> cases sp' <;> rfl

/-- Settles O14: IDLE reads return the byte, and a write replaces one byte of one buffer. -/
theorem hostByteWriteReadsBack : Obligations.HostByteWriteReadsBack := by
  refine ⟨fun s sp a hi hr ha => ?_, fun s sp a v hi hr hsp ha =>
    ⟨s.setBuf sp ((s.buf sp).writeByte a v), ?_, ?_, fun sp' x hx => ?_, _, rfl⟩⟩
  · rw [performTxn_bufRead_idle sp a hi hr, if_pos ha, State.saw]
  · rw [performTxn_bufWrite_idle sp a v hi hr, if_pos ⟨hsp, ha⟩]
  · rw [performTxn_bufRead_idle sp a (by rw [State.setBuf_phase, hi]) (by rw [State.setBuf_inReset, hr]),
      State.setBuf_cfg, if_pos ha, State.setBuf_buf, Buffer.byte_writeByte, if_pos rfl]
  · rw [State.buf_setBuf]
    split_ifs with h
    · subst h
      rw [Buffer.byte_writeByte, if_neg fun hxa => hx ⟨rfl, hxa⟩]
    · rfl

/-- A byte write at or beyond the buffer's size, or to OUT, is ignored at any time (R62). -/
theorem performTxn_bufWrite_ignored {s : State} {sp : Space} {a : Nat} (v : Byte)
    (h : bufSize s.cfg sp ≤ a ∨ sp = .output) : performTxn (.bufWrite sp a v) s = .next s := by
  show s.writeBuf sp a v = .next s
  unfold State.writeBuf
  split_ifs with hc
  · rfl
  · obtain h | rfl := h
    · exact absurd (by rw [decide_eq_true h, Bool.or_true]) hc
    · rfl

/-- A byte read at or beyond the buffer's size returns 0 at any time (R62). -/
theorem performTxn_bufRead_beyond {s : State} {sp : Space} {a : Nat} (hr : s.inReset = false)
    (h : bufSize s.cfg sp ≤ a) : performTxn (.bufRead sp a) s = .next (s.saw (.byte sp a 0)) := by
  rw [performTxn, State.readBuf, hr, if_neg Bool.false_ne_true, if_pos h]

/-- Settles O15: accesses look at the size before they look at BUSY, and no host write reaches OUT. -/
theorem bufferAccessOutOfRange : Obligations.BufferAccessOutOfRange := fun _ _ _ v hr =>
  ⟨fun ha => ⟨performTxn_bufRead_beyond hr ha, performTxn_bufWrite_ignored v (.inl ha)⟩,
    performTxn_bufWrite_ignored v (.inr rfl)⟩

/-- An access that is not the whole aligned word reaches no register (R61, R73). -/
theorem busRegister_eq_none {c : Config} {addr n : Nat} (h : n ≠ 8 ∨ (addr - c.regBase) % 8 ≠ 0) :
    busRegister c addr n = none := by
  unfold busRegister windowOffset
  by_cases hbase : c.regBase ≤ addr
  · simp only [if_pos hbase]
    exact if_neg fun ⟨hn, hoff⟩ => h.elim (· hn) (· hoff)
  · simp only [if_neg hbase]

/-- The aligned word at byte offset 8k is register k (R61). -/
theorem busRegister_aligned (c : Config) (k : Nat) : busRegister c (c.regBase + 8 * k) 8 = some k := by
  simp [busRegister, windowOffset]

/-- Settles O18: `busRegister` decides which register an access reaches, if any. -/
theorem registerAccessIsWholeAlignedWord : Obligations.RegisterAccessIsWholeAlignedWord := by
  intro s addr n k v
  refine ⟨fun h => ?_, ?_, ?_⟩
  · simp only [runStmt, busRegTxn, busRegister_eq_none h, and_self]
  · simp only [runStmt, busRegTxn, busRegister_aligned]
  · simp only [runStmt, busRegTxn, busRegister_aligned]

/-- While a command runs the host can only assert reset, or change DONE and OVR: a write to an argument stops the host
(R304), and a write to CMD is dropped (R303). -/
theorem BlockEffect.busy_cases {s t : State} (h : BlockEffect s t) (hb : s.busy = true) (hr : s.inReset = false) :
    t.inReset = true ∨ ∃ done ovr, t = { s with done := done, ovr := ovr } := by
  cases h with
  | nothing => exact .inr ⟨_, _, rfl⟩
  | status v _ => exact .inr ⟨_, _, rfl⟩
  | cmd w _ =>
    obtain ⟨-, hw⟩ | ⟨hidle, -⟩ := writeCmd_cases w s
    · exact .inr ⟨_, _, hw⟩
    · exact absurd (hidle.symm.trans hb) Bool.false_ne_true
  | pin level =>
    unfold State.drivePin
    split_ifs with hl hs
    · exact .inl rfl
    · exact absurd (hr.symm.trans hs) Bool.false_ne_true
    · exact .inr ⟨_, _, rfl⟩
  | _ => exact absurd (‹s.busy = false›.symm.trans hb) Bool.false_ne_true

/-- Settles O55: DONE and OVR are not among what a command reads. -/
theorem runningCommandSeesItsAcceptanceInputs : Obligations.RunningCommandSeesItsAcceptanceInputs := by
  intro s t hb h ht hr
  obtain ⟨p, k, x, d, he⟩ := hostStep_cases h
  obtain hreset | ⟨done, ovr, rfl⟩ := he.busy_cases hb hr
  · exact absurd (ht.symm.trans hreset) Bool.false_ne_true
  · exact ⟨rfl, rfl, rfl, rfl, rfl, rfl, rfl, rfl, rfl, rfl, rfl, rfl, rfl, rfl, rfl, rfl⟩

end Sys2Proof.Machine
end

section
/-! The buffers: in canonical form and inside their sizes after every step (spec/20_memory.md rules R60, R62 and
R64). -/

namespace Sys2Proof.Machine

/-- The bytes that hold `n` bits fit BITS when the bits do (R60). -/
theorem ceilDiv_le_bufSize_bits {c : Config} (hc : c.wf) {n : Nat} (h : n ≤ c.bitCap) :
    ceilDiv n 8 ≤ bufSize c .bits := by
  obtain ⟨-, -, -, ⟨-, hmod, -⟩, -⟩ := hc
  simp only [ceilDiv, bufSize]
  omega

/-- One symbol's bytes fit OUT (R7). -/
theorem symBytes_le_outCap {c : Config} (hc : c.wf) : c.symBytes ≤ c.outCap := by
  have hsym := symBytes_bounds hc
  obtain ⟨-, -, ⟨hcap, -⟩, -⟩ := hc
  omega

/-- One symbol's bits fit BITS (R7). -/
theorem w_le_bitCap {c : Config} (hc : c.wf) : c.w ≤ c.bitCap := by
  have hw := w_le_of_wf hc
  obtain ⟨-, -, -, ⟨hcap, -⟩, -⟩ := hc
  omega

/-- UNFRAME's bits fit BITS (R145). -/
theorem unframeResult_bounded {s : State} {bits : Bits} (h : s.unframeResult = .ok bits) :
    bits.length ≤ s.cfg.bitCap := by
  obtain ⟨u, -, h⟩ := bind_eq_ok h
  dsimp only at h
  split_ifs at h with hshort hbody hlong
  rw [← Except.ok.inj h, length_unpack]
  exact Nat.not_lt.1 hlong

/-- The bytes of the symbols DECODE emits. -/
@[simp] theorem length_flatMap_bytesOf (c : Config) (syms : List Symbol) :
    (syms.flatMap (bytesOf c)).length = syms.length * c.symBytes := by
  simp [List.length_flatMap]

/-- The invariant, buffer by buffer. -/
theorem State.memoryWf_iff (s : State) : s.memoryWf ↔ ∀ sp, (s.buf sp).wf (bufSize s.cfg sp) :=
  ⟨fun ⟨hin, hbits, hout⟩ sp => by cases sp <;> assumption, fun h => ⟨h .input, h .bits, h .output⟩⟩

/-- The invariant is about the configuration and the three buffers alone. -/
theorem State.memoryWf_congr {s t : State} (hcfg : t.cfg = s.cfg) (hin : t.inBuf = s.inBuf)
    (hbits : t.bitsBuf = s.bitsBuf) (hout : t.outBuf = s.outBuf) : t.memoryWf ↔ s.memoryWf := by
  rw [State.memoryWf, State.memoryWf, hcfg, hin, hbits, hout]

section Updates

variable {s : State} (h : s.memoryWf)
include h

/-- Replacing a buffer by a canonical one keeps the invariant. -/
theorem State.memoryWf.setBuf {sp : Space} {b : Buffer} (hb : b.wf (bufSize s.cfg sp)) : (s.setBuf sp b).memoryWf := by
  rw [State.memoryWf_iff] at h ⊢
  intro sp'
  rw [State.buf_setBuf, State.setBuf_cfg]
  split_ifs with hsp
  · exact hsp ▸ hb
  · exact h sp'

/-- Result registers are no part of a buffer. -/
theorem State.memoryWf.putReg (r : Reg) (v : Word) : (s.putReg r v).memoryWf :=
  (State.memoryWf_congr (by simp) (by simp) (by simp) (by simp)).2 h

/-- A buffer whose bytes become unspecified is canonical (R281). -/
theorem State.memoryWf.unspecify (sp : Space) : (s.unspecify sp).memoryWf :=
  h.setBuf (Buffer.wf_unwritten _ s.draws)

/-- The engine writes bits that fit BITS (R64). -/
theorem State.memoryWf.putBits (hc : s.cfg.wf) {bits : Bits} (hb : bits.length ≤ s.cfg.bitCap) :
    (s.putBits bits).memoryWf :=
  h.setBuf (sp := .bits) (Buffer.wf_writeBytes _ (s.memoryWf_iff.1 h .bits)
    (by simpa using ceilDiv_le_bufSize_bits hc hb))

/-- The engine writes bytes that fit OUT. -/
theorem State.memoryWf.putOut {bytes : List Byte} (hb : bytes.length ≤ s.cfg.outCap) : (s.putOut bytes).memoryWf :=
  h.setBuf (sp := .output) (Buffer.wf_writeBytes _ (s.memoryWf_iff.1 h .output) (by simpa [bufSize] using hb))

/-- The tables are no part of a buffer. -/
theorem State.memoryWf.putBuilt (b : Built) : (s.putBuilt b).memoryWf := h

/-- DECODE writes its symbols' bytes to OUT, where they fit, and no other buffer (R251). -/
theorem State.memoryWf.putDecoded {d : DecodedStream} (hd : d.out.length * s.cfg.symBytes ≤ s.cfg.outCap) :
    (s.putDecoded d).memoryWf := by
  have hout := h.putOut (bytes := d.out.flatMap (bytesOf s.cfg)) (by rwa [length_flatMap_bytesOf])
  refine (State.memoryWf_congr (s := s.putOut (d.out.flatMap (bytesOf s.cfg))) ?_ ?_ ?_ ?_).2 hout <;>
    simp [State.putDecoded]

end Updates

/-- A command's results fit the buffer they are written to. -/
theorem CommandResult.memoryWf {s u : State} {i : Instr} (h : CommandResult s i u) (hc : s.cfg.wf)
    (hs : s.memoryWf) : u.memoryWf := by
  cases h with
  | bytesOf => exact (hs.putOut (by rw [length_bytesOf]; exact symBytes_le_outCap hc)).putReg _ _
  | bitsOf => exact (hs.putBits hc (by rw [length_bitsOf]; exact w_le_bitCap hc)).putReg _ _
  | frame hr => exact (hs.putOut (frameResult_bounded hr)).putReg _ _
  | unframe hr => exact (hs.putBits hc (unframeResult_bounded hr)).putReg _ _
  | serialize hr => exact ((hs.putBits hc (serializeResult_bounded hr)).putReg _ _).putReg _ _
  | encode hr =>
    have hlen := (encodeResult_bounded hr).2
    rw [← List.length_append] at hlen
    exact ((((hs.putBits hc hlen).putBuilt _).putReg _ _).putReg _ _).putReg _ _
  | decode hr => exact hs.putDecoded (decodeResult_bounded hc hr).out
  | _ => exact hs

/-- A failed command leaves its buffer unspecified and the others alone (R281). -/
theorem memoryWf_failWriteSet {s : State} (i : Instr) (h : s.memoryWf) : (s.failWriteSet i).memoryWf :=
  failWriteSet_induction i h (fun _ r ht => ht.putReg r 0) (fun _ sp _ ht => ht.unspecify sp) (fun _ ht => ht)
    (fun _ ht => ht)

/-- A completion keeps the buffers in bounds. -/
theorem completeOp_memoryWf {op : Decoded} {s t : State} (h : completeOp op s = .next t) (hc : s.cfg.wf)
    (hs : s.memoryWf) : t.memoryWf := by
  cases op with
  | illegal why => cases h; exact hs
  | legal i =>
    obtain ⟨u, hu, rfl⟩ | ⟨e, rfl⟩ := exec_result h
    · exact hu.memoryWf hc hs
    · exact memoryWf_failWriteSet i hs

/-- The host writes inside IN and BITS, and reset empties the buffers. -/
theorem BlockEffect.memoryWf {s t : State} (h : BlockEffect s t) (hs : s.memoryWf) : t.memoryWf := by
  cases h with
  | inByte a v _ _ ha => exact hs.setBuf (sp := .input) (Buffer.wf_writeByte (s.memoryWf_iff.1 hs .input) ha v)
  | bitsByte a v _ _ ha => exact hs.setBuf (sp := .bits) (Buffer.wf_writeByte (s.memoryWf_iff.1 hs .bits) ha v)
  | cmd w _ =>
    obtain ⟨-, hw⟩ | ⟨-, n, l, d, hw⟩ := writeCmd_cases w s <;> rw [hw] <;> exact hs
  | pin level =>
    obtain ⟨asserted, hp⟩ | hp := drivePin_cases level s <;> rw [hp]
    · exact (State.memoryWf_iff _).2 (State.resetWith_memory_wf s.cfg s.draws)
    · exact hs
  | _ => exact hs

/-- A host step keeps the buffers in bounds. -/
theorem hostStep_memoryWf {s t : State} (h : hostStep s = .next t) (hs : s.memoryWf) : t.memoryWf := by
  obtain ⟨p, k, x, d, he⟩ := hostStep_cases h
  exact he.memoryWf hs

/-- Settles O58: a step is a host step or a completion, and each keeps the buffers in bounds. -/
theorem stepKeepsTheBuffersInBounds : Obligations.StepKeepsTheBuffersInBounds := by
  intro s t hc hs h
  obtain ⟨-, hh⟩ | ⟨op, n, -, hh⟩ | ⟨op, n, -, -, hop⟩ := step_cases h
  · exact hostStep_memoryWf hh hs
  · exact hostStep_memoryWf hh hs
  · exact completeOp_memoryWf hop hc hs

end Sys2Proof.Machine
end

section
/-! Bits at or beyond BIT_LEN (spec/20_memory.md rule R64). -/

namespace Sys2Proof.Machine

/-- BITS_SEQ is the first BIT_LEN bits. -/
theorem bitsSeq_of_sameBits {s : State} {b : Buffer} (h : ∀ k, k < s.bitLen.toNat → b.bit k = s.bitsBuf.bit k) :
    ({ s with bitsBuf := b } : State).bitsSeq = s.bitsSeq :=
  List.map_congr_left fun k hk => h k (List.mem_range.1 hk)

/-- A completion whose results and failure leave BITS alone does the same, but for BITS, with another BITS buffer that
gives the same result. -/
theorem complete_of_otherBits {α : Type} {i : Instr} {r r' : Except ErrKind α} {apply : α → State → State}
    {s : State} {b : Buffer} (hr : r' = r)
    (happly : ∀ x, apply x { s with bitsBuf := b } = { apply x s with bitsBuf := b })
    (hfail : ({ s with bitsBuf := b } : State).failWriteSet i = { s.failWriteSet i with bitsBuf := b }) :
    ∃ t, complete i r apply s = .next t ∧
      complete i r' apply { s with bitsBuf := b } = .next { t with bitsBuf := b } := by
  subst hr
  refine ⟨_, rfl, ?_⟩
  cases r' with
  | ok x => simp only [complete, happly, State.finish]
  | error e => simp only [complete, hfail, State.finish]

/-- DECODE's results leave BITS alone (R251). -/
theorem putDecoded_otherBits (s : State) (b : Buffer) (d : DecodedStream) :
    ({ s with bitsBuf := b } : State).putDecoded d = { s.putDecoded d with bitsBuf := b } := by
  simp only [State.putDecoded, State.treeRebuilt, State.putOut, State.putReg_outLen_eq, State.putReg_symCount_eq,
    State.putReg_distinct_eq, State.putReg_treeBits_eq, State.putReg_payloadBits_eq]

/-- Settles O20: each of the four computes from BITS_SEQ alone and writes no BITS. -/
theorem bitsBeyondBitLenHaveNoEffect : Obligations.BitsBeyondBitLenHaveNoEffect := by
  intro s b i hi h
  simp only [List.mem_cons, List.not_mem_nil, or_false] at hi
  obtain rfl | rfl | rfl | rfl := hi <;>
    simp only [exec, execValueOfBits, execFrame, execDeserialize, execDecode]
  · exact complete_of_otherBits (by rw [State.valueOfBitsResult, bitsSeq_of_sameBits h]; rfl) (fun _ => rfl) rfl
  · exact complete_of_otherBits (by rw [State.frameResult, bitsSeq_of_sameBits h]; rfl) (fun _ => rfl) rfl
  · exact complete_of_otherBits (by rw [State.deserializeResult, bitsSeq_of_sameBits h]; rfl) (fun _ => rfl) rfl
  · exact complete_of_otherBits (by rw [State.decodeResult, bitsSeq_of_sameBits h]; rfl)
      (putDecoded_otherBits s b) (by rw [failWriteSet_decode, failWriteSet_decode])

end Sys2Proof.Machine
end

section
/-! Reads while a command runs (spec/20_memory.md rule R80, spec/10_state.md rule R49). -/

namespace Sys2Proof.Machine

/-- A register read is a free value when the register is pending, and its value otherwise (R80). -/
theorem performTxn_regRead {s : State} (n : Nat) (e : Option Word) (hr : s.inReset = false) :
    performTxn (.regRead n e) s = .next (
      if s.regPending (regOfNumber s.cfg n) then
        { s.saw (.reg n (Config.freeWord s.draws) e) with draws := s.draws + 1 }
      else s.saw (.reg n (s.reg (regOfNumber s.cfg n)) e)) := by
  have hcond : (s.inReset || s.regPending (regOfNumber s.cfg n)) = s.regPending (regOfNumber s.cfg n) := by
    rw [hr, Bool.false_or]
  rw [performTxn, State.readReg, hcond]

/-- A read of a byte inside a buffer is a free value when the byte is pending, and the byte otherwise (R80). -/
theorem performTxn_bufRead_inside {s : State} {sp : Space} {a : Nat} (hr : s.inReset = false)
    (ha : a < bufSize s.cfg sp) :
    performTxn (.bufRead sp a) s = .next (
      if s.bytePending sp a then
        { s.saw (.byte sp a (Config.freeByteRead s.draws)) with draws := s.draws + 1 }
      else s.saw (.byte sp a ((s.buf sp).byte a))) := by
  have hn : ¬ s.inReset = true := by rw [hr]; exact Bool.false_ne_true
  rw [performTxn, State.readBuf, if_neg hn, if_neg (Nat.not_le.2 ha)]

/-- A length within a capacity below 2^64 fits its register (R277). -/
theorem toNat_word {n cap : Nat} (h : n ≤ cap) (hcap : cap < 2 ^ 64) : (word n).toNat = n := by
  rw [word, BitVec.toNat_ofNat, Nat.mod_eq_of_lt (h.trans_lt hcap)]

@[simp] theorem State.writtenBytes_finish (s : State) (e : Option ErrKind) (sp : Space) :
    (s.finish e).writtenBytes sp = s.writtenBytes sp := by cases sp <;> rfl

/-- The range announced for a running command is what its completion tells: the bytes a success writes, or the whole
buffer (R49, assumption 9). -/
theorem complete_writtenBytes {α : Type} {i : Instr} {r : Except ErrKind α} {apply : α → State → State}
    {s t : State} {sp : Space} {len : α → Nat} (h : complete i r apply s = .next t)
    (hlen : ∀ x, r = .ok x → (apply x s).writtenBytes sp = len x) :
    r.toOption.map len = if t.err = none then some (t.writtenBytes sp) else none := by
  obtain ⟨x, rfl, rfl⟩ | ⟨e, rfl, rfl⟩ := complete_cases h
  · simp [Except.toOption, hlen x rfl]
  · simp [Except.toOption]

/-- The bytes that hold one symbol's bits are its bytes (R6). -/
theorem ceilDiv_w (c : Config) : ceilDiv c.w 8 = c.symBytes := by
  unfold ceilDiv Config.w
  omega

/-- A command that writes a buffer announces what its completion does to it (R49). -/
theorem writeRange_of_exec {i : Instr} {s t : State} {sp : Space} (hc : s.cfg.wf) (hsp : writeSpace i = some sp)
    (h : exec i s = .next t) :
    s.writeRange i = some (sp, if t.err = none then some (t.writtenBytes sp) else none) := by
  have ⟨_, _, ⟨_, _, hout⟩, ⟨_, _, hbits⟩, _⟩ := hc
  cases i <;> cases hsp <;>
    simp only [exec, execBytesOf, execBitsOf, execFrame, execUnframe, execSerialize, execEncode, execDecode] at h <;>
    refine congrArg (fun n => some (_, n)) ?_
  case bytesOf =>
    exact complete_writtenBytes (len := fun _ => s.cfg.symBytes) h
      fun x _ => toNat_word (symBytes_le_outCap hc) hout
  case bitsOf =>
    refine complete_writtenBytes (len := fun _ => s.cfg.symBytes) h fun x _ => ?_
    show ceilDiv (word s.cfg.w).toNat 8 = s.cfg.symBytes
    rw [toNat_word (w_le_bitCap hc) hbits, ceilDiv_w]
  case frame => exact complete_writtenBytes h fun x hx => toNat_word (frameResult_bounded hx) hout
  case unframe =>
    refine complete_writtenBytes h fun x hx => ?_
    show ceilDiv (word x.length).toNat 8 = ceilDiv x.length 8
    rw [toNat_word (unframeResult_bounded hx) hbits]
  case serialize =>
    refine complete_writtenBytes h fun x hx => ?_
    show ceilDiv (word x.length).toNat 8 = ceilDiv x.length 8
    rw [toNat_word (serializeResult_bounded hx) hbits]
  case encode =>
    refine complete_writtenBytes h fun x hx => ?_
    have hlen := (encodeResult_bounded hx).2
    rw [← List.length_append] at hlen ⊢
    show ceilDiv (word (x.treeBits ++ x.payload).length).toNat 8 = _
    rw [toNat_word hlen hbits]
  case decode => exact complete_writtenBytes h fun x hx => toNat_word (decodeResult_bounded hc hx).out hout

/-- The announced range lies in the buffer of the command's write set (R49). -/
theorem writeRange_space (s : State) (i : Instr) : (s.writeRange i).map Prod.fst = writeSpace i := by
  cases i <;> rfl

section Running

variable {s : State} {i : Instr} {w : Nat} (hp : s.phase = .exec (.legal i) w)
include hp

/-- While a command runs the registers of its write set are pending (R80). -/
theorem regPending_iff (r : Reg) : s.regPending r = true ↔ r ∈ writeRegs s.cfg i := by
  simp only [State.regPending, hp, decide_eq_true_eq]

/-- Of the buffer a command writes, the bytes below the length it leaves are pending, or all when it fails (R80). -/
theorem bytePending_iff {t : State} {sp : Space} (a : Nat) (hc : s.cfg.wf) (hsp : writeSpace i = some sp)
    (h : exec i s = .next t) : s.bytePending sp a = true ↔ t.err ≠ none ∨ a < t.writtenBytes sp := by
  simp only [State.bytePending, hp, writeRange_of_exec hc hsp h]
  by_cases he : t.err = none <;> simp [he]

/-- No byte of a buffer the command does not write is pending (R80). -/
theorem bytePending_of_not_written {sp : Space} (a : Nat) (hsp : writeSpace i ≠ some sp) :
    s.bytePending sp a = false := by
  rw [← writeRange_space s i] at hsp
  unfold State.bytePending
  simp only [hp]
  split
  next => rfl
  next sp' hr =>
    rw [hr] at hsp
    exact decide_eq_false fun h => hsp (congrArg some h.symm)
  next sp' n hr =>
    rw [hr] at hsp
    rw [decide_eq_false fun h => hsp (congrArg some h.symm), Bool.false_and]

end Running

/-- Settles O17: the registers and bytes pending are those of the write set, and none while an illegal word runs. -/
theorem readsOfPendingResultsAreFree : Obligations.ReadsOfPendingResultsAreFree := by
  intro s w n e hr
  refine ⟨fun i hp => ⟨fun hreg => ?_, fun hreg => ?_, fun sp a ha => ⟨fun hsp => ?_, fun t hc hsp h => ?_⟩⟩,
    fun why hp => ⟨?_, fun sp a ha => ?_⟩⟩
  · rw [performTxn_regRead n e hr, if_pos ((regPending_iff hp _).2 hreg)]
    rfl
  · rw [performTxn_regRead n e hr, if_neg (mt (regPending_iff hp _).1 hreg)]
    rfl
  · rw [performTxn_bufRead_inside hr ha, bytePending_of_not_written hp a hsp]
    rfl
  · rw [performTxn_bufRead_inside hr ha]
    simp only [bytePending_iff hp a hc hsp h]
    split_ifs <;> rfl
  · have hpend : s.regPending (regOfNumber s.cfg n) = false := by simp only [State.regPending, hp]
    rw [performTxn_regRead n e hr, hpend]
    rfl
  · have hpend : s.bytePending sp a = false := by simp only [State.bytePending, hp]
    rw [performTxn_bufRead_inside hr ha, hpend]
    rfl

end Sys2Proof.Machine
end

section
/-! Command words: the decoder and the encoder (spec/30_encoding.md rules R90 to R96). -/

namespace Sys2Proof

/-- OPCODE is the low byte of a word (R90). -/
theorem toNat_opcodeField (w : Word) : (opcodeField w).toNat = w.toNat % 256 := by
  simp [opcodeField]

/-- RSVD is what is above the low byte (R90). -/
theorem toNat_reservedField (w : Word) : (reservedField w).toNat = w.toNat / 256 := by
  rw [reservedField, BitVec.extractLsb'_toNat, Nat.shiftRight_eq_div_pow]
  omega

/-- A word is RSVD above OPCODE (R90). -/
theorem toNat_eq_fields (w : Word) : w.toNat = 256 * (reservedField w).toNat + (opcodeField w).toNat := by
  rw [toNat_reservedField, toNat_opcodeField, Nat.div_add_mod]

/-- A command's word has RSVD 0 (R90). -/
theorem reservedField_encodeCmd (i : Instr) : reservedField (encodeCmd i) = 0 := by
  cases i <;> rfl

/-- A command's word carries its opcode (R90). -/
theorem opcodeField_encodeCmd (i : Instr) : opcodeField (encodeCmd i) = opcodeOf i := by
  cases i <;> rfl

/-- The word of a command is the one with RSVD 0 and the command's opcode (R90). -/
theorem eq_encodeCmd_iff (w : Word) (i : Instr) :
    w = encodeCmd i ↔ reservedField w = 0 ∧ opcodeField w = opcodeOf i := by
  constructor
  · rintro rfl
    exact ⟨reservedField_encodeCmd i, opcodeField_encodeCmd i⟩
  · rintro ⟨hrsvd, hop⟩
    refine BitVec.eq_of_toNat_eq ?_
    rw [toNat_eq_fields w, toNat_eq_fields (encodeCmd i), hrsvd, hop, reservedField_encodeCmd, opcodeField_encodeCmd]

/-- The opcode map read in both directions (R93). -/
theorem commandOfOpcode_eq_some_iff (op : Byte) (i : Instr) : commandOfOpcode op = some i ↔ op = opcodeOf i := by
  constructor
  · intro h
    unfold commandOfOpcode at h
    split at h <;> cases h <;> exact BitVec.eq_of_toNat_eq ‹_›
  · rintro rfl
    cases i <;> rfl

/-- The opcodes outside the map are 0x00 and those from 0x0E on (R93, R94). -/
theorem commandOfOpcode_eq_none_iff (op : Byte) : commandOfOpcode op = none ↔ op.toNat = 0 ∨ 0x0E ≤ op.toNat := by
  unfold commandOfOpcode
  split <;> simp only [reduceCtorEq, true_iff, false_iff, imp_false] at * <;> omega

/-- A word decodes to a command when RSVD is 0 and the map gives the command for OPCODE (R96). -/
theorem decodeCmd_eq_legal_iff (w : Word) (i : Instr) :
    decodeCmd w = .legal i ↔ reservedField w = 0 ∧ commandOfOpcode (opcodeField w) = some i := by
  unfold decodeCmd
  split
  next hrsvd => exact iff_of_false nofun fun h => hrsvd h.1
  next hrsvd =>
    rw [not_not] at hrsvd
    split
    next j hop => simp [hrsvd, hop]
    next hop => exact iff_of_false (by split <;> nofun) fun h => nomatch hop.symm.trans h.2

/-- A word is illegal when RSVD is not 0 or the map has no command for OPCODE (R94, R96). -/
theorem decodeCmd_illegal_iff (w : Word) :
    (∃ why, decodeCmd w = .illegal why) ↔ reservedField w ≠ 0 ∨ commandOfOpcode (opcodeField w) = none := by
  cases hd : decodeCmd w with
  | legal i =>
    obtain ⟨hrsvd, hop⟩ := (decodeCmd_eq_legal_iff w i).1 hd
    simp [hrsvd, hop]
  | illegal why =>
    refine iff_of_true ⟨why, rfl⟩ ?_
    by_contra hlegal
    obtain ⟨hrsvd, hop⟩ := not_or.1 hlegal
    obtain ⟨i, hi⟩ := Option.ne_none_iff_exists'.1 hop
    cases hd.symm.trans ((decodeCmd_eq_legal_iff w i).2 ⟨not_not.1 hrsvd, hi⟩)

/-- Settles O2: both sides say that RSVD is 0 and that OPCODE is the command's. -/
theorem decodeIsInverseOfEncode : Obligations.DecodeIsInverseOfEncode := by
  intro w i
  rw [decodeCmd_eq_legal_iff, eq_encodeCmd_iff, commandOfOpcode_eq_some_iff]

/-- Settles O3: RSVD is not 0, or OPCODE is outside the map. -/
theorem illegalWordsAreExactlyThese : Obligations.IllegalWordsAreExactlyThese := by
  intro w
  have hrsvd : reservedField w ≠ 0 ↔ w.toNat / 256 ≠ 0 := by
    rw [← toNat_reservedField, ne_eq, BitVec.toNat_eq]
    rfl
  rw [decodeCmd_illegal_iff, commandOfOpcode_eq_none_iff, hrsvd, toNat_opcodeField]

/-- The word of a command decodes to it (R96). -/
theorem decodeCmd_encodeCmd (i : Instr) : decodeCmd (encodeCmd i) = .legal i :=
  (decodeIsInverseOfEncode _ i).2 rfl

/-- Settles O1: the thirteen words are the commands' words, and each of the other five fails one check of R96. -/
theorem opcodeMapWordsDecode : Obligations.OpcodeMapWordsDecode :=
  ⟨decodeCmd_encodeCmd .bytesOf, decodeCmd_encodeCmd .valueOfBytes, decodeCmd_encodeCmd .bitsOf,
    decodeCmd_encodeCmd .valueOfBits, decodeCmd_encodeCmd .frame, decodeCmd_encodeCmd .unframe,
    decodeCmd_encodeCmd .build, decodeCmd_encodeCmd .freq, decodeCmd_encodeCmd .lookup,
    decodeCmd_encodeCmd .serialize, decodeCmd_encodeCmd .deserialize, decodeCmd_encodeCmd .encode,
    decodeCmd_encodeCmd .decode, rfl, rfl, rfl, rfl, rfl⟩

end Sys2Proof
end

section
/-! Successive bytes: what `WB` and `RB` do while the engine is IDLE, and the bus accesses of several bytes
(spec/30_encoding.md rules R97 and R99, spec/20_memory.md rules R62 and R77). -/

namespace Sys2Proof.Machine

/-- How many bytes of a buffer the host can write: those of IN and BITS, and none of OUT (R62). -/
def writableSize (c : Config) (sp : Space) : Nat := if sp = .output then 0 else bufSize c sp

theorem lt_writableSize_iff {c : Config} {sp : Space} {a : Nat} :
    a < writableSize c sp ↔ sp ≠ .output ∧ a < bufSize c sp := by
  unfold writableSize
  split_ifs with h <;> simp [h]

/-- A buffer of space `sp` after the host has written successive bytes to it: of the bytes only those the host can write
have an effect (R62). -/
def hostWritten (c : Config) (sp : Space) (b : Buffer) (off : Nat) (bytes : List Byte) : Buffer :=
  b.writeBytes off (bytes.take (writableSize c sp - off))

@[simp] theorem hostWritten_nil (c : Config) (sp : Space) (b : Buffer) (off : Nat) : hostWritten c sp b off [] = b := by
  rw [hostWritten, List.take_nil, Buffer.writeBytes]

/-- Writing successive bytes is writing the first and then those after it. -/
theorem hostWritten_cons (c : Config) (sp : Space) (b : Buffer) (off : Nat) (v : Byte) (vs : List Byte) :
    hostWritten c sp b off (v :: vs) =
      hostWritten c sp (if off < writableSize c sp then b.writeByte off v else b) (off + 1) vs := by
  unfold hostWritten
  split_ifs with h
  · rw [show writableSize c sp - off = writableSize c sp - (off + 1) + 1 by omega, List.take_succ_cons,
      Buffer.writeBytes]
  · rw [show writableSize c sp - off = 0 by omega, show writableSize c sp - (off + 1) = 0 by omega, List.take_zero,
      List.take_zero, Buffer.writeBytes, Buffer.writeBytes]

/-- Each byte after the host has written successive bytes. -/
theorem byte_hostWritten (c : Config) (sp : Space) (b : Buffer) (off : Nat) (bytes : List Byte) (a : Nat) :
    (hostWritten c sp b off bytes).byte a =
      if sp ≠ .output ∧ off ≤ a ∧ a < off + bytes.length ∧ a < bufSize c sp then bytes.getD (a - off) 0
      else b.byte a := by
  have hcond : (off ≤ a ∧ a < off + (bytes.take (writableSize c sp - off)).length) ↔
      sp ≠ .output ∧ off ≤ a ∧ a < off + bytes.length ∧ a < bufSize c sp := by
    have hsize := lt_writableSize_iff (c := c) (sp := sp) (a := a)
    rw [List.length_take]
    constructor
    · rintro ⟨hoff, hlen⟩
      obtain ⟨hsp, ha⟩ := hsize.1 (by omega)
      exact ⟨hsp, hoff, by omega, ha⟩
    · rintro ⟨hsp, hoff, hlen, ha⟩
      have := hsize.2 ⟨hsp, ha⟩
      omega
  rw [hostWritten, Buffer.byte_writeBytes]
  simp only [hcond]
  split_ifs with h
  · rw [← hcond, List.length_take] at h
    rw [List.getD_eq_getElem?_getD, List.getElem?_take_of_lt (by omega), List.getD_eq_getElem?_getD]
  · rfl

/-- Putting a buffer back where it is changes nothing. -/
@[simp] theorem State.setBuf_buf_self (s : State) (sp : Space) : s.setBuf sp (s.buf sp) = s := by
  cases sp <;> rfl

/-- With no transaction pending, dropping the pending ones changes nothing. -/
theorem State.withoutPending_eq {s : State} (hp : s.pending = []) : ({ s with pending := [] } : State) = s := by
  rw [← hp]

/-- A pending write while the engine is IDLE. -/
theorem step_pending_bufWrite {s : State} {sp : Space} {a : Nat} {v : Byte} {rest : List Txn} (hi : s.phase = .idle)
    (hr : s.inReset = false) (hp : s.pending = .bufWrite sp a v :: rest) :
    step s = .next (({ s with pending := rest } : State).setBuf sp
      (if a < writableSize s.cfg sp then (s.buf sp).writeByte a v else s.buf sp)) := by
  rw [step_pending hi hp, performTxn_bufWrite_idle (s := { s with pending := rest }) sp a v hi hr]
  simp only [lt_writableSize_iff]
  split_ifs
  · rfl
  · exact congrArg _ (State.setBuf_buf_self _ sp).symm

/-- Pending writes of successive bytes, one a step (R77). -/
theorem run_writeTxns (sp : Space) (bytes : List Byte) : ∀ (off : Nat) (s : State), s.phase = .idle →
    s.inReset = false → s.pending = writeTxns sp off bytes →
    Sys2Proof.core.run bytes.length s =
      .next { s.setBuf sp (hostWritten s.cfg sp (s.buf sp) off bytes) with pending := [] } := by
  induction bytes with
  | nil =>
    intro off s _ _ hp
    rw [hostWritten_nil, State.setBuf_buf_self, State.withoutPending_eq hp]
    rfl
  | cons v vs ih =>
    intro off s hi hr hp
    rw [writeTxns_cons] at hp
    rw [List.length_cons, run_succ_of_step (step_pending_bufWrite hi hr hp), hostWritten_cons,
      ih (off + 1) _ (by simpa using hi) (by simpa using hr) (by simp), State.setBuf_buf, State.setBuf_cfg]
    cases sp <;> rfl

/-- A byte as the host reads it while the engine is IDLE: 0 at or beyond the buffer's size (R62). -/
def State.hostByte (s : State) (sp : Space) (a : Nat) : Byte := if a < bufSize s.cfg sp then (s.buf sp).byte a else 0

/-- What the reads of n bytes from an offset return, newest first. -/
def State.readings (s : State) (sp : Space) (off n : Nat) : List Reading :=
  ((List.range n).map fun i => Reading.byte sp (off + i) (s.hostByte sp (off + i))).reverse

/-- The reading of the first byte is the oldest. -/
theorem State.readings_succ (s : State) (sp : Space) (off n : Nat) :
    s.readings sp off (n + 1) = s.readings sp (off + 1) n ++ [.byte sp off (s.hostByte sp off)] := by
  simp only [State.readings, List.range_succ_eq_map, List.map_cons, List.map_map, List.reverse_cons, Nat.add_zero,
    Function.comp_def, Nat.succ_eq_add_one, Nat.add_assoc, Nat.add_comm 1]

/-- Pending reads of successive bytes, one a step (R77). -/
theorem run_readTxns (sp : Space) (n : Nat) : ∀ (off : Nat) (s : State), s.phase = .idle → s.inReset = false →
    s.pending = readTxns sp off n →
    Sys2Proof.core.run n s = .next { s with pending := [], seen := s.readings sp off n ++ s.seen } := by
  induction n with
  | zero =>
    intro off s _ _ hp
    exact congrArg _ (State.withoutPending_eq hp).symm
  | succ n ih =>
    intro off s hi hr hp
    rw [readTxns_succ] at hp
    have hstep : step s =
        .next (({ s with pending := readTxns sp (off + 1) n } : State).saw (.byte sp off (s.hostByte sp off))) :=
      (step_pending hi hp).trans (performTxn_bufRead_idle sp off hi hr)
    rw [run_succ_of_step hstep, State.readings_succ, List.append_assoc]
    exact ih (off + 1) _ hi hr rfl

/-- A statement that starts transactions while the engine is IDLE, and the run that performs the others, do what the run
of all of them pending does: the first is performed at once. -/
theorem run_performFirst {n : Nat} {ts : List Txn} {s u : State} (hi : s.phase = .idle) (hp : s.pending = [])
    (hn : ts.length = n) (h : Sys2Proof.core.run n { s with pending := ts } = .next u) :
    ∃ t, performFirst ts s = .next t ∧ Sys2Proof.core.run (n - 1) t = .next u := by
  subst hn
  cases ts with
  | nil => exact ⟨s, rfl, by rwa [State.withoutPending_eq hp] at h⟩
  | cons x rest =>
    have hstep : step { s with pending := x :: rest } = performTxn x { s with pending := rest } := step_pending hi rfl
    cases hx : performTxn x { s with pending := rest } with
    | next t => exact ⟨t, hx, by rwa [List.length_cons, run_succ_of_step (hstep.trans hx)] at h⟩
    | fault r =>
      have hfault : Sys2Proof.core.step { s with pending := x :: rest } = .fault r := hstep.trans hx
      simp only [List.length_cons, Host.Core.run, hfault, reduceCtorEq] at h
    | refused r =>
      have hrefused : Sys2Proof.core.step { s with pending := x :: rest } = .refused r := hstep.trans hx
      simp only [List.length_cons, Host.Core.run, hrefused, reduceCtorEq] at h

@[simp] theorem length_writeTxns (sp : Space) (off : Nat) (bytes : List Byte) :
    (writeTxns sp off bytes).length = bytes.length := by
  simp [writeTxns]

@[simp] theorem length_readTxns (sp : Space) (off n : Nat) : (readTxns sp off n).length = n := by
  simp [readTxns]

/-- The statement `WB` (R97). -/
theorem run_wb {s : State} (sp : Space) (off : Nat) (bytes : List Byte) (hi : s.phase = .idle) (hr : s.inReset = false)
    (hp : s.pending = []) :
    ∃ t, runStmt (.wb sp off bytes) s = .next t ∧ Sys2Proof.core.run (bytes.length - 1) t =
      .next (s.setBuf sp (hostWritten s.cfg sp (s.buf sp) off bytes)) := by
  have hrun := run_writeTxns sp bytes off { s with pending := writeTxns sp off bytes } hi hr rfl
  refine run_performFirst hi hp (length_writeTxns sp off bytes) (hrun.trans (congrArg _ ?_))
  refine Eq.trans ?_ (State.withoutPending_eq ((State.setBuf_pending s sp _).trans hp))
  cases sp <;> rfl

/-- The statement `RB` (R97). -/
theorem run_rb {s : State} (sp : Space) (off n : Nat) (hi : s.phase = .idle) (hr : s.inReset = false)
    (hp : s.pending = []) :
    ∃ t, runStmt (.rb sp off n) s = .next t ∧ Sys2Proof.core.run (n - 1) t =
      .next { s with seen := s.readings sp off n ++ s.seen } := by
  have hrun := run_readTxns sp n off { s with pending := readTxns sp off n } hi hr rfl
  exact run_performFirst hi hp (length_readTxns sp off n) (hrun.trans (congrArg _
    (State.withoutPending_eq (s := { s with seen := s.readings sp off n ++ s.seen }) hp)))

/-- The value of a bus read whose bytes are the host's last reads: byte addr is the least significant (R62). -/
theorem busReadValue_readings (s : State) (sp : Space) (off n : Nat) :
    ({ s with seen := s.readings sp off n ++ s.seen } : State).busReadValue sp (bufferBase s.cfg sp + off) n =
      some ((List.range n).map fun i => (s.hostByte sp (off + i)).toNat * 256 ^ i).sum := by
  rw [State.busReadValue, windowOffset, if_pos (Nat.le_add_right _ _), Option.bind_some, Nat.add_sub_cancel_left,
    State.readings, bytesRead_append sp off (fun i => s.hostByte sp (off + i)), Option.map_some,
    leBytesValue_map_range]

@[simp] theorem length_busBytes (n v : Nat) : (busBytes n v).length = n := by
  simp [busBytes]

/-- Byte i of a bus write's value, least significant first (R62). -/
theorem getD_busBytes {n i : Nat} (v : Nat) (hi : i < n) : (busBytes n v).getD i 0 = BitVec.ofNat 8 (v / 256 ^ i) := by
  simp [busBytes, List.getD_eq_getElem?_getD, hi, pow_mul]

/-- Settles O19: `WB` and `RB` byte by byte, and a bus access in its window as the `WB` or `RB` at its offset. -/
theorem hostWritesSuccessiveBytes : Obligations.HostWritesSuccessiveBytes := by
  refine ⟨fun bytes off sp s hi hr => ⟨hostWritten s.cfg sp (s.buf sp) off bytes, byte_hostWritten _ _ _ _ _,
    run_writeTxns sp bytes off s hi hr, run_wb sp off bytes hi hr⟩, fun off n sp s hi hr hp => ?_,
    fun s sp addr n v => ⟨length_busBytes n v, fun i => getD_busBytes v, ?_⟩⟩
  · obtain ⟨t, ht, hu⟩ := run_rb sp off n hi hr hp
    exact ⟨t, _, ht, hu, rfl, busReadValue_readings s sp off n⟩
  · split_ifs with h <;> simp only [runStmt, busBufTxns, windowOffset, h, if_true, if_false, and_self]

end Sys2Proof.Machine
end

section
/-! The primitive codec: what BYTES_OF, VALUE_OF_BYTES, BITS_OF and VALUE_OF_BITS compute, and their round trips
(spec/40_primitives.md rules R120 to R128). -/

namespace Sys2Proof.Machine

/-! ### The bytes and bits of a symbol. -/

/-- Byte k of `bytes_of` (R120). -/
theorem getD_bytesOf (c : Config) (v : Symbol) {k : Nat} (hk : k < c.symBytes) :
    (bytesOf c v).getD k 0 = v.extractLsb' (8 * k) 8 := by
  simp [bytesOf, List.getD_eq_getElem?_getD, hk]

/-- Bit i of `bits_of` (R122). -/
theorem getD_bitsOf (c : Config) (v : Symbol) {i : Nat} (hi : i < c.w) :
    (bitsOf c v).getD i false = v.getLsbD (symbolBit i) := by
  simp [bitsOf, List.getD_eq_getElem?_getD, hi]

/-- Within byte k the stream runs from the most significant bit down (R68). -/
theorem symbolBit_byte (k : Nat) {j : Nat} (hj : j < 8) : symbolBit (8 * k + j) = 8 * k + 7 - j := by
  unfold symbolBit
  omega

/-- A bit of one of the symbol's bytes is a bit of the symbol (R6). -/
theorem byteBit_lt_w {c : Config} {k j : Nat} (hk : k < c.symBytes) (hj : j < 8) : 8 * k + j < c.w := by
  unfold Config.w
  omega

/-- Two `W`-bit values with the same low `W` bits are equal. -/
theorem eq_of_getLsbD_eq_below {n : Nat} {x y : Word} (hx : x.toNat < 2 ^ n) (hy : y.toNat < 2 ^ n)
    (h : ∀ i < n, x.getLsbD i = y.getLsbD i) : x = y := by
  refine BitVec.eq_of_getLsbD_eq fun i _ => ?_
  rcases lt_or_ge i n with hi | hi
  · exact h i hi
  · have hpow := Nat.pow_le_pow_right (n := 2) (by decide) hi
    exact (Nat.testBit_lt_two_pow (hx.trans_le hpow)).trans (Nat.testBit_lt_two_pow (hy.trans_le hpow)).symm

/-- Packing a symbol's bits gives its bytes (R71). -/
theorem pack_bitsOf (c : Config) (v : Symbol) : pack (bitsOf c v) = bytesOf c v := by
  refine List.ext_getElem (by simp [ceilDiv_w]) fun k h1 h2 => ?_
  have hk : k < c.symBytes := by simpa using h2
  simp only [pack, bytesOf, List.getElem_map, List.getElem_range]
  refine BitVec.eq_of_getLsbD_eq fun j hj => ?_
  rw [getLsbD_packByte _ _ hj, getD_bitsOf c v (byteBit_lt_w hk (by omega)), symbolBit_byte k (by omega),
    BitVec.getLsbD_extractLsb', decide_eq_true hj, Bool.true_and]
  congr 1
  omega

/-! ### What `value_of_bytes` and `value_of_bits` read. -/

/-- The symbol read from a byte sequence is a `W`-bit value (R121). -/
theorem valueOfBytes_lt {c : Config} {bytes : List Byte} {start : Nat} {v : Symbol}
    (h : valueOfBytes c bytes start = .ok v) : v.toNat < 2 ^ c.w := by
  unfold valueOfBytes at h
  split_ifs at h with hlen
  cases h
  rw [BitVec.toNat_ofNat]
  refine (Nat.mod_le _ _).trans_lt ((leBytesValue_lt _).trans_eq ?_)
  rw [List.length_take, List.length_drop, Nat.min_eq_left (by omega), Config.w, Nat.pow_mul]

/-- Byte k of the symbol `value_of_bytes` reads is byte start + k of the sequence (R121). -/
theorem extractLsb'_of_valueOfBytes {c : Config} (hc : c.wf) {bytes : List Byte} {start : Nat} {v : Symbol}
    (h : valueOfBytes c bytes start = .ok v) {k : Nat} (hk : k < c.symBytes) :
    v.extractLsb' (8 * k) 8 = bytes.getD (start + k) 0 := by
  have hsym := symBytes_bounds hc
  refine BitVec.eq_of_getLsbD_eq fun j hj => ?_
  rw [BitVec.getLsbD_extractLsb', decide_eq_true hj, Bool.true_and, getLsbD_of_valueOfBytes c h hj (by omega),
    decide_eq_true hk, Bool.true_and]

/-- Bit 8k + 7 - j of the symbol `value_of_bits` reads is bit start + 8k + j of the sequence (R123). -/
theorem getLsbD_byte_of_valueOfBits {c : Config} (hc : c.wf) {bits : Bits} {start : Nat} {v : Symbol}
    (h : valueOfBits c bits start = .ok v) {k j : Nat} (hk : k < c.symBytes) (hj : j < 8) :
    v.getLsbD (8 * k + 7 - j) = bits.getD (start + 8 * k + j) false := by
  have hp : symbolBit (8 * k + j) < c.w := symbolBit_lt (byteBit_lt_w hk hj)
  rw [← symbolBit_byte k hj, getLsbD_of_valueOfBits c h (hp.trans_le (w_le_of_wf hc)), symbolBit_symbolBit,
    decide_eq_true hp, Bool.true_and, Nat.add_assoc]

/-- `value_of_bytes` undoes `bytes_of` (R128). -/
theorem valueOfBytes_bytesOf {c : Config} (hc : c.wf) {v : Symbol} (hv : v.toNat < 2 ^ c.w) :
    valueOfBytes c (bytesOf c v) 0 = .ok v := by
  have hok := valueOfBytes_ok c (bytes := bytesOf c v) (start := 0) (by simp)
  refine hok.trans (congrArg _ (eq_of_getLsbD_eq_below (valueOfBytes_lt hok) hv fun i hi => ?_))
  have hk : i / 8 < c.symBytes := Nat.div_lt_of_lt_mul hi
  have hbyte := extractLsb'_of_valueOfBytes hc hok hk
  rw [Nat.zero_add, getD_bytesOf c v hk] at hbyte
  have hbit := congrArg (fun b => b.getLsbD (i % 8)) hbyte
  simpa [Nat.mod_lt, Nat.div_add_mod] using hbit

/-- `value_of_bits` undoes `bits_of` (R128). -/
theorem valueOfBits_bitsOf {c : Config} (hc : c.wf) {v : Symbol} (hv : v.toNat < 2 ^ c.w) :
    valueOfBits c (bitsOf c v) 0 = .ok v := by
  have hok := valueOfBits_ok c (bits := bitsOf c v) (start := 0) (by simp)
  refine hok.trans (congrArg _ (eq_of_getLsbD_eq_below (valueOfBits_lt hok) hv fun p hp => ?_))
  rw [getLsbD_of_valueOfBits c hok (hp.trans_le (w_le_of_wf hc)), decide_eq_true hp, Bool.true_and, Nat.zero_add,
    getD_bitsOf c v (symbolBit_lt hp), symbolBit_symbolBit]

/-! ### The operands in a state. -/

/-- The symbol operand is a `W`-bit value (R31). -/
theorem State.toNat_symbol_lt (s : State) : s.symbol.toNat < 2 ^ s.cfg.w := by
  rw [State.symbol, symbolOf, BitVec.toNat_setWidth]
  exact (Nat.mod_le _ _).trans_lt (BitVec.isLt _)

/-- The symbol operand's bits are those of VALUE (R31). -/
theorem State.getLsbD_symbol {s : State} (hc : s.cfg.wf) {i : Nat} (hi : i < s.cfg.w) :
    s.symbol.getLsbD i = s.value.getLsbD i := by
  rw [State.symbol, getLsbD_symbolOf, decide_eq_true hi, decide_eq_true (hi.trans_le (w_le_of_wf hc)), Bool.and_self,
    Bool.true_and]

/-- The symbol operand's bytes are those of VALUE (R31). -/
theorem State.extractLsb'_symbol {s : State} (hc : s.cfg.wf) {k : Nat} (hk : k < s.cfg.symBytes) :
    s.symbol.extractLsb' (8 * k) 8 = s.value.extractLsb' (8 * k) 8 := by
  refine BitVec.eq_of_getLsbD_eq fun j hj => ?_
  rw [BitVec.getLsbD_extractLsb', BitVec.getLsbD_extractLsb', State.getLsbD_symbol hc (byteBit_lt_w hk hj)]

/-- Byte i of `IN_SEQ` (R12). -/
theorem State.getD_inSeq (s : State) {i : Nat} (hi : i < s.inLen.toNat) : s.inSeq.getD i 0 = s.inBuf.byte i := by
  simp [State.inSeq, Buffer.readBytes, List.getD_eq_getElem?_getD, hi]

/-- Bit i of `BITS_SEQ` (R12). -/
theorem State.getD_bitsSeq (s : State) {i : Nat} (hi : i < s.bitLen.toNat) :
    s.bitsSeq.getD i false = s.bitsBuf.bit i := by
  simp [State.bitsSeq, List.getD_eq_getElem?_getD, hi]

/-- A bit sequence written to BITS, its length in BIT_LEN, is read back as `BITS_SEQ` (R64). -/
theorem State.bitsSeq_of_putBits {s t : State} {bits : Bits} (hbuf : t.bitsBuf = (s.putBits bits).bitsBuf)
    (hlen : t.bitLen.toNat = bits.length) : t.bitsSeq = bits := by
  refine List.ext_getElem (by simp [hlen]) fun i h1 h2 => ?_
  have hpad : i < 8 * ceilDiv bits.length 8 := by unfold ceilDiv; omega
  simp only [State.bitsSeq, List.getElem_map, List.getElem_range]
  rw [hbuf, State.putBits_bitsBuf, Buffer.bit_writeBits, if_pos hpad, List.getD_eq_getElem _ _ h2]

/-! ### The checks and results of VALUE_OF_BYTES and VALUE_OF_BITS (R125, R127, R276). -/

theorem valueOfBytesResult_overCapacity {s : State} (h : s.cfg.inCap < s.inLen.toNat) :
    s.valueOfBytesResult = .error .capacity := by
  rw [State.valueOfBytesResult, checkInLen_error h]
  rfl

theorem valueOfBytesResult_eq {s : State} (h : s.inLen.toNat ≤ s.cfg.inCap) :
    s.valueOfBytesResult = valueOfBytes s.cfg s.inSeq s.start.toNat := by
  rw [State.valueOfBytesResult, checkInLen_ok h]
  rfl

theorem valueOfBitsResult_overCapacity {s : State} (h : s.cfg.bitCap < s.bitLen.toNat) :
    s.valueOfBitsResult = .error .capacity := by
  rw [State.valueOfBitsResult, checkBitLen_error h]
  rfl

theorem valueOfBitsResult_eq {s : State} (h : s.bitLen.toNat ≤ s.cfg.bitCap) :
    s.valueOfBitsResult = valueOfBits s.cfg s.bitsSeq s.start.toNat := by
  rw [State.valueOfBitsResult, checkBitLen_ok h]
  rfl

theorem exec_valueOfBytes_error {s : State} {e : ErrKind} (h : s.valueOfBytesResult = .error e) :
    exec .valueOfBytes s = .next { s with
      value := 0, partialFlag := false, phase := .idle, done := true, err := some e } :=
  complete_error .valueOfBytes (fun v s => s.putReg .value v) s h

theorem exec_valueOfBytes_ok {s : State} {v : Symbol} (h : s.valueOfBytesResult = .ok v) :
    exec .valueOfBytes s = .next { s with value := v, phase := .idle, done := true, err := none } :=
  complete_ok .valueOfBytes (fun v s => s.putReg .value v) s h

theorem exec_valueOfBits_error {s : State} {e : ErrKind} (h : s.valueOfBitsResult = .error e) :
    exec .valueOfBits s = .next { s with
      value := 0, partialFlag := false, phase := .idle, done := true, err := some e } :=
  complete_error .valueOfBits (fun v s => s.putReg .value v) s h

theorem exec_valueOfBits_ok {s : State} {v : Symbol} (h : s.valueOfBitsResult = .ok v) :
    exec .valueOfBits s = .next { s with value := v, phase := .idle, done := true, err := none } :=
  complete_ok .valueOfBits (fun v s => s.putReg .value v) s h

/-- BITS_OF's next state (R126). -/
theorem exec_bitsOf (s : State) : exec .bitsOf s = .next { s with
    bitsBuf := s.bitsBuf.writeBytes 0 (pack (bitsOf s.cfg s.symbol)), bitLen := word s.cfg.w,
    phase := .idle, done := true, err := none } := rfl

/-- BYTES_OF's next state (R124). -/
theorem exec_bytesOf (s : State) : exec .bytesOf s = .next { s with
    outBuf := s.outBuf.writeBytes 0 (bytesOf s.cfg s.symbol), outLen := word s.cfg.symBytes,
    phase := .idle, done := true, err := none } := rfl

/-! ### The statements. -/

/-- Settles O24: the bytes written from offset 0 are those of `bytes_of`. -/
theorem bytesOfWritesSymbolBytes : Obligations.BytesOfWritesSymbolBytes := by
  refine fun s hc => ⟨rfl, _, exec_bytesOf s, fun k hk => ?_, fun a ha => ?_⟩
  · rw [Buffer.byte_writeBytes_zero, length_bytesOf, if_pos hk, getD_bytesOf _ _ hk, State.extractLsb'_symbol hc hk]
  · rw [Buffer.byte_writeBytes_zero, length_bytesOf, if_neg (Nat.not_lt.2 ha)]

/-- Settles O25: the two checks in their order, then the bytes of what `value_of_bytes` reads. -/
theorem valueOfBytesReadsSymbol : Obligations.ValueOfBytesReadsSymbol := by
  refine fun s hc => ⟨rfl, ?_⟩
  split_ifs with hcap hshort
  · exact exec_valueOfBytes_error (valueOfBytesResult_overCapacity hcap)
  · exact exec_valueOfBytes_error ((valueOfBytesResult_eq (Nat.not_lt.1 hcap)).trans
      (valueOfBytes_error _ (by simpa using hshort)))
  · have hok := valueOfBytes_ok s.cfg (bytes := s.inSeq) (start := s.start.toNat) (by simpa using hshort)
    refine ⟨_, exec_valueOfBytes_ok ((valueOfBytesResult_eq (Nat.not_lt.1 hcap)).trans hok), fun k hk => ?_,
      valueOfBytes_lt hok⟩
    rw [extractLsb'_of_valueOfBytes hc hok hk, State.getD_inSeq s (by omega)]

/-- Settles O26: the bits written from bit 0 are those of `bits_of`, and a symbol leaves no pad bits. -/
theorem bitsOfWritesSymbolBits : Obligations.BitsOfWritesSymbolBits := by
  refine fun s hc => ⟨rfl, _, exec_bitsOf s, fun k j hk hj => ?_, fun a ha => ?_⟩
  · have hi := byteBit_lt_w hk hj
    rw [Buffer.bit_writeBits, length_bitsOf, ceilDiv_w, if_pos (by omega), getD_bitsOf _ _ hi, symbolBit_byte k hj,
      State.getLsbD_symbol hc (symbolBit_byte k hj ▸ symbolBit_lt hi)]
  · exact Buffer.byte_writeBits_above _ _ (by rwa [length_bitsOf, ceilDiv_w])

/-- Settles O27: the two checks in their order, then the bits of what `value_of_bits` reads. -/
theorem valueOfBitsReadsSymbol : Obligations.ValueOfBitsReadsSymbol := by
  refine fun s hc => ⟨rfl, ?_⟩
  split_ifs with hcap hshort
  · exact exec_valueOfBits_error (valueOfBitsResult_overCapacity hcap)
  · exact exec_valueOfBits_error ((valueOfBitsResult_eq (Nat.not_lt.1 hcap)).trans
      (valueOfBits_error _ (by simpa using hshort)))
  · have hok := valueOfBits_ok s.cfg (bits := s.bitsSeq) (start := s.start.toNat) (by simpa using hshort)
    refine ⟨_, exec_valueOfBits_ok ((valueOfBitsResult_eq (Nat.not_lt.1 hcap)).trans hok), fun k j hk hj => ?_,
      valueOfBits_lt hok⟩
    have hi := byteBit_lt_w hk hj
    rw [getLsbD_byte_of_valueOfBits hc hok hk hj, State.getD_bitsSeq s (by omega)]

/-- With START = 0, VALUE_OF_BITS reads from the BITS and BIT_LEN that BITS_OF left the symbol it wrote (R128). -/
theorem valueOfBitsResult_after_bitsOf {s t : State} (hc : s.cfg.wf) (hcfg : t.cfg = s.cfg)
    (hbuf : t.bitsBuf = (s.putBits (bitsOf s.cfg s.symbol)).bitsBuf) (hlen : t.bitLen = word s.cfg.w)
    (hstart : t.start = 0) : t.valueOfBitsResult = .ok s.symbol := by
  have hw : t.bitLen.toNat = s.cfg.w := hlen ▸ toNat_word (w_le_of_wf hc) (by decide)
  have hcap : t.bitLen.toNat ≤ t.cfg.bitCap := by rw [hw, hcfg]; exact w_le_bitCap hc
  rw [valueOfBitsResult_eq hcap, State.bitsSeq_of_putBits hbuf (hw.trans (length_bitsOf _ _).symm), hcfg, hstart]
  exact valueOfBits_bitsOf hc s.toNat_symbol_lt

/-- Settles O28: the functions undo each other, and VALUE_OF_BITS reads back what BITS_OF wrote. -/
theorem primitiveRoundTrips : Obligations.PrimitiveRoundTrips :=
  ⟨pack_bitsOf, fun _ _ hc hv => ⟨valueOfBytes_bytesOf hc hv, valueOfBits_bitsOf hc hv⟩, fun s hc =>
    ⟨_, _, exec_bitsOf s, exec_valueOfBits_ok (valueOfBitsResult_after_bitsOf hc rfl rfl rfl rfl), rfl,
      fun _ hi => State.getLsbD_symbol hc hi⟩⟩

end Sys2Proof.Machine
end

section
/-! The framer: what FRAME and UNFRAME compute, and their round trip (spec/41_framer.md rules R140 to R149). -/

namespace Sys2Proof.Machine

/-! ### The count and the body of a frame. -/

/-- Byte k of a frame's count (R142, R143). -/
theorem getD_frameBytes_count (bits : Bits) {k : Nat} (hk : k < 8) :
    (frameBytes bits).getD k 0 = (word bits.length).extractLsb' (8 * k) 8 := by
  rw [frameBytes, List.getD_append _ _ _ _ (by simpa using hk)]
  simp [u64le, word, List.getD_eq_getElem?_getD, hk]

/-- The body of a frame is the packed bits (R143). -/
theorem getD_frameBytes_body (bits : Bits) (k : Nat) : (frameBytes bits).getD (8 + k) 0 = (pack bits).getD k 0 := by
  rw [frameBytes, List.getD_append_right _ _ _ _ (by simp), length_u64le, Nat.add_sub_cancel_left]

/-- Bit i of a packed sequence, the pad bits included (R140). -/
theorem getLsbD_pack (bits : Bits) {i : Nat} (hi : i < 8 * ceilDiv bits.length 8) :
    ((pack bits).getD (i / 8) 0).getLsbD (7 - i % 8) = bits.getD i false := by
  rw [getD_pack bits (by omega), getLsbD_packByte bits _ (by omega)]
  congr 1
  omega

/-- Bit i of an unpacked sequence (R141). -/
theorem getD_unpack (bytes : List Byte) {n i : Nat} (hi : i < n) :
    (unpack bytes n).getD i false = (bytes.getD (i / 8) 0).getLsbD (7 - i % 8) := by
  simp [unpack, List.getD_eq_getElem?_getD, hi]

/-- The bits of a sequence fit the bytes that hold it. -/
theorem le_mul_ceilDiv (n : Nat) : n ≤ 8 * ceilDiv n 8 := by
  unfold ceilDiv
  omega

/-- OUT's capacity is a register word (R23, R277). -/
theorem outCap_lt {c : Config} (h : c.wf) : c.outCap < 2 ^ 64 := by
  obtain ⟨-, -, ⟨-, -, hlt⟩, -⟩ := h
  exact hlt

/-- BITS' capacity is a register word (R23, R277). -/
theorem bitCap_lt {c : Config} (h : c.wf) : c.bitCap < 2 ^ 64 := by
  obtain ⟨-, -, -, ⟨-, -, hlt⟩, -⟩ := h
  exact hlt

/-- The eight bytes of a 64-bit count carry the count (R142). -/
theorem leBytesValue_u64le {n : Nat} (h : n < 2 ^ 64) : leBytesValue (u64le n) = n := by
  have hlt : leBytesValue (u64le n) < 2 ^ 64 := by simpa using leBytesValue_lt (u64le n)
  have hword := congrArg BitVec.toNat (ofNat_leBytesValue_wordBytes (BitVec.ofNat 64 n))
  rw [BitVec.toNat_ofNat, BitVec.toNat_ofNat, Nat.mod_eq_of_lt h] at hword
  exact (Nat.mod_eq_of_lt hlt).symm.trans hword

/-- A register word is the word of its value. -/
@[simp] theorem word_toNat (w : Word) : word w.toNat = w := by rw [word, BitVec.ofNat_toNat, BitVec.setWidth_eq]

/-! ### Frames in a buffer. -/

/-- Byte i of a range of a buffer (R12). -/
theorem Buffer.getD_readBytes (b : Buffer) (off : Nat) {n i : Nat} (hi : i < n) :
    (b.readBytes off n).getD i 0 = b.byte (off + i) := by
  simp [Buffer.readBytes, List.getD_eq_getElem?_getD, hi]

/-- Bytes written from offset 0 are read back. -/
theorem Buffer.readBytes_writeBytes (b : Buffer) (bytes : List Byte) :
    (b.writeBytes 0 bytes).readBytes 0 bytes.length = bytes := by
  refine List.ext_getElem (by simp) fun i h1 h2 => ?_
  rw [← List.getD_eq_getElem _ 0 h1, Buffer.getD_readBytes _ _ h2, Nat.zero_add, Buffer.byte_writeBytes_zero,
    if_pos h2, List.getD_eq_getElem _ _ h2]

/-- Bit i of the body of a frame written from offset 0, the pad bits included (R143). -/
theorem getLsbD_writeFrame (b : Buffer) (bits : Bits) {i : Nat} (hi : i < 8 * ceilDiv bits.length 8) :
    ((b.writeBytes 0 (frameBytes bits)).byte (8 + i / 8)).getLsbD (7 - i % 8) = bits.getD i false := by
  rw [Buffer.byte_writeBytes_zero, length_frameBytes, if_pos (by omega), getD_frameBytes_body, getLsbD_pack bits hi]

/-- The count of the frame in a buffer, a natural number (R145). -/
def Buffer.frameCount (b : Buffer) : Nat := leBytesValue (b.readBytes 0 8)

/-- The count of the frame in a buffer is the sum of its eight bytes with their weights (R67). -/
theorem Buffer.frameCount_eq_sum (b : Buffer) :
    b.frameCount = ((List.range 8).map fun k => (b.byte k).toNat * 2 ^ (8 * k)).sum := by
  simp only [Buffer.frameCount, Buffer.readBytes, leBytesValue_map_range, Nat.zero_add, Nat.pow_mul, Nat.reducePow]

/-- A buffer that holds the frame of a sequence holds the sequence's length as its count. -/
theorem Buffer.frameCount_of_frame {b : Buffer} {bits : Bits} (hlen : bits.length < 2 ^ 64)
    (h : b.readBytes 0 (frameBytes bits).length = frameBytes bits) : b.frameCount = bits.length := by
  have hcount := b.take_drop_readBytes (n := (frameBytes bits).length) (k := 0) (m := 8) (by simp)
  rw [h, List.drop_zero, frameBytes, List.take_left' (length_u64le _)] at hcount
  rw [Buffer.frameCount, ← hcount, leBytesValue_u64le hlen]

/-- A buffer that holds the frame of a sequence holds the packed sequence as its body. -/
theorem Buffer.readBytes_body_of_frame {b : Buffer} {bits : Bits}
    (h : b.readBytes 0 (frameBytes bits).length = frameBytes bits) :
    b.readBytes 8 (ceilDiv bits.length 8) = pack bits := by
  rw [← b.take_drop_readBytes (n := (frameBytes bits).length) (by simp), h, frameBytes,
    List.drop_left' (length_u64le _), List.take_of_length_le (by simp)]

/-! ### The checks and results of FRAME and UNFRAME (R144, R145). -/

theorem frameResult_error {s : State}
    (h : s.bitLen.toNat > s.cfg.bitCap ∨ 8 + ceilDiv s.bitLen.toNat 8 > s.cfg.outCap) :
    s.frameResult = .error .capacity := by
  rw [State.frameResult]
  rcases Nat.lt_or_ge s.cfg.bitCap s.bitLen.toNat with hcap | hcap
  · rw [checkBitLen_error hcap]
    rfl
  · rw [checkBitLen_ok hcap, if_pos (h.resolve_left (Nat.not_lt.2 hcap))]
    rfl

theorem frameResult_ok {s : State} (hbits : s.bitLen.toNat ≤ s.cfg.bitCap)
    (hout : 8 + ceilDiv s.bitLen.toNat 8 ≤ s.cfg.outCap) : s.frameResult = .ok (frameBytes s.bitsSeq) := by
  rw [State.frameResult, checkBitLen_ok hbits, if_neg (Nat.not_lt.2 hout)]
  rfl

theorem unframeResult_overCapacity {s : State} (h : s.cfg.inCap < s.inLen.toNat) :
    s.unframeResult = .error .capacity := by
  rw [State.unframeResult, checkInLen_error h]
  rfl

/-- The checks of UNFRAME after the one of IN_LEN, in their order (R145). -/
theorem unframeResult_eq {s : State} (h : s.inLen.toNat ≤ s.cfg.inCap) :
    s.unframeResult =
      if s.inLen.toNat < 8 then .error .truncatedInput
      else if 8 + ceilDiv s.inBuf.frameCount 8 > s.inLen.toNat then .error .truncatedInput
      else if s.inBuf.frameCount > s.cfg.bitCap then .error .capacity
      else .ok (unpack (s.inBuf.readBytes 8 (ceilDiv s.inBuf.frameCount 8)) s.inBuf.frameCount) := by
  rw [State.unframeResult, checkInLen_ok h]
  rfl

/-- UNFRAME of the frame of a sequence gives the sequence (R149). -/
theorem unframeResult_of_frame {s : State} {bits : Bits} (hc : s.cfg.wf) (hbits : bits.length ≤ s.cfg.bitCap)
    (hlen : s.inLen.toNat = (frameBytes bits).length) (hcap : s.inLen.toNat ≤ s.cfg.inCap)
    (h : s.inBuf.readBytes 0 (frameBytes bits).length = frameBytes bits) : s.unframeResult = .ok bits := by
  rw [length_frameBytes] at hlen
  rw [unframeResult_eq hcap, Buffer.frameCount_of_frame (hbits.trans_lt (bitCap_lt hc)) h, if_neg (by omega),
    if_neg (by omega), if_neg (by omega), Buffer.readBytes_body_of_frame h, unpack_pack]

theorem exec_frame_error {s : State} {e : ErrKind} (h : s.frameResult = .error e) :
    exec .frame s = .next { s with
      outLen := 0, outBuf := Buffer.unwritten s.draws, draws := s.draws + 1, partialFlag := false,
      phase := .idle, done := true, err := some e } := by
  rw [exec, execFrame, complete_error _ _ _ h, failWriteSet_frame, State.finish]

theorem exec_frame_ok {s : State} {bytes : List Byte} (h : s.frameResult = .ok bytes) :
    exec .frame s = .next { s with
      outBuf := s.outBuf.writeBytes 0 bytes, outLen := word bytes.length, phase := .idle, done := true, err := none } :=
  complete_ok .frame (fun bytes s => (s.putOut bytes).putReg .outLen (word bytes.length)) s h

theorem exec_unframe_error {s : State} {e : ErrKind} (h : s.unframeResult = .error e) :
    exec .unframe s = .next { s with
      bitLen := 0, bitsBuf := Buffer.unwritten s.draws, draws := s.draws + 1, partialFlag := false,
      phase := .idle, done := true, err := some e } := by
  rw [exec, execUnframe, complete_error _ _ _ h, failWriteSet_unframe, State.finish]

theorem exec_unframe_ok {s : State} {bits : Bits} (h : s.unframeResult = .ok bits) :
    exec .unframe s = .next { s with
      bitsBuf := s.bitsBuf.writeBytes 0 (pack bits), bitLen := word bits.length, phase := .idle, done := true,
      err := none } :=
  complete_ok .unframe (fun bits s => (s.putBits bits).putReg .bitLen (word bits.length)) s h

/-! ### The statements. -/

/-- Settles O29: the two checks have one outcome; else OUT holds the frame of BITS_SEQ from offset 0. -/
theorem frameWritesCountAndBits : Obligations.FrameWritesCountAndBits := by
  refine fun s _ => ⟨rfl, ?_⟩
  split_ifs with hlong
  · exact exec_frame_error (frameResult_error hlong)
  · obtain ⟨hbits, hout⟩ := not_or.1 hlong
    have hlen := length_bitsSeq s
    have hframe := length_frameBytes s.bitsSeq
    rw [hlen] at hframe
    have hexec := exec_frame_ok (frameResult_ok (Nat.not_lt.1 hbits) (Nat.not_lt.1 hout))
    rw [hframe] at hexec
    refine ⟨_, hexec, fun k hk => ?_, fun i hi => ?_, fun i hi hpad => ?_, fun a ha => ?_⟩
    · rw [Buffer.byte_writeBytes_zero, if_pos (by omega), getD_frameBytes_count _ hk, hlen, word_toNat]
    · have hbody := hi.trans_le (le_mul_ceilDiv s.bitLen.toNat)
      rw [getLsbD_writeFrame _ _ (by rwa [hlen]), State.getD_bitsSeq s hi]
    · rw [getLsbD_writeFrame _ _ (by rwa [hlen]), List.getD_eq_default _ _ (by rwa [hlen])]
    · rw [Buffer.byte_writeBytes_zero, if_neg (by omega)]

/-- Settles O30: the four checks in their order, then BITS holds the sequence unpacked from the body. -/
theorem unframeReadsCountAndBits : Obligations.UnframeReadsCountAndBits := by
  refine fun s _ => ⟨rfl, ?_⟩
  have hchecks := unframeResult_eq (s := s)
  rw [← Buffer.frameCount_eq_sum]
  -- The count is made opaque: the case split would otherwise try to compute it.
  generalize s.inBuf.frameCount = count at hchecks ⊢
  dsimp only
  split_ifs with hcap hheader hbody hcount
  · exact exec_unframe_error (unframeResult_overCapacity hcap)
  all_goals specialize hchecks (Nat.not_lt.1 hcap)
  · exact exec_unframe_error (by rw [hchecks, if_pos hheader])
  · exact exec_unframe_error (by rw [hchecks, if_neg hheader, if_pos hbody])
  · exact exec_unframe_error (by rw [hchecks, if_neg hheader, if_neg hbody, if_pos hcount])
  · rw [if_neg hheader, if_neg hbody, if_neg hcount] at hchecks
    have hlen := length_unpack (s.inBuf.readBytes 8 (ceilDiv count 8)) count
    have hexec := exec_unframe_ok hchecks
    rw [hlen] at hexec
    refine ⟨_, hexec, fun i hi => ?_, fun i hi hpad => ?_, fun a ha => ?_⟩
    · have hfit := hi.trans_le (le_mul_ceilDiv count)
      rw [Buffer.bit_writeBits, hlen, if_pos hfit, getD_unpack _ hi, Buffer.getD_readBytes _ _ (by omega)]
    · rw [Buffer.bit_writeBits, hlen, if_pos hpad, List.getD_eq_default _ _ (by rwa [hlen])]
    · exact Buffer.byte_writeBits_above _ _ (by rwa [hlen])

/-- Settles O31: IN holds the frame of BITS_SEQ that FRAME wrote, and UNFRAME writes back the sequence framed. -/
theorem frameUnframeRoundTrip : Obligations.FrameUnframeRoundTrip := by
  intro s hc hbits hfit
  obtain ⟨hout, hin⟩ := le_min_iff.1 hfit
  refine ⟨_, exec_frame_ok (frameResult_ok hbits hout), rfl, fun u hcfg hinLen hcopy => ?_⟩
  have hlen := length_bitsSeq s
  have hframe : (frameBytes s.bitsSeq).length = 8 + ceilDiv s.bitLen.toNat 8 := by rw [length_frameBytes, hlen]
  have houtLen : (word (frameBytes s.bitsSeq).length).toNat = (frameBytes s.bitsSeq).length :=
    toNat_word (hframe.trans_le hout) (outCap_lt hc)
  have hinLen' : u.inLen.toNat = (frameBytes s.bitsSeq).length := hinLen ▸ houtLen
  have hcopied : u.inBuf.readBytes 0 (frameBytes s.bitsSeq).length = frameBytes s.bitsSeq := by
    refine (Buffer.readBytes_congr fun i hi => ?_).trans (s.outBuf.readBytes_writeBytes _)
    rw [Nat.zero_add]
    exact hcopy i (hi.trans_eq houtLen.symm)
  have hok : u.unframeResult = .ok s.bitsSeq :=
    unframeResult_of_frame (hcfg ▸ hc) (by rwa [hlen, hcfg]) hinLen' (by rwa [hinLen', hframe, hcfg]) hcopied
  have hbitLen : word s.bitsSeq.length = s.bitLen := by rw [hlen, word_toNat]
  exact ⟨_, exec_unframe_ok hok, rfl, hbitLen, State.bitsSeq_of_putBits (s := u) rfl (hbitLen ▸ hlen.symm)⟩

end Sys2Proof.Machine
end

section
/-! The working list and the leaves (spec/42_tree_builder.md rules R165 and R167). -/

namespace Sys2Proof.Machine

/-- A working list in descending frequency (R167). -/
abbrev workDescending (work : List CodeTree) : Prop := work.Pairwise fun x y => y.freq ≤ x.freq

/-- A node goes behind a first entry of equal or higher frequency (R167). -/
theorem insertOrdered_cons_of_le {e n : CodeTree} (work : List CodeTree) (h : n.freq ≤ e.freq) :
    insertOrdered (e :: work) n = e :: insertOrdered work n := by
  simp [insertOrdered, h]

/-- A node goes before entries that are all of lower frequency (R167). -/
theorem insertOrdered_of_lt {work : List CodeTree} {n : CodeTree} (h : ∀ e ∈ work, e.freq < n.freq) :
    insertOrdered work n = n :: work := by
  have hp : (work.countP fun e => decide (n.freq ≤ e.freq)) = 0 :=
    List.countP_eq_zero.2 fun e he => by simpa using h e he
  simp [insertOrdered, hp]

/-- In a descending list a node is inserted between the entries of equal or higher frequency and those of lower. -/
theorem insertOrdered_splits {work : List CodeTree} (n : CodeTree) (h : workDescending work) :
    ∃ before after, insertOrdered work n = before ++ n :: after ∧ work = before ++ after ∧
      (∀ e ∈ before, n.freq ≤ e.freq) ∧ ∀ e ∈ after, e.freq < n.freq := by
  induction work with
  | nil => exact ⟨[], [], rfl, rfl, by simp, by simp⟩
  | cons e work ih =>
    obtain ⟨hfirst, hrest⟩ := List.pairwise_cons.1 h
    by_cases hle : n.freq ≤ e.freq
    · obtain ⟨before, after, hins, rfl, hbefore, hafter⟩ := ih hrest
      exact ⟨e :: before, after, by rw [insertOrdered_cons_of_le _ hle, hins]; rfl, rfl,
        List.forall_mem_cons.2 ⟨hle, hbefore⟩, hafter⟩
    · have hlt : e.freq < n.freq := BitVec.not_le.1 hle
      have hall : ∀ x ∈ e :: work, x.freq < n.freq :=
        List.forall_mem_cons.2 ⟨hlt, fun x hx => Nat.lt_of_le_of_lt (hfirst x hx) hlt⟩
      exact ⟨[], e :: work, insertOrdered_of_lt hall, rfl, by simp, hall⟩

/-- Settles O35: the split at the new node's frequency keeps each part's order. -/
theorem workingListStaysDescending : Obligations.WorkingListStaysDescending := by
  intro work n h
  obtain ⟨before, after, hins, rfl, hbefore, hafter⟩ := insertOrdered_splits n h
  refine ⟨before, after, hins, rfl, hbefore, hafter, ?_⟩
  obtain ⟨hb, ha, hba⟩ := List.pairwise_append.1 h
  rw [hins]
  have hnew : workDescending (n :: after) := List.pairwise_cons.2 ⟨fun e he => BitVec.le_of_lt (hafter e he), ha⟩
  refine List.pairwise_append.2 ⟨hb, hnew, fun x hx y hy => ?_⟩
  obtain rfl | hy := List.mem_cons.1 hy
  · exact hbefore x hx
  · exact hba x hx y hy

/-- The key order of R165, written out: unsigned, or two's complement of `W` bits. -/
theorem symbolKey_lt_iff (c : Config) (x y : Symbol) : symbolKey c x < symbolKey c y ↔
    if c.keySigned then (x.setWidth c.w).toInt < (y.setWidth c.w).toInt else x.toNat < y.toNat := by
  unfold symbolKey
  split_ifs
  · exact Iff.rfl
  · exact Int.ofNat_lt

/-- Different `W`-bit symbols have different keys. -/
theorem symbolKey_inj {c : Config} {x y : Symbol} (hx : x.toNat < 2 ^ c.w) (hy : y.toNat < 2 ^ c.w)
    (h : symbolKey c x = symbolKey c y) : x = y := by
  refine BitVec.eq_of_toNat_eq ?_
  unfold symbolKey at h
  split_ifs at h
  · have hw := congrArg BitVec.toNat (BitVec.eq_of_toInt_eq h)
    rwa [BitVec.toNat_setWidth, BitVec.toNat_setWidth, Nat.mod_eq_of_lt hx, Nat.mod_eq_of_lt hy] at hw
  · exact Int.ofNat_inj.1 h

/-- A table in strictly ascending key order (R165). -/
abbrev keysAscend (c : Config) (ft : FreqTable) : Prop := ft.Pairwise fun x y => symbolKey c x.1 < symbolKey c y.1

/-- Inserting an entry with a new key keeps the key order. -/
theorem keysAscend_insertByKey {c : Config} {e : Symbol × Count} {ft : FreqTable} (h : keysAscend c ft)
    (hnew : ∀ f ∈ ft, symbolKey c f.1 ≠ symbolKey c e.1) : keysAscend c (insertByKey c e ft) := by
  induction ft with
  | nil => exact List.pairwise_singleton _ _
  | cons f fs ih =>
    obtain ⟨hf, hfs⟩ := List.pairwise_cons.1 h
    obtain ⟨hne, hnew⟩ := List.forall_mem_cons.1 hnew
    rw [insertByKey]
    split_ifs with hlt
    · exact List.pairwise_cons.2 ⟨List.forall_mem_cons.2 ⟨hlt, fun x hx => hlt.trans (hf x hx)⟩, h⟩
    · refine List.pairwise_cons.2 ⟨fun x hx => ?_, ih hfs hnew⟩
      obtain rfl | hx := List.mem_cons.1 ((perm_insertByKey c e fs).mem_iff.1 hx)
      · exact lt_of_le_of_ne (not_lt.1 hlt) hne
      · exact hf x hx

/-- Sorting a table of distinct `W`-bit symbols puts it in key order. -/
theorem keysAscend_sortByKey {c : Config} {ft : FreqTable} (hnd : (ft.map Prod.fst).Nodup)
    (hw : ∀ e ∈ ft, e.1.toNat < 2 ^ c.w) : keysAscend c (sortByKey c ft) := by
  induction ft with
  | nil => exact .nil
  | cons e es ih =>
    obtain ⟨hnew, hnd⟩ := List.nodup_cons.1 hnd
    obtain ⟨he, hes⟩ := List.forall_mem_cons.1 hw
    refine keysAscend_insertByKey (ih hnd hes) fun f hf hkey => hnew ?_
    have hmem := (perm_sortByKey c es).mem_iff.1 hf
    exact symbolKey_inj (hes f hmem) he hkey ▸ List.mem_map_of_mem hmem

/-- Settles O34: the leaves are those of the table sorted by key. -/
theorem leavesAreInKeyOrder : Obligations.LeavesAreInKeyOrder := fun c ft _ hnd hw =>
  ⟨sortByKey c ft, rfl, perm_sortByKey c ft,
    (keysAscend_sortByKey hnd hw).imp fun {x y} h => (symbolKey_lt_iff c x.1 y.1).1 h⟩

end Sys2Proof.Machine
end

section
/-! The merge loop (spec/42_tree_builder.md rules R166 and R168 to R173): it makes the merges of R170, and every merge
keeps the table's entries, the sums of frequencies, and the agreement of codes and paths. -/

namespace Sys2Proof.Machine

/-! ### A tree's leaves, frequencies and paths. -/

@[simp] theorem CodeTree.length_leafEntries (t : CodeTree) : List.length t.leafEntries = t.leaves := by
  induction t with
  | leaf s f => rfl
  | node l r f ihl ihr => rw [CodeTree.leafEntries, List.length_append, ihl, ihr, CodeTree.leaves]

@[simp] theorem CodeTree.map_fst_leafEntries (t : CodeTree) : t.leafEntries.map Prod.fst = t.syms := by
  induction t with
  | leaf s f => rfl
  | node l r f ihl ihr => rw [CodeTree.leafEntries, List.map_append, ihl, ihr, CodeTree.syms]

/-- A path leads to one of the tree's leaf symbols. -/
theorem CodeTree.mem_syms_of_mem_paths {t : CodeTree} {e : Symbol × Bits} (h : e ∈ t.paths) : e.1 ∈ t.syms := by
  induction t generalizing e with
  | leaf s f => rw [List.mem_singleton.1 h]; exact .head _
  | node l r f ihl ihr =>
    rw [CodeTree.syms, List.mem_append]
    simp only [CodeTree.paths, List.mem_append, List.mem_map] at h
    obtain ⟨e, he, rfl⟩ | ⟨e, he, rfl⟩ := h
    · exact .inl (ihl (e := e) he)
    · exact .inr (ihr (e := e) he)

theorem FreqTable.total_append (ft gt : FreqTable) :
    FreqTable.total (ft ++ gt) = FreqTable.total ft + FreqTable.total gt := by
  simp [FreqTable.total]

theorem FreqTable.total_perm {ft gt : FreqTable} (h : ft.Perm gt) : FreqTable.total ft = FreqTable.total gt :=
  (h.map _).sum_eq

/-- Frequencies that add do not wrap where the sum of the leaves' counts fits a counter (R164, R166). -/
theorem CodeTree.freqsAdd.exact {t : CodeTree} (h : t.freqsAdd) (hfit : FreqTable.total t.leafEntries < 2 ^ freqWidth) :
    t.freq.toNat = FreqTable.total t.leafEntries ∧ t.freqsExact := by
  induction t with
  | leaf s f => exact ⟨by simp [CodeTree.freq, CodeTree.leafEntries, FreqTable.total], trivial⟩
  | node l r f ihl ihr =>
    obtain ⟨rfl, hl, hr⟩ := h
    have hsum := hfit
    rw [CodeTree.leafEntries, FreqTable.total_append] at hsum
    obtain ⟨hfl, hl⟩ := ihl hl (by omega)
    obtain ⟨hfr, hr⟩ := ihr hr (by omega)
    have hf : (l.freq + r.freq).toNat = FreqTable.total (l.leafEntries ++ r.leafEntries) := by
      rw [BitVec.toNat_add, hfl, hfr, FreqTable.total_append, Nat.mod_eq_of_lt hsum]
    exact ⟨hf, hf, hl, hr⟩

/-- In a tree no path is the beginning of another (R173). -/
theorem CodeTree.paths_prefixFree {t : CodeTree} {x y : Symbol × Bits} (hx : x ∈ t.paths) (hy : y ∈ t.paths)
    (h : x.2 <+: y.2) : x = y := by
  induction t generalizing x y with
  | leaf s f => rw [List.mem_singleton.1 hx, List.mem_singleton.1 hy]
  | node l r f ihl ihr =>
    simp only [CodeTree.paths, List.mem_append, List.mem_map] at hx hy
    obtain ⟨x, hx, rfl⟩ | ⟨x, hx, rfl⟩ := hx <;> obtain ⟨y, hy, rfl⟩ | ⟨y, hy, rfl⟩ := hy <;>
      obtain ⟨hbit, h⟩ := List.cons_prefix_cons.1 h
    · rw [ihl hx hy h]
    · cases hbit
    · cases hbit
    · rw [ihr hx hy h]

/-! ### The loop is the merges of R170. -/

/-- The two bits one merge appends, as the merges of R169 say it. -/
theorem appendBit_appendBit (lo ot : List Symbol) (g : CodeTable) :
    appendBit ot true (appendBit lo false g) =
      g.map fun e => (e.1, e.2 ++ (if e.1 ∈ lo then [false] else []) ++ (if e.1 ∈ ot then [true] else [])) := by
  rw [appendBit, appendBit, List.map_map]
  refine List.map_congr_left fun e _ => ?_
  by_cases hlo : e.1 ∈ lo <;> by_cases hot : e.1 ∈ ot <;> simp [hlo, hot]

/-- With a round for every entry of the working list the loop ends by itself. -/
theorem mergesTo_mergeRounds (n : Nat) : ∀ {work : List CodeTree} (g : CodeTable), work.length ≤ n →
    MergesTo work g (mergeRounds n (work, g)).1 (mergeRounds n (work, g)).2 := by
  induction n with
  | zero => exact fun g h => .done _ g (by omega)
  | succ n ih =>
    intro work g h
    rw [mergeRounds]
    rcases hw : work.reverse with _ | ⟨lo, _ | ⟨ot, rest⟩⟩
    · exact .done work g (by rw [← List.length_reverse, hw]; simp)
    · exact .done work g (by rw [← List.length_reverse, hw]; simp)
    · obtain rfl : work = rest.reverse ++ [ot, lo] := by
        rw [← List.reverse_reverse work, hw]; simp
      have hlen : (mergeOnce rest.reverse lo ot g).1.length ≤ n := by
        rw [mergeOnce, (perm_insertOrdered _ _).length_eq]
        simp at h ⊢
        omega
      refine .merge rest.reverse lo ot g _ _ ?_
      rw [← appendBit_appendBit]
      exact ih _ hlen

/-- `merge_loop` inserts the leaves, merges, and reverses the codes (R170). -/
theorem mergeLoop_mergesTo (ft : FreqTable) (leaves : List CodeTree) : ∃ work g,
    MergesTo (leaves.foldl insertOrdered []) (ft.map fun e => (e.1, [])) work g ∧
    mergeLoop ft leaves = (work.head?, codesOf g) := by
  have hlen : (leaves.foldl insertOrdered []).length ≤ leaves.length := by
    simp [(perm_foldl_insertOrdered leaves []).length_eq]
  exact ⟨_, _, mergesTo_mergeRounds leaves.length _ hlen, rfl⟩

/-! ### What every merge keeps. -/

/-- What the merges keep of a table `ft`: its entries are the leaves under the working list, the frequencies add, and
every symbol's growing code is, reversed, the path to it from its entry of the working list (R166, R169, R173). -/
structure MergeState (ft : FreqTable) (work : List CodeTree) (g : CodeTable) : Prop where
  entries : (work.flatMap CodeTree.leafEntries).Perm ft
  freqs : ∀ t ∈ work, t.freqsAdd
  codes : (codesOf g).Perm (work.flatMap CodeTree.paths)

/-- One bit in front of the codes of the listed symbols: what `appendBit` does, seen from the root. -/
def prependBit (syms : List Symbol) (b : Bool) (ct : CodeTable) : CodeTable :=
  ct.map fun e => if e.1 ∈ syms then (e.1, b :: e.2) else e

/-- The last bit appended to a growing code is the first bit of the code (R170). -/
theorem codesOf_appendBit (syms : List Symbol) (b : Bool) (g : CodeTable) :
    codesOf (appendBit syms b g) = prependBit syms b (codesOf g) := by
  rw [codesOf, appendBit, codesOf, prependBit, List.map_map, List.map_map]
  refine List.map_congr_left fun e _ => ?_
  by_cases h : e.1 ∈ syms <;> simp [h]

theorem prependBit_append (syms : List Symbol) (b : Bool) (ct ct' : CodeTable) :
    prependBit syms b (ct ++ ct') = prependBit syms b ct ++ prependBit syms b ct' := List.map_append

/-- The paths of a tree whose symbols are listed all get the bit. -/
theorem prependBit_paths (t : CodeTree) (b : Bool) :
    prependBit t.syms b t.paths = t.paths.map fun e => (e.1, b :: e.2) :=
  List.map_congr_left fun _ he => if_pos (CodeTree.mem_syms_of_mem_paths he)

/-- Codes of symbols that are not listed stay as they are. -/
theorem prependBit_of_disjoint {syms : List Symbol} (b : Bool) {ct : CodeTable} (h : ∀ e ∈ ct, e.1 ∉ syms) :
    prependBit syms b ct = ct :=
  (List.map_congr_left fun e he => if_neg (h e he)).trans (List.map_id ct)

/-- One merge puts a 0 before the paths of the lower node and a 1 before those of the other, and leaves the codes of the
symbols under neither (R169). -/
theorem prependBit_merge {lo ot : CodeTree} {rest : CodeTable} (hrest : ∀ e ∈ rest, e.1 ∉ ot.syms ++ lo.syms)
    (hdisj : List.Disjoint ot.syms lo.syms) :
    prependBit ot.syms true (prependBit lo.syms false (rest ++ (ot.paths ++ lo.paths))) =
      rest ++ ((ot.paths.map fun e => (e.1, true :: e.2)) ++ lo.paths.map fun e => (e.1, false :: e.2)) := by
  have hrlo : prependBit lo.syms false rest = rest :=
    prependBit_of_disjoint _ fun e he hm => hrest e he (List.mem_append_right _ hm)
  have hrot : prependBit ot.syms true rest = rest :=
    prependBit_of_disjoint _ fun e he hm => hrest e he (List.mem_append_left _ hm)
  have hlo : prependBit lo.syms false ot.paths = ot.paths :=
    prependBit_of_disjoint _ fun e he => hdisj (CodeTree.mem_syms_of_mem_paths he)
  have hot : prependBit ot.syms true (lo.paths.map fun e => (e.1, false :: e.2)) =
      lo.paths.map fun e => (e.1, false :: e.2) := by
    refine prependBit_of_disjoint _ fun e he => ?_
    obtain ⟨e', he', rfl⟩ := List.mem_map.1 he
    exact fun hm => hdisj hm (CodeTree.mem_syms_of_mem_paths (e := e') he')
  simp only [prependBit_append, prependBit_paths, hrlo, hrot, hlo, hot]

/-- The symbols under the entries of the working list are all different, as those of the table are. -/
theorem MergeState.nodup_syms {ft : FreqTable} {work : List CodeTree} {g : CodeTable} (h : MergeState ft work g)
    (hnd : (ft.map Prod.fst).Nodup) : (work.flatMap CodeTree.syms).Nodup := by
  have hp := h.entries.map Prod.fst
  rw [List.map_flatMap] at hp
  simpa using hp.nodup_iff.2 hnd

/-- One merge keeps them: the symbols under the merged nodes and under the other entries are all different. -/
theorem MergeState.merge {ft : FreqTable} (hnd : (ft.map Prod.fst).Nodup) {rest : List CodeTree} {lo ot : CodeTree}
    {g : CodeTable} (h : MergeState ft (rest ++ [ot, lo]) g) :
    MergeState ft (insertOrdered rest (.node lo ot (lo.freq + ot.freq)))
      (appendBit ot.syms true (appendBit lo.syms false g)) := by
  have hwork := perm_insertOrdered rest (.node lo ot (lo.freq + ot.freq))
  have hlast : ∀ {α : Type} (f : CodeTree → List α),
      (rest ++ [ot, lo]).flatMap f = rest.flatMap f ++ (f ot ++ f lo) := by simp
  have hsyms := h.nodup_syms hnd
  obtain ⟨hentries, hfreqs, hcodes⟩ := h
  constructor
  · refine (hwork.flatMap_right _).trans (List.Perm.trans ?_ hentries)
    rw [hlast, List.flatMap_cons, CodeTree.leafEntries]
    exact List.perm_append_comm.trans (List.Perm.append_left _ List.perm_append_comm)
  · intro t ht
    obtain rfl | ht := List.mem_cons.1 (hwork.mem_iff.1 ht)
    · exact ⟨rfl, hfreqs lo (by simp), hfreqs ot (by simp)⟩
    · exact hfreqs t (List.mem_append_left _ ht)
  · rw [hlast] at hsyms
    obtain ⟨-, hmerged, hrest⟩ := List.nodup_append'.1 hsyms
    obtain ⟨-, -, hdisj⟩ := List.nodup_append'.1 hmerged
    have hothers : ∀ e ∈ rest.flatMap CodeTree.paths, e.1 ∉ ot.syms ++ lo.syms := by
      intro e he
      obtain ⟨t, ht, he⟩ := List.mem_flatMap.1 he
      exact hrest (List.mem_flatMap.2 ⟨t, ht, CodeTree.mem_syms_of_mem_paths he⟩)
    have hbits := prependBit_merge hothers hdisj
    rw [← hlast] at hbits
    rw [codesOf_appendBit, codesOf_appendBit]
    refine (((hcodes.map _).map _).trans (.of_eq hbits)).trans (List.Perm.trans ?_ (hwork.flatMap_right _).symm)
    rw [List.flatMap_cons, CodeTree.paths]
    exact (List.Perm.append_left _ List.perm_append_comm).trans List.perm_append_comm

/-- The merges of R170 keep them. -/
theorem MergesTo.mergeState {ft : FreqTable} (hnd : (ft.map Prod.fst).Nodup) {work work' : List CodeTree}
    {g g' : CodeTable} (hm : MergesTo work g work' g') (h : MergeState ft work g) : MergeState ft work' g' := by
  induction hm with
  | done work g _ => exact h
  | merge rest lo ot g work g' _ ih =>
    rw [← appendBit_appendBit] at ih
    exact ih (h.merge hnd)

/-- The merges of R170 end with one entry, the root, unless there was none. -/
theorem MergesTo.singleton {work work' : List CodeTree} {g g' : CodeTable} (hm : MergesTo work g work' g')
    (h : work ≠ []) : ∃ t, work' = [t] := by
  induction hm with
  | done work g hlen =>
    have hpos := List.length_pos_iff.2 h
    exact List.length_eq_one_iff.1 (by omega)
  | merge rest lo ot g work g' _ ih =>
    refine ih fun hnil => ?_
    have hp := perm_insertOrdered rest (.node lo ot (lo.freq + ot.freq))
    exact List.cons_ne_nil _ _ (hnil ▸ hp).nil_eq.symm

/-- What the loop starts from: the leaves in the working list, and empty codes (R165, R170). -/
theorem mergeState_leaves (c : Config) (ft : FreqTable) :
    MergeState ft ((makeLeaves c ft).foldl insertOrdered []) (ft.map fun e => (e.1, [])) := by
  have hsort := perm_sortByKey c ft
  have hwork := perm_foldl_insertOrdered (makeLeaves c ft) []
  rw [List.append_nil, makeLeaves] at hwork
  constructor
  · refine (hwork.flatMap_right _).trans (List.Perm.trans (.of_eq ?_) hsort)
    rw [List.flatMap_map]
    exact List.flatMap_singleton' _
  · intro t ht
    obtain ⟨e, -, rfl⟩ := List.mem_map.1 (hwork.mem_iff.1 ht)
    trivial
  · refine List.Perm.trans ?_ (hwork.flatMap_right _).symm
    rw [codesOf, List.map_map, List.flatMap_map]
    exact (hsort.map _).symm.trans (.of_eq List.map_eq_flatMap)

/-- The tree and the codes of a non-empty table of distinct symbols (R166, R173). -/
theorem mergeLoop_tree (c : Config) {ft : FreqTable} (hnd : (ft.map Prod.fst).Nodup) (hne : ft ≠ []) :
    ∃ t, (mergeLoop ft (makeLeaves c ft)).1 = some t ∧ t.leafEntries.Perm ft ∧ t.freqsAdd ∧
      (mergeLoop ft (makeLeaves c ft)).2.Perm t.paths := by
  obtain ⟨work, g, hm, hloop⟩ := mergeLoop_mergesTo ft (makeLeaves c ft)
  have hstart := mergeState_leaves c ft
  have hwork : (makeLeaves c ft).foldl insertOrdered [] ≠ [] := by
    intro hnil
    have hentries := hstart.entries
    rw [hnil] at hentries
    exact hne hentries.nil_eq.symm
  obtain ⟨t, rfl⟩ := hm.singleton hwork
  obtain ⟨hentries, hfreqs, hcodes⟩ := hm.mergeState hnd hstart
  rw [List.flatMap_singleton] at hentries hcodes
  rw [hloop]
  exact ⟨t, rfl, hentries, hfreqs t (.head _), hcodes⟩

/-- Settles O36: the loop makes the merges, and its tree and codes are what every merge keeps, with one entry left. -/
theorem mergeLoopBuildsTheCodeTree : Obligations.MergeLoopBuildsTheCodeTree := by
  refine ⟨mergeLoop_mergesTo, fun c ft hnd => ⟨?_, fun hne => ?_⟩⟩
  · rintro rfl
    rfl
  · obtain ⟨t, htree, hentries, hadd, hcodes⟩ := mergeLoop_tree c hnd hne
    have hleaves : t.leaves = List.length ft := by rw [← t.length_leafEntries, hentries.length_eq]
    have hnodes := t.nodes_add_one
    refine ⟨t, htree, hentries, hadd, fun hfit => ?_, by omega, hleaves, fun x code => hcodes.mem_iff, fun e he => ?_⟩
    · exact (hadd.exact (FreqTable.total_perm hentries ▸ hfit)).2
    · have := (mergeLoop_bounds c hnd).2 e he
      omega

end Sys2Proof.Machine
end

section
/-! BUILD (spec/42_tree_builder.md rules R164, R173 and R176): its three checks, the tables and the tree of an input. -/

namespace Sys2Proof.Machine

/-! ### What BUILD computes (R176). -/

/-- What the builder makes of the input (R162 to R170). -/
def State.builtInput (s : State) : Built where
  syms := s.inputSymbols
  freqTable := s.inputTable
  tree := (mergeLoop s.inputTable (makeLeaves s.cfg s.inputTable)).1
  codeTable := (mergeLoop s.inputTable (makeLeaves s.cfg s.inputTable)).2

theorem buildResult_overCapacity {s : State} (h : s.cfg.inCap < s.inLen.toNat) :
    s.buildResult = .error .capacity := by
  rw [State.buildResult, checkInLen_error h]
  rfl

/-- The checks of BUILD after the one of IN_LEN, in their order. -/
theorem buildResult_eq {s : State} (h : s.inLen.toNat ≤ s.cfg.inCap) :
    s.buildResult =
      if s.inLen.toNat % s.cfg.symBytes ≠ 0 then .error .truncatedInput
      else if s.inputSymbols.dedup.length > s.cfg.maxDistinct then .error .capacity
      else .ok s.builtInput := by
  rw [State.buildResult, checkInLen_ok h]
  exact buildFrom_eq s

/-- BUILD succeeds with what the builder makes of the input, and only for an input inside IN. -/
theorem buildResult_ok {s : State} {b : Built} (h : s.buildResult = .ok b) :
    s.inLen.toNat ≤ s.cfg.inCap ∧ b = s.builtInput := by
  obtain ⟨_, hcheck, -⟩ := bind_eq_ok h
  have hin := inLen_le_of_checkInLen hcheck
  rw [buildResult_eq hin] at h
  split_ifs at h
  cases h
  exact ⟨hin, rfl⟩

theorem exec_build_error {s : State} {e : ErrKind} (h : s.buildResult = .error e) :
    exec .build s = .next { s with
      symCount := 0, distinct := 0, freqValid := false, tableValid := false, treeValid := false, treeEmpty := false,
      partialFlag := false, phase := .idle, done := true, err := some e } := by
  rw [exec, execBuild, complete_error _ _ _ h, failWriteSet_build, State.finish]

theorem exec_build_ok {s : State} {b : Built} (h : s.buildResult = .ok b) :
    exec .build s = .next ((s.putBuilt b).finish none) :=
  complete_ok .build State.putBuilt s h

/-- A BUILD that leaves no error took over what the builder makes of an input inside IN. -/
theorem exec_build_success {s t : State} (h : exec .build s = .next t) (he : t.err = none) :
    s.inLen.toNat ≤ s.cfg.inCap ∧ t = (s.putBuilt s.builtInput).finish none := by
  obtain ⟨u, hu, rfl⟩ | ⟨e, rfl⟩ := exec_result h
  · cases hu with
    | build hb =>
      obtain ⟨hin, rfl⟩ := buildResult_ok hb
      exact ⟨hin, rfl⟩
  · cases he

/-! ### The tables and the tree of an input. -/

/-- The counts of an input's table sum to its number of symbols (R164). -/
theorem State.total_inputTable (s : State) : FreqTable.total s.inputTable = s.inputSymbols.length := by
  have hcounts : s.inputTable.map (fun e => e.2.toNat) =
      (s.inputSymbols.dedup.insertionSort fun x y => x.toNat ≤ y.toNat).map fun x => s.inputSymbols.count x := by
    rw [State.inputTable, List.map_map]
    refine List.map_congr_left fun x _ => ?_
    exact (BitVec.toNat_ofNat _ _).trans (Nat.mod_eq_of_lt (s.count_inputSymbols_lt x))
  rw [FreqTable.total, hcounts, ((List.perm_insertionSort _ _).map _).sum_eq, List.sum_map_count_dedup_eq_length]

/-- The symbols of an input's table are distinct. -/
theorem State.nodup_inputTable (s : State) : (s.inputTable.map Prod.fst).Nodup := s.inputTable_spec.1.nodup

/-- The tree of an input is `Empty` exactly when the input has no symbol (R171). -/
theorem State.isNone_tree_builtInput (s : State) :
    s.builtInput.tree.isNone = decide (s.inputSymbols.dedup.length = 0) := by
  obtain ⟨-, -, hlen⟩ := s.inputTable_spec
  rw [← hlen]
  by_cases hne : s.inputTable = []
  · rw [State.builtInput, hne]
    rfl
  · obtain ⟨t, htree, -⟩ := mergeLoop_tree s.cfg s.nodup_inputTable hne
    rw [State.builtInput, htree]
    simp [hne]

/-- A non-empty tree of an input has the input's table as its leaves, frequencies that add, and the codes as paths. -/
theorem State.tree_builtInput {s : State} {t : CodeTree} (h : s.builtInput.tree = some t) :
    t.leafEntries.Perm s.inputTable ∧ t.freqsAdd ∧ s.builtInput.codeTable.Perm t.paths := by
  have hne : s.inputTable ≠ [] := fun hnil => by rw [State.builtInput, hnil] at h; cases h
  obtain ⟨t', htree, hspec⟩ := mergeLoop_tree s.cfg s.nodup_inputTable hne
  obtain rfl : t' = t := Option.some.inj (htree.symm.trans h)
  exact hspec

/-- No tree, no code (R171). -/
theorem State.codeTable_builtInput_of_none {s : State} (h : s.builtInput.tree = none) :
    s.builtInput.codeTable = [] := by
  by_cases hne : s.inputTable = []
  · rw [State.builtInput, hne]
    rfl
  · obtain ⟨t, htree, -⟩ := mergeLoop_tree s.cfg s.nodup_inputTable hne
    rw [State.builtInput, htree] at h
    cases h

/-! ### The statements. -/

/-- Settles O32: each failing check fails BUILD's write set; else the state takes over what the builder makes. -/
theorem buildMakesTablesAndTree : Obligations.BuildMakesTablesAndTree := by
  refine fun s _ => ⟨rfl, ?_⟩
  have hchecks := buildResult_eq (s := s)
  dsimp only
  split_ifs with hcap hpart hmany
  · exact exec_build_error (buildResult_overCapacity hcap)
  all_goals specialize hchecks (Nat.not_lt.1 hcap)
  · exact exec_build_error (by rw [hchecks, if_pos hpart])
  · exact exec_build_error (by rw [hchecks, if_neg hpart, if_pos hmany])
  · rw [if_neg hpart, if_neg hmany] at hchecks
    rw [exec_build_ok hchecks, State.putBuilt, State.isNone_tree_builtInput]
    simp [State.builtInput, State.tablesBuilt, State.finish, word, s.inputTable_spec.2.2]

/-- Settles O33: the table holds the occurrences, and the tree's sums are sums of its counts. -/
theorem countsAreOccurrences : Obligations.CountsAreOccurrences := by
  intro s t hc h he
  obtain ⟨hin, rfl⟩ := exec_build_success h he
  obtain ⟨-, hcount, -⟩ := s.inputTable_spec
  obtain ⟨-, ⟨-, -, hcap⟩, -⟩ := hc
  have htotal : FreqTable.total s.inputTable = s.inLen.toNat / s.cfg.symBytes := by
    rw [s.total_inputTable, State.length_inputSymbols]
  have hle := htotal.trans_le ((Nat.div_le_self _ _).trans hin)
  refine ⟨hcount, htotal, hle, hcap, fun tree htree => ?_⟩
  obtain ⟨hentries, hadd, -⟩ := State.tree_builtInput htree
  exact (hadd.exact ((FreqTable.total_perm hentries).trans_lt (hle.trans_lt hcap))).2

/-- Settles O37: the codes are the paths of the tree. -/
theorem codesArePrefixFree : Obligations.CodesArePrefixFree := by
  intro s t _ h he x hx y hy hne hprefix
  obtain ⟨-, rfl⟩ := exec_build_success h he
  change x ∈ s.builtInput.codeTable at hx
  change y ∈ s.builtInput.codeTable at hy
  cases htree : s.builtInput.tree with
  | none =>
    rw [State.codeTable_builtInput_of_none htree] at hx
    cases hx
  | some tree =>
    obtain ⟨-, -, hcodes⟩ := State.tree_builtInput htree
    exact hne (congrArg Prod.fst (CodeTree.paths_prefixFree (hcodes.mem_iff.1 hx) (hcodes.mem_iff.1 hy) hprefix))

end Sys2Proof.Machine
end

section
/-! FREQ and LOOKUP (spec/42_tree_builder.md rules R177 and R178). -/

namespace Sys2Proof.Machine

/-- The symbol in VALUE[W-1:0] (R31). -/
theorem State.symbol_eq (s : State) : s.symbol = BitVec.ofNat 64 (s.value.toNat % 2 ^ s.cfg.w) := by
  refine BitVec.eq_of_toNat_eq ?_
  simp [State.symbol, symbolOf]

/-- The code bits in CODE_W[j], from bit 63 down (R39). -/
theorem getLsbD_codeWord (code : Bits) (j : Nat) {q : Nat} (hq : q < 64) :
    (codeWord code j).getLsbD (63 - q) = code.getD (64 * j + q) false := by
  have hpos : 63 - q < 64 := by omega
  have hbit : 63 - (63 - q) = q := by omega
  rw [codeWord, BitVec.getLsbD_ofNat, testBit_lsbValue]
  simp [List.getD_eq_getElem?_getD, hpos, hbit]

theorem exec_freq_error {s : State} {e : ErrKind} (h : s.freqResult = .error e) :
    exec .freq s = .next { s with freq := 0, partialFlag := false, phase := .idle, done := true, err := some e } := by
  rw [exec, execFreq, complete_error _ _ _ h, failWriteSet_freq, State.finish]

theorem exec_freq_ok {s : State} {n : Count} (h : s.freqResult = .ok n) :
    exec .freq s = .next { s with freq := n, phase := .idle, done := true, err := none } := by
  rw [exec, execFreq, complete_ok _ _ _ h, BitVec.setWidth_eq, State.putReg_freq_eq, State.finish]

/-- Settles O38: without a valid table FREQ fails, else it answers the count of the symbol. -/
theorem freqReadsTheCount : Obligations.FreqReadsTheCount := by
  refine fun s _ => ⟨rfl, ?_⟩
  rw [← s.symbol_eq]
  split_ifs with hv
  · exact exec_freq_error (by rw [State.freqResult, hv]; rfl)
  · exact exec_freq_ok (by rw [State.freqResult, if_pos (by simpa using hv)])

/-- A failed LOOKUP zeroes CODE_LEN and every CODE_W[j] (R178, R281). -/
theorem exec_lookup_error {s : State} {e : ErrKind} (h : s.lookupResult = .error e) :
    ∃ ws : List Word, exec .lookup s = .next { s with
        codeLen := 0, codeW := ws, partialFlag := false, phase := .idle, done := true, err := some e } ∧
      ∀ j, ws.getD j 0 = if j < s.cfg.codeWords then 0 else s.codeW.getD j 0 := by
  refine ⟨_, ?_, getD_foldl_set s.cfg.codeWords s.codeW⟩
  rw [exec, execLookup, complete_error _ _ _ h, failWriteSet_lookup, State.finish]

theorem exec_lookup_ok {s : State} {code : Bits} (h : s.lookupResult = .ok code) :
    exec .lookup s = .next { s with
      codeLen := word code.length, codeW := (List.range s.cfg.codeWords).map (codeWord code),
      phase := .idle, done := true, err := none } := by
  rw [exec, execLookup, complete_ok _ _ _ h, State.putReg_codeLen_eq, State.finish]

/-- Settles O39: without a valid table or a code LOOKUP fails, else CODE_W holds the code. -/
theorem lookupReadsTheCode : Obligations.LookupReadsTheCode := by
  refine fun s _ => ⟨rfl, ?_⟩
  rw [← s.symbol_eq]
  dsimp only
  split_ifs with hv
  · exact exec_lookup_error (by rw [State.lookupResult, hv]; rfl)
  · have hvalid : s.tableValid = true := by simpa using hv
    cases hl : List.lookup s.symbol s.codeTable with
    | none => exact exec_lookup_error (by rw [State.lookupResult, if_pos hvalid, hl])
    | some code =>
      refine ⟨_, by simp, exec_lookup_ok (by rw [State.lookupResult, if_pos hvalid, hl]), fun j q hj hq => ?_⟩
      rw [← getLsbD_codeWord code j hq]
      simp [List.getD_eq_getElem?_getD, hj]

end Sys2Proof.Machine
end

section
/-! Who writes the code table and the frequency table (spec/42_tree_builder.md rule R179, spec/10_state.md rule R45). -/

namespace Sys2Proof.Machine

/-- A code table or a frequency table that is valid in `t` is the one valid in `s`. -/
def State.keepsTables (s t : State) : Prop :=
  (t.tableValid = true → s.tableValid = true ∧ t.codeTable = s.codeTable) ∧
  (t.freqValid = true → s.freqValid = true ∧ t.freqTable = s.freqTable)

theorem State.keepsTables_refl (s : State) : s.keepsTables s := ⟨fun h => ⟨h, rfl⟩, fun h => ⟨h, rfl⟩⟩

/-- A state without a valid table keeps those of any state before it. -/
theorem State.keepsTables_of_invalid {s t : State} (ht : t.tableValid = false) (hf : t.freqValid = false) :
    s.keepsTables t := by
  simp [State.keepsTables, ht, hf]

/-- No command's results but those of BUILD and ENCODE are tables: the others leave them or make them invalid. -/
theorem CommandResult.keepsTables {s u : State} {i : Instr} (h : CommandResult s i u)
    (hi : ¬ (i = .build ∨ i = .encode)) : s.keepsTables u := by
  cases h
  case build | encode => simp at hi
  case deserialize => exact State.keepsTables_of_invalid rfl rfl
  case decode => exact State.keepsTables_of_invalid rfl rfl
  all_goals simp [State.keepsTables]

/-- A failure leaves the tables or makes them invalid (R281). -/
theorem keepsTables_failWriteSet (s : State) (i : Instr) : s.keepsTables (s.failWriteSet i) := by
  refine failWriteSet_induction i s.keepsTables_refl (fun t r ht => ?_) (fun t sp _ ht => ?_) (fun t _ => ?_)
    (fun t ht => ht)
  · simpa [State.keepsTables] using ht
  · simpa [State.keepsTables] using ht
  · exact State.keepsTables_of_invalid rfl rfl

/-- No host transaction, nor the reset input, writes a table. -/
theorem BlockEffect.keepsTables {s t : State} (h : BlockEffect s t) : s.keepsTables t := by
  cases h with
  | cmd w _ => obtain ⟨-, hw⟩ | ⟨-, n, l, d, hw⟩ := writeCmd_cases w s <;> rw [hw] <;> exact s.keepsTables_refl
  | pin level =>
    obtain ⟨asserted, hp⟩ | hp := drivePin_cases level s <;> rw [hp]
    · exact State.keepsTables_of_invalid rfl rfl
    · exact s.keepsTables_refl
  | _ => exact s.keepsTables_refl

/-- A host step writes no table. -/
theorem hostStep_keepsTables {s t : State} (h : hostStep s = .next t) : s.keepsTables t := by
  obtain ⟨p, k, x, d, he⟩ := hostStep_cases h
  exact he.keepsTables

/-- A completion writes no table, unless it is the success of a BUILD or an ENCODE. -/
theorem completeOp_keepsTables {op : Decoded} {s t : State} (h : completeOp op s = .next t) :
    s.keepsTables t ∨ ∃ i, (i = .build ∨ i = .encode) ∧ op = .legal i ∧ exec i s = .next t ∧ t.err = none := by
  cases op with
  | illegal why => cases h; exact .inl s.keepsTables_refl
  | legal i =>
    obtain ⟨u, hu, rfl⟩ | ⟨e, rfl⟩ := exec_result h
    · by_cases hi : i = .build ∨ i = .encode
      · exact .inr ⟨i, hi, rfl, h, rfl⟩
      · exact .inl (hu.keepsTables hi)
    · exact .inl (keepsTables_failWriteSet s i)

/-- Settles O40: a host step writes no table, nor does a completion but the success of a BUILD or an ENCODE. -/
theorem onlyBuildAndEncodeWriteTables : Obligations.OnlyBuildAndEncodeWriteTables := by
  intro s t h
  suffices hstep : s.keepsTables t ∨ ∃ i n, (i = Instr.build ∨ i = Instr.encode) ∧ s.phase = .exec (.legal i) n ∧
      (n = 0 ∨ s.hostDone = true) ∧ exec i s = .next t ∧ t.err = none by
    obtain ⟨hcode, hfreq⟩ | hbuilt := hstep
    · exact ⟨fun hv => .inl (hcode hv), fun hv => .inl (hfreq hv)⟩
    · exact ⟨fun _ => .inr hbuilt, fun _ => .inr hbuilt⟩
  obtain ⟨-, hh⟩ | ⟨op, n, -, hh⟩ | ⟨op, n, hp, hn, hc⟩ := step_cases h
  · exact .inl (hostStep_keepsTables hh)
  · have hkeep := hostStep_keepsTables hh
    exact .inl hkeep
  · obtain hkeep | ⟨i, hi, rfl, hexec, herr⟩ := completeOp_keepsTables hc
    · exact .inl hkeep
    · exact .inr ⟨i, n, hi, hp, hn, hexec, herr⟩

end Sys2Proof.Machine
end

section
/-! Trees in pre-order (spec/43_tree_serdes.md rules R200 to R203): a serialized tree is the bits of its nodes in reading
order, and a list of nodes either is the beginning of an unfinished tree or starts with a whole one. -/

namespace Sys2Proof.Machine

/-! ### A tree's nodes in reading order. -/

/-- The nodes of a tree in reading order, `none` an internal node (R200). -/
def CodeTree.preorder : CodeTree → List (Option Symbol)
  | .leaf s _ => [some s]
  | .node l r _ => none :: (l.preorder ++ r.preorder)

@[simp] theorem CodeTree.length_preorder (t : CodeTree) : t.preorder.length = t.nodes := by
  induction t with
  | leaf s f => rfl
  | node l r f ihl ihr => rw [preorder, List.length_cons, List.length_append, ihl, ihr, nodes]; omega

/-- A serialized tree is its nodes' bits in reading order (R200). -/
theorem CodeTree.ser_eq_flatMap (c : Config) (t : CodeTree) : t.ser c = t.preorder.flatMap (nodeBits c) := by
  induction t with
  | leaf s f => simp [ser, preorder, nodeBits]
  | node l r f ihl ihr => simp [ser, preorder, nodeBits, ihl, ihr]

theorem CodeTree.some_mem_preorder {t : CodeTree} {x : Symbol} : some x ∈ t.preorder ↔ x ∈ t.syms := by
  induction t with
  | leaf s f => simp [preorder, syms]
  | node l r f ihl ihr => simp [preorder, syms, ihl, ihr]

/-- Every node takes at least its tag bit (R200). -/
theorem length_le_length_flatMap_nodeBits (c : Config) (ns : List (Option Symbol)) :
    ns.length ≤ (ns.flatMap (nodeBits c)).length := by
  induction ns with
  | nil => rfl
  | cons n ns ih =>
    have hpos : 1 ≤ (nodeBits c n).length := by cases n <;> simp [nodeBits]
    rw [List.length_cons, List.flatMap_cons, List.length_append]
    omega

@[simp] theorem CodeTree.leaves_shape (t : CodeTree) : t.shape.leaves = t.leaves := by
  induction t with
  | leaf s f => rfl
  | node l r f ihl ihr => rw [shape, leaves, ihl, ihr, leaves]

/-! ### Nodes of unfinished trees. -/

/-- Nodes in reading order that are a beginning of `k + 1` successive trees and do not finish the last of them; with
`k = 0` this is `nodesOpen`. -/
def nodesOpenBy (k : Nat) (ns : List (Option Symbol)) : Prop :=
  ∀ p, p <+: ns → p.countP Option.isSome ≤ p.countP Option.isNone + k

theorem nodesOpen_iff {ns : List (Option Symbol)} : nodesOpen ns ↔ nodesOpenBy 0 ns := Iff.rfl

theorem nodesOpenBy_nil (k : Nat) : nodesOpenBy k [] := by simp [nodesOpenBy]

theorem nodesOpenBy_cons {k : Nat} {n : Option Symbol} {ns : List (Option Symbol)} : nodesOpenBy k (n :: ns) ↔
    ∀ p, p <+: ns → (n :: p).countP Option.isSome ≤ (n :: p).countP Option.isNone + k := by
  constructor
  · exact fun h p hp => h _ (List.cons_prefix_cons.2 ⟨rfl, hp⟩)
  · intro h p hp
    obtain rfl | ⟨q, rfl, hq⟩ := List.prefix_cons_iff.1 hp
    · simp
    · exact h q hq

/-- An internal node begins one tree more. -/
theorem nodesOpenBy_inner {k : Nat} {ns : List (Option Symbol)} :
    nodesOpenBy k (none :: ns) ↔ nodesOpenBy (k + 1) ns :=
  nodesOpenBy_cons.trans (forall₂_congr fun p _ => by simp; omega)

/-- A leaf closes a tree. -/
theorem nodesOpenBy_leaf {k : Nat} {x : Symbol} {ns : List (Option Symbol)} :
    nodesOpenBy (k + 1) (some x :: ns) ↔ nodesOpenBy k ns :=
  nodesOpenBy_cons.trans (forall₂_congr fun p _ => by simp; omega)

/-- A leaf is a whole tree. -/
theorem not_nodesOpen_leaf (x : Symbol) (ns : List (Option Symbol)) : ¬ nodesOpen (some x :: ns) := by
  intro h
  have := h [some x] (by simp)
  simp at this

/-- A whole tree closes exactly one. -/
theorem nodesOpenBy_preorder_append (t : CodeTree) : ∀ {k : Nat} {ns : List (Option Symbol)},
    nodesOpenBy (k + 1) (t.preorder ++ ns) ↔ nodesOpenBy k ns := by
  induction t with
  | leaf s f => exact nodesOpenBy_leaf
  | node l r f ihl ihr =>
    intro k ns
    rw [CodeTree.preorder, List.cons_append, List.append_assoc, nodesOpenBy_inner, ihl, ihr]

/-- An internal node whose left subtree is unfinished begins an unfinished tree. -/
theorem nodesOpen.inner {ns : List (Option Symbol)} (h : nodesOpen ns) : nodesOpen (none :: ns) :=
  nodesOpen_iff.2 (nodesOpenBy_inner.2 fun p hp => (h p hp).trans (Nat.le_add_right _ _))

/-- An internal node whose left subtree is whole begins an unfinished tree exactly when its right subtree is
unfinished. -/
theorem nodesOpen_inner_preorder_append (l : CodeTree) {ns : List (Option Symbol)} :
    nodesOpen (none :: (l.preorder ++ ns)) ↔ nodesOpen ns :=
  (nodesOpenBy_inner (k := 0)).trans (nodesOpenBy_preorder_append l)

/-- A list of nodes is the beginning of an unfinished tree, or starts with a whole tree. -/
theorem nodesOpen_or_preorder_append (ns : List (Option Symbol)) :
    nodesOpen ns ∨ ∃ (t : CodeTree) (ns' : List (Option Symbol)), ns = t.preorder ++ ns' := by
  induction hn : ns.length using Nat.strong_induction_on generalizing ns with
  | _ n ih =>
    subst hn
    match ns with
    | [] => exact .inl (nodesOpenBy_nil 0)
    | some x :: ns => exact .inr ⟨.leaf x 0, ns, rfl⟩
    | none :: ns =>
      obtain hopen | ⟨l, ns, rfl⟩ := ih _ (Nat.lt_succ_self _) ns rfl
      · exact .inl (nodesOpen.inner hopen)
      · obtain hopen | ⟨r, ns, rfl⟩ := ih _ (by simp) ns rfl
        · exact .inl ((nodesOpen_inner_preorder_append l).2 hopen)
        · exact .inr ⟨.node l r 0, ns, by simp [CodeTree.preorder]⟩

/-! ### Reading nodes from a stream. -/

/-- Reading the next node fails when `count` nodes exist and the bits from the cursor on are `rest` (R203). -/
def readingStops (c : Config) (count : Nat) (rest : Bits) (e : ErrKind) : Prop :=
  (e = .malformedTree ∧ (rest = [] ∨ count < c.nodeCap ∧ ∃ r, rest = true :: r ∧ r.length < c.w)) ∨
    (e = .capacity ∧ count = c.nodeCap ∧ rest ≠ [])

theorem treeReadingFails_iff (c : Config) (bits : Bits) (e : ErrKind) : treeReadingFails c bits e ↔
    ∃ (ns : List (Option Symbol)) (rest : Bits), bits = ns.flatMap (nodeBits c) ++ rest ∧ nodesOpen ns ∧
      ns.length ≤ c.nodeCap ∧ readingStops c ns.length rest e := Iff.rfl

/-- Enough bits are those of a `W`-bit symbol and what follows them (R123). -/
theorem exists_bitsOf_append {c : Config} (hw : c.w ≤ 64) {bits : Bits} (h : c.w ≤ bits.length) :
    ∃ (x : Symbol) (rest : Bits), bits = bitsOf c x ++ rest ∧ x.toNat < 2 ^ c.w := by
  have hok := valueOfBits_ok c (bits := bits) (start := 0) (by omega)
  refine ⟨_, bits.drop c.w, ?_, valueOfBits_lt hok⟩
  rw [bitsOf_valueOfBits hw hok, List.drop_zero, List.take_append_drop]

/-- Bits start with a node, a leaf's symbol being a `W`-bit value, or reading the next node from them fails (R203). -/
theorem nodeBits_append_or_readingStops {c : Config} (hw : c.w ≤ 64) {count : Nat} (hcount : count ≤ c.nodeCap)
    (bits : Bits) : (∃ e, readingStops c count bits e) ∨ count < c.nodeCap ∧ ∃ (n : Option Symbol) (rest : Bits),
      bits = nodeBits c n ++ rest ∧ ∀ x, some x = n → x.toNat < 2 ^ c.w := by
  rcases bits with - | ⟨tag, r⟩
  · exact .inl ⟨_, .inl ⟨rfl, .inl rfl⟩⟩
  rcases hcount.eq_or_lt with hfull | hroom
  · exact .inl ⟨_, .inr ⟨rfl, hfull, by simp⟩⟩
  cases tag with
  | false => exact .inr ⟨hroom, none, r, rfl, by simp⟩
  | true =>
    rcases lt_or_ge r.length c.w with hshort | hlong
    · exact .inl ⟨_, .inl ⟨rfl, .inr ⟨hroom, r, rfl, hshort⟩⟩⟩
    · obtain ⟨x, rest, hr, hx⟩ := exists_bitsOf_append hw hlong
      exact .inr ⟨hroom, some x, rest, by simp [nodeBits, hr], by simpa using hx⟩

/-- Every stream starts with nodes of `W`-bit symbols after which reading the next node fails (R203). -/
theorem exists_nodes_then_stop {c : Config} (hw : c.w ≤ 64) (room : Nat) : ∀ {count : Nat} (bits : Bits),
    count + room = c.nodeCap → ∃ (ns : List (Option Symbol)) (rest : Bits) (e : ErrKind),
      bits = ns.flatMap (nodeBits c) ++ rest ∧ ns.length ≤ room ∧ readingStops c (count + ns.length) rest e ∧
      ∀ x, some x ∈ ns → x.toNat < 2 ^ c.w := by
  induction room with
  | zero =>
    intro count bits hroom
    obtain ⟨e, hstop⟩ | ⟨hlt, -⟩ := nodeBits_append_or_readingStops hw (by omega) bits (count := count)
    · exact ⟨[], bits, e, rfl, le_rfl, hstop, by simp⟩
    · omega
  | succ room ih =>
    intro count bits hroom
    obtain ⟨e, hstop⟩ | ⟨-, n, rest, rfl, hn⟩ := nodeBits_append_or_readingStops hw (by omega) bits (count := count)
    · exact ⟨[], bits, e, rfl, Nat.zero_le _, hstop, by simp⟩
    · obtain ⟨ns, rest, e, rfl, hlen, hstop, hns⟩ := ih (count := count + 1) rest (by omega)
      refine ⟨n :: ns, rest, e, by simp, by simpa using hlen, ?_, fun x hx => ?_⟩
      · rwa [List.length_cons, Nat.add_comm ns.length, ← Nat.add_assoc]
      · exact (List.mem_cons.1 hx).elim (hn x) (hns x)

/-- A stream begins with a tree, or reading one fails (R203). -/
theorem holdsTree_or_treeReadingFails {c : Config} (hw : c.w ≤ 64) (bits : Bits) :
    holdsTree c bits ∨ ∃ e, treeReadingFails c bits e := by
  obtain ⟨ns, rest, e, rfl, hlen, hstop, hns⟩ := exists_nodes_then_stop hw c.nodeCap bits (Nat.zero_add _)
  rw [Nat.zero_add] at hstop
  obtain hopen | ⟨t, ns', rfl⟩ := nodesOpen_or_preorder_append ns
  · exact .inr ⟨e, ns, rest, rfl, hopen, hlen, hstop⟩
  · refine .inl ⟨t, ns'.flatMap (nodeBits c) ++ rest, ?_, ?_, fun x hx => ?_⟩
    · rw [t.ser_eq_flatMap, List.flatMap_append, List.append_assoc]
    · rw [List.length_append, t.length_preorder] at hlen
      omega
    · exact hns x (List.mem_append_left _ (CodeTree.some_mem_preorder.2 hx))

end Sys2Proof.Machine
end

section
/-! The serializer and the deserializer (spec/43_tree_serdes.md rules R202, R203 and R205 to R207). -/

namespace Sys2Proof.Machine

/-! ### The bits at the cursor. -/

/-- The bits after those already read. -/
theorem drop_add_of_drop_eq_append {bits l rest : Bits} {cur : Nat} (h : bits.drop cur = l ++ rest) :
    bits.drop (cur + l.length) = rest := by
  rw [← List.drop_drop, h, List.drop_left]

/-- The bit at the cursor. -/
theorem getElem?_of_drop_eq_cons {bits rest : Bits} {b : Bool} {cur : Nat} (h : bits.drop cur = b :: rest) :
    bits[cur]? = some b := by
  rw [← Nat.add_zero cur, ← List.getElem?_drop, h]
  rfl

/-- The bits after the one at the cursor. -/
theorem drop_succ_of_drop_eq_cons {bits rest : Bits} {b : Bool} {cur : Nat} (h : bits.drop cur = b :: rest) :
    bits.drop (cur + 1) = rest :=
  drop_add_of_drop_eq_append (l := [b]) h

/-- How many bits there are after the one at the cursor. -/
theorem length_of_drop_eq_cons {bits rest : Bits} {b : Bool} {cur : Nat} (h : bits.drop cur = b :: rest) :
    bits.length = cur + 1 + rest.length := by
  have hlen := congrArg List.length h
  rw [List.length_drop, List.length_cons] at hlen
  omega

/-- `symbolOf` gives a `W`-bit value (R31). -/
theorem toNat_symbolOf_lt (c : Config) (v : Word) : (symbolOf c v).toNat < 2 ^ c.w := by
  rw [symbolOf, BitVec.toNat_setWidth]
  exact (Nat.mod_le _ _).trans_lt (BitVec.isLt _)

/-- `symbolOf` keeps a `W`-bit value (R31). -/
theorem symbolOf_of_lt {c : Config} {v : Word} (h : v.toNat < 2 ^ c.w) : symbolOf c v = v := by
  refine BitVec.eq_of_toNat_eq ?_
  rw [symbolOf, BitVec.toNat_setWidth, BitVec.toNat_setWidth, Nat.mod_eq_of_lt h, Nat.mod_eq_of_lt v.isLt]

/-- `value_of_bits` reads a symbol from its bits, whatever follows (R123). -/
theorem valueOfBits_of_drop_eq {c : Config} (hw : c.w ≤ 64) {bits rest : Bits} {start : Nat} {x : Symbol}
    (hstart : start ≤ bits.length) (h : bits.drop start = bitsOf c x ++ rest) :
    valueOfBits c bits start = .ok (symbolOf c x) := by
  have hlen := congrArg List.length h
  rw [List.length_drop, List.length_append, length_bitsOf] at hlen
  have hok := valueOfBits_ok c (bits := bits) (start := start) (by omega)
  refine hok.trans (congrArg _ (eq_of_getLsbD_eq_below (valueOfBits_lt hok) (toNat_symbolOf_lt c x) fun p hp => ?_))
  have hbit : bits.getD (start + symbolBit p) false = x.getLsbD p := by
    rw [List.getD_eq_getElem?_getD, ← List.getElem?_drop, h, ← List.getD_eq_getElem?_getD,
      List.getD_append _ _ _ _ ((symbolBit_lt hp).trans_eq (length_bitsOf c x).symm),
      getD_bitsOf c x (symbolBit_lt hp), symbolBit_symbolBit]
  rw [getLsbD_of_valueOfBits c hok (hp.trans_le hw), getLsbD_symbolOf, hbit, decide_eq_true hp,
    decide_eq_true (hp.trans_le hw), Bool.and_self]

/-! ### What `node()` does on the next bits (R203). -/

/-- `node()` on a leaf's bits gives the leaf. -/
theorem deserNode_leaf {c : Config} (hw : c.w ≤ 64) {bits rest : Bits} {cur count : Nat} {x : Symbol} (depth : Nat)
    (h : bits.drop cur = true :: (bitsOf c x ++ rest)) (hroom : count < c.nodeCap) :
    deserNode c bits (depth + 1) cur count = .ok (.leaf (symbolOf c x) 0, cur + 1 + c.w, count + 1) := by
  have hlen := length_of_drop_eq_cons h
  rw [deserNode, getElem?_of_drop_eq_cons h]
  simp only [if_neg hroom.ne, if_true, valueOfBits_of_drop_eq hw (by omega) (drop_succ_of_drop_eq_cons h)]

/-- `node()` on an internal node's tag reads the left subtree, then the right one. -/
theorem deserNode_inner {c : Config} {bits rest : Bits} {cur count : Nat} (depth : Nat)
    (h : bits.drop cur = false :: rest) (hroom : count < c.nodeCap) :
    deserNode c bits (depth + 1) cur count = (deserNode c bits depth (cur + 1) (count + 1) >>= fun l =>
      deserNode c bits depth l.2.1 l.2.2 >>= fun r => .ok (.node l.1 r.1 0, r.2)) := by
  rw [deserNode, getElem?_of_drop_eq_cons h]
  simp only [if_neg hroom.ne, Bool.false_eq_true, if_false]

/-- `node()` on an internal node fails as its left subtree does. -/
theorem deserNode_inner_of_left_error {c : Config} {bits rest : Bits} {depth cur count : Nat} {e : ErrKind}
    (h : bits.drop cur = false :: rest) (hroom : count < c.nodeCap)
    (hl : deserNode c bits depth (cur + 1) (count + 1) = .error e) :
    deserNode c bits (depth + 1) cur count = .error e := by
  rw [deserNode_inner depth h hroom, hl]
  rfl

/-- Once the left subtree is read, `node()` on an internal node reads the right one. -/
theorem deserNode_inner_of_left_ok {c : Config} {bits rest : Bits} {depth cur count curL countL : Nat} {l : CodeTree}
    (h : bits.drop cur = false :: rest) (hroom : count < c.nodeCap)
    (hl : deserNode c bits depth (cur + 1) (count + 1) = .ok (l, curL, countL)) :
    deserNode c bits (depth + 1) cur count =
      (deserNode c bits depth curL countL).map fun r => (.node l r.1 0, r.2) := by
  rw [deserNode_inner depth h hroom, hl]
  change (deserNode c bits depth curL countL >>= _) = _
  cases deserNode c bits depth curL countL <;> rfl

/-- Where reading the next node fails, `node()` does (R203). -/
theorem deserNode_of_readingStops {c : Config} {bits : Bits} {cur count : Nat} {e : ErrKind} (depth : Nat)
    (h : readingStops c count (bits.drop cur) e) : deserNode c bits (depth + 1) cur count = .error e := by
  obtain ⟨rfl, hnil | ⟨hroom, r, hr, hshort⟩⟩ | ⟨rfl, hfull, hne⟩ := h
  · rw [deserNode, List.getElem?_eq_none (List.drop_eq_nil_iff.1 hnil)]
  · have hlen := length_of_drop_eq_cons hr
    rw [deserNode, getElem?_of_drop_eq_cons hr]
    simp only [if_neg hroom.ne, if_true, valueOfBits_error c (bits := bits) (start := cur + 1) (by omega)]
  · obtain ⟨tag, r, hr⟩ := List.exists_cons_of_ne_nil hne
    rw [deserNode, getElem?_of_drop_eq_cons hr]
    simp only [if_pos hfull]

/-! ### What `node()` does on a whole tree and on an unfinished one (R203). -/

/-- The tree as a stream carries it: its leaves' symbols cut to `W` bits, its frequencies 0. -/
def CodeTree.carried (c : Config) : CodeTree → CodeTree
  | .leaf s _ => .leaf (symbolOf c s) 0
  | .node l r _ => .node (l.carried c) (r.carried c) 0

/-- A stream carries the shape and symbols of a tree of `W`-bit symbols (R207). -/
theorem CodeTree.carried_of_symsFit {c : Config} {t : CodeTree} (h : t.symsFit c) : t.carried c = t.shape := by
  induction t with
  | leaf s f => rw [carried, symbolOf_of_lt (h s (by simp [syms])), shape]
  | node l r f ihl ihr =>
    rw [carried, shape, ihl fun x hx => h x (List.mem_append_left _ hx), ihr fun x hx => h x (List.mem_append_right _ hx)]

/-- `node()` on a serialized tree for which there is room gives the tree, whatever follows. -/
theorem deserNode_ser {c : Config} (hw : c.w ≤ 64) {bits : Bits} (t : CodeTree) : ∀ {depth cur count : Nat}
    {rest : Bits}, bits.drop cur = t.ser c ++ rest → t.nodes ≤ depth → count + t.nodes ≤ c.nodeCap →
    deserNode c bits depth cur count = .ok (t.carried c, cur + (t.ser c).length, count + t.nodes) := by
  induction t with
  | leaf s f =>
    intro depth cur count rest h hdepth hroom
    obtain ⟨depth, rfl⟩ := Nat.exists_eq_add_of_le' hdepth
    rw [CodeTree.nodes] at hroom ⊢
    rw [deserNode_leaf hw depth h hroom, CodeTree.ser, List.length_cons, length_bitsOf, CodeTree.carried, Nat.add_assoc,
      Nat.add_comm 1]
  | node l r f ihl ihr =>
    intro depth cur count rest h hdepth hroom
    rw [CodeTree.nodes] at hdepth hroom
    obtain ⟨depth, rfl⟩ := Nat.exists_eq_add_of_le' (show 1 ≤ depth by omega)
    rw [CodeTree.ser, List.cons_append, List.append_assoc] at h
    have hl := drop_succ_of_drop_eq_cons h
    have hr := drop_add_of_drop_eq_append hl
    rw [deserNode_inner_of_left_ok h (by omega) (ihl hl (by omega) (by omega)), ihr hr (by omega) (by omega)]
    refine congrArg Except.ok (Prod.ext rfl (Prod.ext ?_ ?_))
    · simp [CodeTree.ser]; omega
    · simp [CodeTree.nodes]; omega

/-- `node()` on an unfinished tree fails as reading its next node does. -/
theorem deserNode_of_nodesOpen {c : Config} (hw : c.w ≤ 64) {bits rest : Bits} {e : ErrKind} (depth : Nat) :
    ∀ {cur count : Nat} {ns : List (Option Symbol)}, bits.drop cur = ns.flatMap (nodeBits c) ++ rest → nodesOpen ns →
    count + ns.length ≤ c.nodeCap → readingStops c (count + ns.length) rest e → ns.length < depth →
    deserNode c bits depth cur count = .error e := by
  induction depth with
  | zero => intro cur count ns h hopen hroom hstop hdepth; omega
  | succ depth ih =>
    intro cur count ns h hopen hroom hstop hdepth
    match ns with
    | [] => exact deserNode_of_readingStops depth (by rw [h]; exact hstop)
    | some x :: ns => exact absurd hopen (not_nodesOpen_leaf x ns)
    | none :: ns =>
      rw [List.length_cons] at hroom hstop hdepth
      obtain hopen' | ⟨l, ns, rfl⟩ := nodesOpen_or_preorder_append ns
      · have hcount : count + 1 + ns.length = count + (ns.length + 1) := by omega
        exact deserNode_inner_of_left_error h (by omega)
          (ih (drop_succ_of_drop_eq_cons h) hopen' (hcount ▸ hroom) (hcount ▸ hstop) (by omega))
      · rw [List.length_append, l.length_preorder] at hroom hstop hdepth
        have hcount : count + 1 + l.nodes + ns.length = count + (l.nodes + ns.length + 1) := by omega
        have hleft : bits.drop (cur + 1) = l.ser c ++ (ns.flatMap (nodeBits c) ++ rest) := by
          rw [l.ser_eq_flatMap, ← List.append_assoc, ← List.flatMap_append]
          exact drop_succ_of_drop_eq_cons h
        rw [deserNode_inner_of_left_ok h (by omega) (deserNode_ser hw l hleft (by omega) (by omega)),
          ih (drop_add_of_drop_eq_append hleft) ((nodesOpen_inner_preorder_append l).1 hopen) (hcount ▸ hroom)
            (hcount ▸ hstop) (by omega)]
        rfl

/-! ### `deser` (R203, R207). -/

/-- `deser` on a stream that begins with a tree gives that tree and takes exactly its bits. -/
theorem deser_of_drop_eq_ser {c : Config} (hw : c.w ≤ 64) {bits rest : Bits} {start : Nat} {t : CodeTree}
    (h : bits.drop start = t.ser c ++ rest) (hnodes : t.nodes ≤ c.nodeCap) (hfit : t.symsFit c) :
    deser c bits start = .ok (t.shape, (t.ser c).length) := by
  have hlen := congrArg List.length h
  have hdepth := length_le_length_flatMap_nodeBits c t.preorder
  rw [List.length_drop, List.length_append] at hlen
  rw [← t.ser_eq_flatMap, t.length_preorder] at hdepth
  rw [deser, deserNode_ser hw t h (by omega) (by omega), CodeTree.carried_of_symsFit hfit]
  exact congrArg (fun n => Except.ok (t.shape, n)) (Nat.add_sub_cancel_left _ _)

/-- `deser` on a stream that holds no tree fails as R203 says. -/
theorem deser_of_treeReadingFails {c : Config} (hw : c.w ≤ 64) {bits : Bits} {start : Nat} {e : ErrKind}
    (h : treeReadingFails c (bits.drop start) e) : deser c bits start = .error e := by
  obtain ⟨ns, rest, hbits, hopen, hroom, hstop⟩ := (treeReadingFails_iff _ _ _).1 h
  have hlen := congrArg List.length hbits
  have hdepth := length_le_length_flatMap_nodeBits c ns
  rw [List.length_drop, List.length_append] at hlen
  rw [← Nat.zero_add ns.length] at hroom hstop
  rw [deser, deserNode_of_nodesOpen hw _ hbits hopen hroom hstop (by omega)]
  rfl

/-- No tag bit is left at the end of a stream. -/
theorem treeReadingFails_nil (c : Config) : treeReadingFails c [] .malformedTree :=
  (treeReadingFails_iff _ _ _).2 ⟨[], [], rfl, nodesOpenBy_nil 0, Nat.zero_le _, .inl ⟨rfl, .inl rfl⟩⟩

/-! ### The checks and results of SERIALIZE and DESERIALIZE (R205, R206). -/

theorem deserializeResult_overCapacity {s : State} (h : s.cfg.bitCap < s.bitLen.toNat) :
    s.deserializeResult = .error .capacity := by
  rw [State.deserializeResult, checkBitLen_error h]
  rfl

theorem deserializeResult_eq {s : State} (h : s.bitLen.toNat ≤ s.cfg.bitCap) :
    s.deserializeResult = deser s.cfg s.bitsSeq s.start.toNat := by
  rw [State.deserializeResult, checkBitLen_ok h]
  rfl

theorem exec_serialize_error {s : State} {e : ErrKind} (h : s.serializeResult = .error e) :
    exec .serialize s = .next { s with
      bitLen := 0, treeBits := 0, bitsBuf := Buffer.unwritten s.draws, draws := s.draws + 1, partialFlag := false,
      phase := .idle, done := true, err := some e } := by
  rw [exec, execSerialize, complete_error _ _ _ h, failWriteSet_serialize, State.finish]

theorem exec_serialize_ok {s : State} {bits : Bits} (h : s.serializeResult = .ok bits) :
    exec .serialize s = .next { s with
      bitsBuf := s.bitsBuf.writeBytes 0 (pack bits), bitLen := word bits.length, treeBits := word bits.length,
      phase := .idle, done := true, err := none } := by
  rw [exec, execSerialize, complete_ok _ _ _ h, State.putReg_bitLen_eq, State.putReg_treeBits_eq, State.putBits,
    State.finish]

theorem exec_deserialize_error {s : State} {e : ErrKind} (h : s.deserializeResult = .error e) :
    exec .deserialize s = .next { s with
      distinct := 0, treeBits := 0, freqValid := false, tableValid := false, treeValid := false, treeEmpty := false,
      partialFlag := false, phase := .idle, done := true, err := some e } := by
  rw [exec, execDeserialize, complete_error _ _ _ h, failWriteSet_deserialize, State.finish]

theorem exec_deserialize_ok {s : State} {t : CodeTree} {k : Nat} (h : s.deserializeResult = .ok (t, k)) :
    exec .deserialize s = .next { s with
      tree := some t, distinct := word t.leaves, treeBits := word k, freqValid := false, tableValid := false,
      treeValid := true, treeEmpty := false, phase := .idle, done := true, err := none } := by
  rw [exec, execDeserialize, complete_ok _ _ _ h]
  simp only [State.putReg_distinct_eq, State.putReg_treeBits_eq, State.treeRebuilt, State.finish]

/-- A stream without a tree makes DESERIALIZE fail as R203 says. -/
theorem exec_deserialize_of_treeReadingFails {s : State} {e : ErrKind} (hc : s.cfg.wf)
    (hlen : s.bitLen.toNat ≤ s.cfg.bitCap) (h : treeReadingFails s.cfg (s.bitsSeq.drop s.start.toNat) e) :
    exec .deserialize s = .next { s with
      distinct := 0, treeBits := 0, freqValid := false, tableValid := false, treeValid := false, treeEmpty := false,
      partialFlag := false, phase := .idle, done := true, err := some e } :=
  exec_deserialize_error ((deserializeResult_eq hlen).trans (deser_of_treeReadingFails (w_le_of_wf hc) h))

/-! ### The statements. -/

/-- A tree takes a tag bit for every node and `W` symbol bits for every leaf (R202). -/
theorem CodeTree.length_ser (c : Config) (t : CodeTree) : (t.ser c).length = t.nodes + t.leaves * c.w := by
  induction t with
  | leaf s f => rw [ser, List.length_cons, length_bitsOf, nodes, leaves, Nat.one_mul, Nat.add_comm]
  | node l r f ihl ihr =>
    rw [ser, List.length_cons, List.length_append, ihl, ihr, nodes, leaves, Nat.add_mul]
    omega

/-- Settles O41: a tag bit for every node of a full binary tree, and `W` symbol bits for every leaf. -/
theorem serializedTreeLength : Obligations.SerializedTreeLength := by
  intro c t
  have hnodes : t.nodes = 2 * t.leaves - 1 := Nat.eq_sub_of_add_eq t.nodes_add_one
  exact ⟨hnodes, hnodes ▸ t.length_ser c⟩

/-- Settles O42: the two checks in their order, then BITS holds the bits of the serialized tree. -/
theorem serializeWritesTheTree : Obligations.SerializeWritesTheTree := by
  refine fun s _ => ⟨rfl, ?_⟩
  dsimp only
  split_ifs with hinvalid hlong
  · exact exec_serialize_error (by rw [State.serializeResult, hinvalid]; rfl)
  all_goals have hvalid : s.treeValid = true := by simpa using hinvalid
  · exact exec_serialize_error (by rw [State.serializeResult, if_pos hvalid, if_pos hlong])
  · refine ⟨_, exec_serialize_ok (by rw [State.serializeResult, if_pos hvalid, if_neg hlong]), fun i hi => ?_,
      fun i hi hpad => ?_, fun a ha => Buffer.byte_writeBits_above _ _ ha⟩
    · rw [Buffer.bit_writeBits, if_pos (hi.trans_le (le_mul_ceilDiv _))]
    · rw [Buffer.bit_writeBits, if_pos hpad, List.getD_eq_default _ _ hi]

/-- Settles O43: `deser` reads the tree at bit 0. -/
theorem treeRoundTrip : Obligations.TreeRoundTrip := fun _ _ _ hc hnodes hfit =>
  deser_of_drop_eq_ser (w_le_of_wf hc) (List.drop_zero ..) hnodes hfit

/-- Settles O44: `deser` reads the tree at START. -/
theorem deserializeRebuildsTheTree : Obligations.DeserializeRebuildsTheTree := by
  intro s t rest hc hlen hbits hnodes hfit
  have hok := (deserializeResult_eq hlen).trans (deser_of_drop_eq_ser (w_le_of_wf hc) hbits hnodes hfit)
  have hexec := exec_deserialize_ok hok
  rwa [t.leaves_shape] at hexec

/-- Settles O45: the check of BIT_LEN, then `deser` fails as R203 says on every stream without a tree. -/
theorem deserializeFailsWithoutATree : Obligations.DeserializeFailsWithoutATree := by
  refine fun s hc => ⟨fun hlong => exec_deserialize_error (deserializeResult_overCapacity hlong), fun hlen hend => ?_,
    fun hlen => ⟨fun e he => exec_deserialize_of_treeReadingFails hc hlen he, fun hnone => ?_⟩⟩
  · have hnil : s.bitsSeq.drop s.start.toNat = [] := List.drop_eq_nil_of_le (by rwa [length_bitsSeq])
    exact exec_deserialize_of_treeReadingFails hc hlen (hnil ▸ treeReadingFails_nil s.cfg)
  · obtain ⟨e, he⟩ := (holdsTree_or_treeReadingFails (w_le_of_wf hc) _).resolve_left hnone
    exact ⟨e, he, exec_deserialize_of_treeReadingFails hc hlen he⟩

end Sys2Proof.Machine
end

section
/-! The walk down a tree (spec/44_stream_codec.md rules R240 to R243 and R249): every payload is codes of the tree and a
rest, and the walk emits the codes' symbols one by one. -/

namespace Sys2Proof.Machine

/-! ### Paths, bit by bit. -/

/-- Below an internal node a path starts with the bit of the child it goes on in (R240). -/
theorem CodeTree.mem_paths_node {l r : CodeTree} {f : Count} {x : Symbol} {bits : Bits} :
    (x, bits) ∈ (CodeTree.node l r f).paths ↔
      ∃ b code, bits = b :: code ∧ (x, code) ∈ ((CodeTree.node l r f).child b).paths := by
  simp [CodeTree.paths, CodeTree.child, and_comm, eq_comm]

/-- The only path of a leaf is the empty one (R240). -/
theorem CodeTree.mem_paths_leaf {x y : Symbol} {f : Count} {bits : Bits} :
    (y, bits) ∈ (CodeTree.leaf x f).paths ↔ y = x ∧ bits = [] := by simp [CodeTree.paths]

theorem CodeTree.exists_mem_paths (t : CodeTree) : ∃ e, e ∈ t.paths := by
  induction t with
  | leaf x f => exact ⟨(x, []), CodeTree.mem_paths_leaf.2 ⟨rfl, rfl⟩⟩
  | node l r f ihl _ =>
    obtain ⟨e, he⟩ := ihl
    exact ⟨(e.1, false :: e.2), CodeTree.mem_paths_node.2 ⟨false, e.2, rfl, he⟩⟩

/-- A tree's frequencies play no part in its paths. -/
@[simp] theorem CodeTree.paths_shape (t : CodeTree) : t.shape.paths = t.paths := by
  induction t with
  | leaf x f => rfl
  | node l r f ihl ihr => rw [shape, paths, ihl, ihr, paths]

/-- Bits start with a path of the tree, or are a proper beginning of one. -/
theorem CodeTree.starts_with_path_or_partial (bits : Bits) : ∀ t : CodeTree,
    (∃ e ∈ t.paths, e.2 <+: bits) ∨ ∃ e ∈ t.paths, bits <+: e.2 ∧ bits ≠ e.2 := by
  induction bits with
  | nil =>
    rintro (⟨x, f⟩ | ⟨l, r, f⟩)
    · exact .inl ⟨(x, []), CodeTree.mem_paths_leaf.2 ⟨rfl, rfl⟩, List.nil_prefix⟩
    · obtain ⟨e, he⟩ := (CodeTree.node l r f).exists_mem_paths
      obtain ⟨b, code, hcode, -⟩ := CodeTree.mem_paths_node.1 he
      exact .inr ⟨e, he, List.nil_prefix, by rw [hcode]; simp⟩
  | cons b bits ih =>
    rintro (⟨x, f⟩ | ⟨l, r, f⟩)
    · exact .inl ⟨(x, []), CodeTree.mem_paths_leaf.2 ⟨rfl, rfl⟩, List.nil_prefix⟩
    · obtain ⟨e, he, hp⟩ | ⟨e, he, hp, hne⟩ := ih ((CodeTree.node l r f).child b)
      · exact .inl ⟨(e.1, b :: e.2), CodeTree.mem_paths_node.2 ⟨b, e.2, rfl, he⟩, (List.prefix_cons_inj b).2 hp⟩
      · exact .inr ⟨(e.1, b :: e.2), CodeTree.mem_paths_node.2 ⟨b, e.2, rfl, he⟩, (List.prefix_cons_inj b).2 hp,
          by simpa using hne⟩

/-- Every payload is codes of the tree, then nothing or a partial code (R240, R242). -/
theorem CodeTree.exists_codes_append (l r : CodeTree) (f : Count) (payload : Bits) :
    ∃ (codes : List (Symbol × Bits)) (dangling : Bits), payload = codes.flatMap Prod.snd ++ dangling ∧
      (∀ e ∈ codes, e ∈ (CodeTree.node l r f).paths) ∧
      (dangling = [] ∨ (CodeTree.node l r f).partialCode dangling) := by
  induction hn : payload.length using Nat.strong_induction_on generalizing payload with
  | _ n ih =>
    subst hn
    obtain ⟨e, he, rest, rfl⟩ | hpart := (CodeTree.node l r f).starts_with_path_or_partial payload
    · obtain ⟨b, code, hcode, -⟩ := CodeTree.mem_paths_node.1 he
      have hshort : rest.length < (e.2 ++ rest).length := by rw [hcode]; simp
      obtain ⟨codes, dangling, rfl, hcodes, hrest⟩ := ih _ hshort rest rfl
      exact ⟨e :: codes, dangling, by simp, List.forall_mem_cons.2 ⟨he, hcodes⟩, hrest⟩
    · exact ⟨[], payload, rfl, by simp, or_iff_not_imp_left.2 fun hne => ⟨hne, hpart⟩⟩

/-! ### The walk (R240). -/

section Walk

variable {c : Config} {acceptTrunc : Bool} {root node : CodeTree} {rest : Bits} {d : Nat} {out : List Symbol}

/-- A bit that leads to a leaf: its symbol is emitted and the walk is back at the root. -/
theorem walk_leaf {b : Bool} {x : Symbol} {f : Count} (h : node.child b = .leaf x f) :
    walk c acceptTrunc root (b :: rest) node d out =
      (emit c out x >>= fun out => walk c acceptTrunc root rest root 0 out) := by
  rw [walk, h]

/-- A bit that leads to an internal node: the walk goes on from there. -/
theorem walk_inner {b : Bool} {l r : CodeTree} {f : Count} (h : node.child b = .node l r f) :
    walk c acceptTrunc root (b :: rest) node d out = walk c acceptTrunc root rest (.node l r f) (d + 1) out := by
  rw [walk, h]

/-- From an internal node the bits of a path to a leaf emit its symbol (R240). -/
theorem walk_path {l r : CodeTree} {f : Count} {x : Symbol} {code : Bits}
    (h : (x, code) ∈ (CodeTree.node l r f).paths) :
    walk c acceptTrunc root (code ++ rest) (.node l r f) d out =
      (emit c out x >>= fun out => walk c acceptTrunc root rest root 0 out) := by
  induction code generalizing l r f d with
  | nil => simp [CodeTree.mem_paths_node] at h
  | cons b code ih =>
    obtain ⟨_, _, ⟨⟩, h⟩ := CodeTree.mem_paths_node.1 h
    cases hchild : (CodeTree.node l r f).child b with
    | leaf y g =>
      rw [hchild] at h
      obtain ⟨rfl, rfl⟩ := CodeTree.mem_paths_leaf.1 h
      exact walk_leaf hchild
    | node l' r' f' => exact (walk_inner hchild).trans (ih (hchild ▸ h))

/-- The end of the bits inside a code: the partial code is dropped if the host opted in, else it is a truncation (R242,
R243). -/
theorem walk_partial_path {l r : CodeTree} {f : Count} {x : Symbol} {code bits : Bits}
    (h : (x, code) ∈ (CodeTree.node l r f).paths) (hprefix : bits <+: code) (hne : bits ≠ code)
    (hd : 0 < d + bits.length) :
    walk c acceptTrunc root bits (.node l r f) d out =
      if acceptTrunc then .ok (out, true) else .error .truncatedPayload := by
  induction bits generalizing l r f d code with
  | nil => rw [walk, if_neg (show ¬ d = 0 from Nat.pos_iff_ne_zero.1 hd)]
  | cons b bits ih =>
    obtain ⟨_, rest, rfl, hrest⟩ := CodeTree.mem_paths_node.1 h
    obtain ⟨rfl, hbits⟩ := List.cons_prefix_cons.1 hprefix
    have hproper : bits ≠ rest := fun he => hne (he ▸ rfl)
    cases hchild : (CodeTree.node l r f).child b with
    | leaf y g =>
      rw [hchild] at hrest
      obtain ⟨-, rfl⟩ := CodeTree.mem_paths_leaf.1 hrest
      exact absurd (List.prefix_nil.1 hbits) hproper
    | node l' r' f' => exact (walk_inner hchild).trans (ih (hchild ▸ hrest) hbits hproper (by omega))

/-- The end of a walk at the root: a partial code is left or nothing is (R241 to R243). -/
theorem walk_dangling {l r : CodeTree} {f : Count} {dangling : Bits}
    (h : dangling = [] ∨ (CodeTree.node l r f).partialCode dangling) :
    walk c acceptTrunc root dangling (.node l r f) 0 out =
      if dangling ≠ [] ∧ acceptTrunc = false then .error .truncatedPayload
      else .ok (out, decide (dangling ≠ [])) := by
  obtain rfl | ⟨hne, e, he, hprefix, hproper⟩ := h
  · rfl
  · rw [walk_partial_path he hprefix hproper (by simpa using List.length_pos_iff.2 hne)]
    cases acceptTrunc <;> simp [hne]

/-- The codes of a tree emit their symbols in order, and fail when these do not all fit (R240, R249). -/
theorem walk_codes {l r : CodeTree} {f : Count} {codes : List (Symbol × Bits)}
    (h : ∀ e ∈ codes, e ∈ (CodeTree.node l r f).paths) (hout : out.length * c.symBytes ≤ c.outCap) :
    walk c acceptTrunc (.node l r f) (codes.flatMap Prod.snd ++ rest) (.node l r f) 0 out =
      if (out.length + codes.length) * c.symBytes > c.outCap then .error .capacity
      else walk c acceptTrunc (.node l r f) rest (.node l r f) 0 (out ++ codes.map Prod.fst) := by
  induction codes generalizing out with
  | nil => simp [Nat.not_lt.2 hout]
  | cons e codes ih =>
    obtain ⟨he, h⟩ := List.forall_mem_cons.1 h
    rw [List.flatMap_cons, List.append_assoc, walk_path he]
    have hcount : out.length + (e :: codes).length = (out ++ [e.1]).length + codes.length := by simp; omega
    obtain ⟨hfull, hemit⟩ | ⟨hfit, hemit⟩ := emit_cases c out e.1
    · have : (out.length + 1) * c.symBytes ≤ (out.length + (e :: codes).length) * c.symBytes :=
        Nat.mul_le_mul_right _ (by simp)
      rw [hemit, if_pos (by omega)]
      rfl
    · rw [hemit, hcount]
      exact (ih h (by simpa using hfit)).trans (by simp)

end Walk

end Sys2Proof.Machine
end

section
/-! DECODE (spec/44_stream_codec.md rules R244 to R249 and R251): what it makes of a stream with and without a tree. -/

namespace Sys2Proof.Machine

/-! ### The payload after a tree (R244, R251). -/

/-- A single leaf's symbol is emitted EXP_COUNT times, where the symbols fit (R244, R245). -/
theorem decodePayload_leaf (c : Config) (bits : Bits) (expCount : Nat) (acceptTrunc : Bool) (x : Symbol) (f : Count)
    (k : Nat) : decodePayload c bits expCount acceptTrunc (.leaf x f) k =
      if expCount * c.symBytes > c.outCap then .error .capacity
      else .ok
        { tree := some (.leaf x f), k := k, out := List.replicate expCount x, used := 0, part := false } := by
  rw [decodePayload, emitRepeat_eq c x expCount (by simp), List.length_nil, Nat.zero_add, List.nil_append]
  split_ifs <;> rfl

/-- After a tree of two leaves or more, codes of it and a rest: the codes' symbols, or the first check that fails in
stream order (R240 to R243, R247, R249). -/
theorem decodePayload_codes {c : Config} {bits : Bits} {k : Nat} {l r : CodeTree} {f : Count}
    {codes : List (Symbol × Bits)} {dangling : Bits} (expCount : Nat) (acceptTrunc : Bool)
    (hcodes : ∀ e ∈ codes, e ∈ (CodeTree.node l r f).paths)
    (hrest : dangling = [] ∨ (CodeTree.node l r f).partialCode dangling)
    (hbits : bits.drop k = codes.flatMap Prod.snd ++ dangling) :
    decodePayload c bits expCount acceptTrunc (.node l r f) k =
      if codes.length * c.symBytes > c.outCap then .error .capacity
      else if dangling ≠ [] ∧ acceptTrunc = false then .error .truncatedPayload
      else .ok
        { tree := some (.node l r f), k := k, out := codes.map Prod.fst,
          used := (codes.flatMap Prod.snd ++ dangling).length, part := decide (dangling ≠ []) } := by
  rw [decodePayload, hbits, walk_codes hcodes (by simp), walk_dangling hrest, ← hbits, List.length_drop,
    List.length_nil, Nat.zero_add, List.nil_append]
  split_ifs <;> rfl

/-! ### A stream (R246, R251). -/

/-- The empty stream decodes to no symbol (R246). -/
theorem decodeFrom_nil (c : Config) (acceptTrunc : Bool) :
    decodeFrom c [] 0 acceptTrunc = .ok { tree := none, k := 0, out := [], used := 0, part := false } := rfl

/-- The empty stream is no tree when symbols are expected (R246). -/
theorem decodeFrom_nil_error (c : Config) {expCount : Nat} (acceptTrunc : Bool) (h : expCount ≠ 0) :
    decodeFrom c [] expCount acceptTrunc = .error .malformedTree := if_pos h

/-- DECODE of a stream that begins with a tree is that of the payload after the tree, as the stream carries it. -/
theorem decodeFrom_of_eq_ser {c : Config} (hw : c.w ≤ 64) {bits payload : Bits} {t : CodeTree} (expCount : Nat)
    (acceptTrunc : Bool) (h : bits = t.ser c ++ payload) (hnodes : t.nodes ≤ c.nodeCap) (hfit : t.symsFit c) :
    decodeFrom c bits expCount acceptTrunc =
      decodePayload c bits expCount acceptTrunc t.shape (t.ser c).length := by
  have hpos : ¬ bits.length = 0 := by
    rw [h, List.length_append]
    cases t <;> simp [CodeTree.ser]
  rw [decodeFrom, if_neg hpos, deser_of_drop_eq_ser hw (by rw [List.drop_zero, h]) hnodes hfit]
  rfl

/-- A stream with a first check of R203 that fails fails DECODE with it. -/
theorem decodeFrom_of_treeReadingFails {c : Config} (hw : c.w ≤ 64) {bits : Bits} {e : ErrKind} (expCount : Nat)
    (acceptTrunc : Bool) (hne : bits ≠ []) (h : treeReadingFails c bits e) :
    decodeFrom c bits expCount acceptTrunc = .error e := by
  rw [decodeFrom, if_neg (mt List.length_eq_zero_iff.1 hne), deser_of_treeReadingFails hw (start := 0) h]
  rfl

/-! ### The checks and results of DECODE (R251). -/

theorem decodeResult_overCapacity {s : State} (h : s.cfg.bitCap < s.bitLen.toNat) :
    s.decodeResult = .error .capacity := by
  rw [State.decodeResult, checkBitLen_error h]
  rfl

theorem decodeResult_eq {s : State} (h : s.bitLen.toNat ≤ s.cfg.bitCap) :
    s.decodeResult = decodeFrom s.cfg s.bitsSeq s.expCount.toNat s.acceptTrunc := by
  rw [State.decodeResult, checkBitLen_ok h]
  rfl

theorem State.bitsSeq_eq_nil_iff (s : State) : s.bitsSeq = [] ↔ s.bitLen = 0 := by
  rw [← List.length_eq_zero_iff, length_bitsSeq]
  exact BitVec.toNat_inj (y := 0)

theorem decodeResult_empty {s : State} (h : s.bitLen = 0) :
    s.decodeResult = decodeFrom s.cfg [] s.expCount.toNat s.acceptTrunc := by
  rw [decodeResult_eq (by simp [h]), s.bitsSeq_eq_nil_iff.2 h]

theorem exec_decode_error {s : State} {e : ErrKind} (h : s.decodeResult = .error e) :
    exec .decode s = .next { s with
      symCount := 0, distinct := 0, treeBits := 0, payloadBits := 0, outLen := 0,
      outBuf := Buffer.unwritten s.draws, draws := s.draws + 1, freqValid := false, tableValid := false,
      treeValid := false, treeEmpty := false, partialFlag := false, phase := .idle, done := true, err := some e } := by
  rw [exec, execDecode, complete_error _ _ _ h, failWriteSet_decode, State.finish]

theorem exec_decode_ok {s : State} {d : DecodedStream} (h : s.decodeResult = .ok d) :
    exec .decode s = .next { s with
      tree := d.tree, symCount := word d.out.length, distinct := word (treeLeaves d.tree), treeBits := word d.k,
      payloadBits := word d.used, outLen := word (d.out.length * s.cfg.symBytes),
      outBuf := s.outBuf.writeBytes 0 (d.out.flatMap (bytesOf s.cfg)), freqValid := false, tableValid := false,
      treeValid := true, treeEmpty := d.tree.isNone, partialFlag := d.part, phase := .idle, done := true,
      err := none } := by
  rw [exec, execDecode, complete_ok _ _ _ h]
  simp only [State.putDecoded, State.treeRebuilt, State.putOut, State.putReg_outLen_eq, State.putReg_symCount_eq,
    State.putReg_distinct_eq, State.putReg_treeBits_eq, State.putReg_payloadBits_eq, State.finish]

/-! ### The symbols in OUT (R249). -/

/-- Byte k of symbol i of a sequence (R249). -/
theorem getD_flatMap_bytesOf (c : Config) (syms : List Symbol) : ∀ {i k : Nat}, i < syms.length → k < c.symBytes →
    (syms.flatMap (bytesOf c)).getD (i * c.symBytes + k) 0 = (syms.getD i 0).extractLsb' (8 * k) 8 := by
  induction syms with
  | nil => simp
  | cons x syms ih =>
    intro i k hi hk
    rw [List.flatMap_cons]
    cases i with
    | zero => rw [Nat.zero_mul, Nat.zero_add, List.getD_append _ _ _ _ (by simpa), getD_bytesOf c x hk,
        List.getD_cons_zero]
    | succ i =>
      have hoff : (i + 1) * c.symBytes + k = (bytesOf c x).length + (i * c.symBytes + k) := by
        rw [length_bytesOf, Nat.add_mul]
        omega
      rw [hoff, List.getD_append_right _ _ _ _ (Nat.le_add_right _ _), Nat.add_sub_cancel_left, List.getD_cons_succ,
        ih (by simpa using hi) hk]

/-- Byte k of symbol i after a symbol sequence is written to a buffer from offset 0 (R249). -/
theorem Buffer.byte_writeSymbols (b : Buffer) (c : Config) {syms : List Symbol} {i k : Nat} (hi : i < syms.length)
    (hk : k < c.symBytes) :
    (b.writeBytes 0 (syms.flatMap (bytesOf c))).byte (i * c.symBytes + k) =
      (syms.getD i 0).extractLsb' (8 * k) 8 := by
  have hin : i * c.symBytes + k < (syms.flatMap (bytesOf c)).length := by
    have := Nat.mul_le_mul_right c.symBytes hi
    rw [Nat.succ_mul] at this
    rw [length_flatMap_bytesOf]
    omega
  rw [Buffer.byte_writeBytes_zero, if_pos hin, getD_flatMap_bytesOf c syms hi hk]

/-- A byte above a symbol sequence written from offset 0 keeps its value. -/
theorem Buffer.byte_writeSymbols_above (b : Buffer) (c : Config) {syms : List Symbol} {a : Nat}
    (h : syms.length * c.symBytes ≤ a) : (b.writeBytes 0 (syms.flatMap (bytesOf c))).byte a = b.byte a := by
  rw [Buffer.byte_writeBytes_zero, length_flatMap_bytesOf, if_neg (Nat.not_lt.2 h)]

/-! ### The statements. -/

/-- Settles O47: the check of BIT_LEN, the empty stream's case, then `deser` fails as R203 says on every stream without
a tree. -/
theorem decodeOfEmptyOrOverlongStream : Obligations.DecodeOfEmptyOrOverlongStream := by
  refine fun s hc => ⟨rfl, fun hlong => exec_decode_error (decodeResult_overCapacity hlong), fun hempty hexp => ?_,
    fun hempty hexp => ?_, fun hlen hne => ?_⟩
  · have hcount : s.expCount.toNat ≠ 0 := fun h => hexp (BitVec.eq_of_toNat_eq h)
    exact exec_decode_error ((decodeResult_empty hempty).trans (decodeFrom_nil_error _ _ hcount))
  · have hresult := decodeResult_empty hempty
    rw [hexp] at hresult
    have hexec := exec_decode_ok (hresult.trans (decodeFrom_nil _ _))
    rwa [List.length_nil, Nat.zero_mul] at hexec
  · have hbits : s.bitsSeq ≠ [] := mt s.bitsSeq_eq_nil_iff.1 hne
    have hfail : ∀ e, treeReadingFails s.cfg s.bitsSeq e → s.decodeResult = .error e := fun e he =>
      (decodeResult_eq hlen).trans (decodeFrom_of_treeReadingFails (w_le_of_wf hc) _ _ hbits he)
    refine ⟨fun e he => exec_decode_error (hfail e he), fun hnone => ?_⟩
    obtain ⟨e, he⟩ := (holdsTree_or_treeReadingFails (w_le_of_wf hc) _).resolve_left hnone
    exact ⟨e, he, exec_decode_error (hfail e he)⟩

/-- Settles O48: `deser` reads the leaf, and its symbol is emitted EXP_COUNT times or the symbols do not fit. -/
theorem decodeOfSingleLeafRepeatsTheSymbol : Obligations.DecodeOfSingleLeafRepeatsTheSymbol := by
  intro s x f rest hc hlen hx hbits
  have hnodes : (CodeTree.leaf x f).nodes ≤ s.cfg.nodeCap := by
    obtain ⟨-, -, -, -, htwo, -⟩ := hc
    simp only [CodeTree.nodes, Config.nodeCap]
    omega
  have hresult := (decodeResult_eq hlen).trans
    (decodeFrom_of_eq_ser (w_le_of_wf hc) _ _ hbits hnodes (by simpa [CodeTree.symsFit, CodeTree.syms] using hx))
  rw [CodeTree.shape, decodePayload_leaf] at hresult
  split_ifs with hlong
  · exact exec_decode_error (hresult.trans (if_pos hlong))
  · have hexec := exec_decode_ok (hresult.trans (if_neg hlong))
    simp only [List.length_replicate, word_toNat, CodeTree.ser, List.length_cons, length_bitsOf] at hexec
    rw [Nat.add_comm] at hexec
    refine ⟨_, hexec, fun i k hi hk => ?_, fun a ha => Buffer.byte_writeSymbols_above _ _ (by simpa using ha)⟩
    rw [Buffer.byte_writeSymbols _ _ (by simpa using hi) hk, List.getD_replicate _ hi]

/-- Settles O49: every payload is codes and a rest, and `deser`, then the walk over them, give the three outcomes. -/
theorem decodeWalksTheTree : Obligations.DecodeWalksTheTree := by
  refine ⟨CodeTree.exists_codes_append, fun s l r f codes dangling => ?_⟩
  intro t failed hc hlen hnodes hfit hcodes hrest hbits
  have hshape : t.shape.paths = t.paths := t.paths_shape
  have hresult := (decodeResult_eq hlen).trans (decodeFrom_of_eq_ser (w_le_of_wf hc) _ _ hbits hnodes hfit)
  have hpayload := decodePayload_codes (c := s.cfg) (l := l.shape) (r := r.shape) (f := 0)
    s.expCount.toNat s.acceptTrunc (by rwa [← hshape] at hcodes)
    (by rwa [CodeTree.partialCode, ← hshape] at hrest) (hbits ▸ List.drop_left)
  rw [show t.shape = .node l.shape r.shape 0 from rfl, hpayload] at hresult
  split_ifs with hlong htrunc
  · exact exec_decode_error (hresult.trans (if_pos hlong))
  · exact exec_decode_error (hresult.trans ((if_neg hlong).trans (if_pos htrunc)))
  · have hexec := exec_decode_ok (hresult.trans ((if_neg hlong).trans (if_neg htrunc)))
    simp only [List.length_map, treeLeaves, Option.isNone_some] at hexec
    rw [show CodeTree.leaves (.node l.shape r.shape 0) = t.leaves from t.leaves_shape] at hexec
    refine ⟨_, hexec, fun i k hi hk => ?_, fun a ha => Buffer.byte_writeSymbols_above _ _ (by simpa using ha)⟩
    exact Buffer.byte_writeSymbols _ _ (by simpa using hi) hk

end Sys2Proof.Machine
end

section
/-! The decoder's traversal state machine (spec/44_stream_codec.md rule R248): its rows, and what it computes from
D_REPEAT and from D_BIT. -/

namespace Sys2Proof.Machine

section TraversalMachine

variable {c : Config} {bits : Bits} {expCount : Nat} {acceptTrunc : Bool}

/-- The traversal machine stops, after some number of steps, with the result or the error `r`. -/
def DecFsm.computes (c : Config) (bits : Bits) (expCount : Nat) (acceptTrunc : Bool) (m : DecFsm)
    (r : Except ErrKind DecodedStream) : Prop :=
  ∃ n, (DecFsm.run c bits expCount acceptTrunc n m).result = some r

/-- A stopped machine computes what it gives DECODE. -/
theorem DecFsm.computes_of_result {m : DecFsm} {r : Except ErrKind DecodedStream} (h : m.result = some r) :
    m.computes c bits expCount acceptTrunc r := ⟨0, h⟩

/-- A machine computes what it computes after one step. -/
theorem DecFsm.computes_of_step {m m' : DecFsm} {r : Except ErrKind DecodedStream}
    (hstep : m.step c bits expCount acceptTrunc = m') (h : m'.computes c bits expCount acceptTrunc r) :
    m.computes c bits expCount acceptTrunc r := by
  obtain ⟨n, h⟩ := h
  exact ⟨n + 1, by rwa [DecFsm.run, hstep]⟩

/-- From D_REPEAT the machine emits the leaf's symbol until EXP_COUNT symbols are out (R244). -/
theorem DecFsm.computes_emitRepeat {x : Symbol} {f : Count} (n : Nat) : ∀ {m : DecFsm}, m.st = .dRepeat →
    m.root = some (.leaf x f) → m.out.length + n = expCount →
    m.computes c bits expCount acceptTrunc (emitRepeat c x n m.out >>= fun out =>
      .ok { tree := m.root, k := m.k, out := out, used := m.cur - m.k, part := m.part }) := by
  induction n with
  | zero =>
    intro m hst _ hcount
    have hstep : m.step c bits expCount acceptTrunc = { m with st := .dFinish } := by
      simp [DecFsm.step, hst, DecFsm.repeatStep, ← hcount]
    exact DecFsm.computes_of_step hstep (DecFsm.computes_of_result rfl)
  | succ n ih =>
    intro m hst hroot hcount
    have hstep : m.step c bits expCount acceptTrunc = m.emitThen c x .dRepeat := by
      simp [DecFsm.step, hst, DecFsm.repeatStep, hroot, ← hcount]
    refine DecFsm.computes_of_step hstep ?_
    rw [emitRepeat, DecFsm.emitThen]
    cases hemit : emit c m.out x with
    | error e => exact DecFsm.computes_of_result rfl
    | ok out =>
      have hout : out.length = m.out.length + 1 := by
        obtain ⟨-, h⟩ | ⟨-, h⟩ := emit_cases c m.out x <;> cases hemit.symm.trans h
        simp
      exact ih (m := { m with out := out, st := .dRepeat }) rfl hroot (by dsimp only; omega)

/-- From D_BIT the machine walks the tree over the bits from its cursor on, and its cursor ends at the end of the bits, or
stays where it is beyond them (R240 to R243). -/
theorem DecFsm.computes_walk {root : CodeTree} (rest : Bits) : ∀ {m : DecFsm} {node : CodeTree}, m.st = .dBit →
    m.root = some root → m.node = some node → m.part = false → bits.drop m.cur = rest →
    m.computes c bits expCount acceptTrunc (walk c acceptTrunc root rest node m.d m.out >>= fun p =>
      .ok { tree := m.root, k := m.k, out := p.1, used := max m.cur bits.length - m.k, part := p.2 }) := by
  induction rest with
  | nil =>
    intro m node hst _ _ hpart hrest
    have hend := List.drop_eq_nil_iff.1 hrest
    have hstep : m.step c bits expCount acceptTrunc =
        if m.d = 0 then { m with st := .dFinish }
        else if acceptTrunc then { m with part := true, st := .dFinish }
        else { m with st := .raised .truncatedPayload } := by
      simp [DecFsm.step, hst, DecFsm.bitStep, List.getElem?_eq_none hend]
    refine DecFsm.computes_of_step hstep (DecFsm.computes_of_result ?_)
    rw [walk, Nat.max_eq_left hend]
    split_ifs
    · rw [← hpart]; rfl
    · rfl
    · rfl
  | cons b rest ih =>
    intro m node hst hroot hnode hpart hrest
    have hlen := length_of_drop_eq_cons hrest
    have hmax : max m.cur bits.length = max (m.cur + 1) bits.length := by omega
    have hbit : m.step c bits expCount acceptTrunc =
        { m with node := some (node.child b), cur := m.cur + 1, d := m.d + 1, st := .dLeaf } := by
      simp [DecFsm.step, hst, DecFsm.bitStep, getElem?_of_drop_eq_cons hrest, hnode]
    refine DecFsm.computes_of_step hbit ?_
    rw [hmax]
    cases hchild : node.child b with
    | leaf x f =>
      refine DecFsm.computes_of_step rfl ?_
      rw [walk_leaf hchild]
      simp only [DecFsm.step, DecFsm.leafStep, DecFsm.emitThen]
      cases emit c m.out x with
      | error e => exact DecFsm.computes_of_result rfl
      | ok out => exact ih rfl hroot hroot hpart (drop_succ_of_drop_eq_cons hrest)
    | node l r f =>
      refine DecFsm.computes_of_step rfl ?_
      rw [walk_inner hchild]
      exact ih rfl hroot rfl hpart (drop_succ_of_drop_eq_cons hrest)

end TraversalMachine

/-- Settles O50: D_TREE reads the tree, then D_REPEAT emits the leaf's symbol or D_BIT walks the tree. -/
theorem traversalMachineIsDecode : Obligations.TraversalMachineIsDecode := by
  intro c bits expCount acceptTrunc hne
  change DecFsm.start.computes c bits expCount acceptTrunc _
  refine DecFsm.computes_of_step rfl ?_
  rw [decodeFrom, if_neg (mt List.length_eq_zero_iff.1 hne)]
  simp only [DecFsm.step, DecFsm.start, DecFsm.treeStep]
  rcases deser c bits 0 with e | ⟨⟨x, f⟩ | ⟨l, r, f⟩, k⟩
  · exact DecFsm.computes_of_result rfl
  · have h := DecFsm.computes_emitRepeat (c := c) (bits := bits) (acceptTrunc := acceptTrunc) expCount
      (m := { DecFsm.start with st := .dRepeat, root := some (.leaf x f), k := k, cur := k }) rfl rfl (Nat.zero_add _)
    rwa [Nat.sub_self] at h
  · have h := DecFsm.computes_walk (c := c) (expCount := expCount) (acceptTrunc := acceptTrunc) (bits.drop k)
      (m := { DecFsm.start with
        st := .dBit, root := some (.node l r f), k := k, cur := k, node := some (.node l r f) }) rfl rfl rfl rfl rfl
    have hused : max k bits.length - k = bits.length - k := by omega
    rwa [hused] at h

end Sys2Proof.Machine
end

section
/-! ENCODE (spec/44_stream_codec.md rule R250): its four checks, the serialized tree and the payload of an input. -/

namespace Sys2Proof.Machine

/-! ### What ENCODE computes (R250). -/

/-- The stream of what the encoder makes of an input: the serialized tree, then the payload (R230). -/
def Encoded.stream (e : Encoded) : Bits := e.treeBits ++ e.payload

/-- What the encoder makes of the input (R250). -/
def State.encodedInput (s : State) : Encoded where
  built := s.builtInput
  treeBits := serTree s.cfg s.builtInput.tree
  payload := payloadOf s.inputSymbols s.builtInput.codeTable

theorem encodeResult_overCapacity {s : State} (h : s.cfg.inCap < s.inLen.toNat) :
    s.encodeResult = .error .capacity := by
  rw [State.encodeResult, checkInLen_error h]
  rfl

/-- The checks of ENCODE after the one of IN_LEN, in their order. -/
theorem encodeResult_eq {s : State} (h : s.inLen.toNat ≤ s.cfg.inCap) :
    s.encodeResult =
      if s.inLen.toNat % s.cfg.symBytes ≠ 0 then .error .truncatedInput
      else if s.inputSymbols.dedup.length > s.cfg.maxDistinct then .error .capacity
      else if s.encodedInput.stream.length > s.cfg.bitCap then .error .capacity
      else .ok s.encodedInput := by
  rw [State.encodeResult, checkInLen_ok h]
  change (buildFrom s.cfg s.inSeq >>= _) = _
  rw [buildFrom_eq]
  split_ifs with hpart hmany hlong
  · rfl
  · rfl
  · exact if_pos hlong
  · exact if_neg hlong

/-- ENCODE succeeds with what the encoder makes of the input, and only for whole symbols. -/
theorem encodeResult_ok {s : State} {e : Encoded} (h : s.encodeResult = .ok e) :
    s.inLen.toNat % s.cfg.symBytes = 0 ∧ e = s.encodedInput := by
  obtain ⟨_, hcheck, -⟩ := bind_eq_ok h
  rw [encodeResult_eq (inLen_le_of_checkInLen hcheck)] at h
  split_ifs at h with hpart
  cases h
  exact ⟨not_not.1 hpart, rfl⟩

theorem exec_encode_error {s : State} {e : ErrKind} (h : s.encodeResult = .error e) :
    exec .encode s = .next { s with
      symCount := 0, distinct := 0, treeBits := 0, payloadBits := 0, bitLen := 0,
      bitsBuf := Buffer.unwritten s.draws, draws := s.draws + 1, freqValid := false, tableValid := false,
      treeValid := false, treeEmpty := false, partialFlag := false, phase := .idle, done := true, err := some e } := by
  rw [exec, execEncode, complete_error _ _ _ h, failWriteSet_encode, State.finish]

theorem exec_encode_ok {s : State} {e : Encoded} (h : s.encodeResult = .ok e) :
    exec .encode s = .next { s with
      freqTable := e.built.freqTable, tree := e.built.tree, codeTable := e.built.codeTable,
      bitsBuf := s.bitsBuf.writeBytes 0 (pack e.stream), symCount := word e.built.syms.length,
      distinct := word (List.length e.built.freqTable), treeBits := word e.treeBits.length,
      payloadBits := word e.payload.length, bitLen := word e.stream.length, freqValid := true, tableValid := true,
      treeValid := true, treeEmpty := e.built.tree.isNone, phase := .idle, done := true, err := none } := by
  rw [exec, execEncode, complete_ok _ _ _ h]
  simp only [State.putBits, State.putBuilt, State.tablesBuilt, State.putReg_symCount_eq, State.putReg_distinct_eq,
    State.putReg_bitLen_eq, State.putReg_treeBits_eq, State.putReg_payloadBits_eq, State.finish, Encoded.stream]

/-- The stream of a successful ENCODE fits BITS (R250). -/
theorem length_stream_le {s : State} {e : Encoded} (h : s.encodeResult = .ok e) : e.stream.length ≤ s.cfg.bitCap := by
  rw [Encoded.stream, List.length_append]
  exact (encodeResult_bounded h).2

/-- The stream of a successful ENCODE, its length in BIT_LEN, is read back as `BITS_SEQ`. -/
theorem bitsSeq_of_encoded {s t : State} {e : Encoded} (hc : s.cfg.wf) (h : s.encodeResult = .ok e)
    (hbuf : t.bitsBuf = (s.putBits e.stream).bitsBuf) (hlen : t.bitLen = word e.stream.length) :
    t.bitsSeq = e.stream :=
  State.bitsSeq_of_putBits hbuf (hlen ▸ toNat_word (length_stream_le h) (bitCap_lt hc))

/-! ### The statement. -/

/-- Settles O46: each failing check fails ENCODE's write set; else the state takes over what the encoder makes, its
stream in BITS. -/
theorem encodeWritesTreeAndPayload : Obligations.EncodeWritesTreeAndPayload := by
  refine fun s _ => ⟨rfl, ?_⟩
  have hchecks := encodeResult_eq (s := s)
  intro built treePart payload bits failed
  have hbits : s.encodedInput.stream = bits := rfl
  rw [hbits] at hchecks
  split_ifs with hcap hpart hmany hlong
  · exact exec_encode_error (encodeResult_overCapacity hcap)
  all_goals specialize hchecks (Nat.not_lt.1 hcap)
  · exact exec_encode_error (by rw [hchecks, if_pos hpart])
  · exact exec_encode_error (by rw [hchecks, if_neg hpart, if_pos hmany])
  · exact exec_encode_error (by rw [hchecks, if_neg hpart, if_neg hmany, if_pos hlong])
  · rw [if_neg hpart, if_neg hmany, if_neg hlong] at hchecks
    obtain ⟨-, -, hdistinct⟩ := s.inputTable_spec
    have hexec := exec_encode_ok hchecks
    simp only [State.encodedInput, State.isNone_tree_builtInput] at hexec
    simp only [State.builtInput, State.length_inputSymbols, hdistinct] at hexec
    refine ⟨_, hexec, fun i hi => ?_, fun i hi hpad => ?_, fun a ha => Buffer.byte_writeBits_above _ _ ha⟩
    · exact (Buffer.bit_writeBits _ _ _).trans (if_pos (hi.trans_le (le_mul_ceilDiv _)))
    · rw [← List.getD_eq_default bits false hi]
      exact (Buffer.bit_writeBits _ _ _).trans (if_pos hpad)

end Sys2Proof.Machine
end

section
/-! The round trip of ENCODE and DECODE (spec/44_stream_codec.md rule R252): the payload of an input is codes of its
tree, and the input's symbols are its bytes. -/

namespace Sys2Proof.Machine

/-! ### The codes of an input. -/

theorem CodeTree.map_fst_paths (t : CodeTree) : t.paths.map Prod.fst = t.syms := by
  induction t with
  | leaf x f => rfl
  | node l r f ihl ihr => simp [paths, syms, ← ihl, ← ihr, Function.comp_def]

/-- The input's symbols in order, each with its code (R231). -/
def State.inputCodes (s : State) : List (Symbol × Bits) :=
  s.inputSymbols.map fun x => (x, (List.lookup x s.builtInput.codeTable).getD [])

@[simp] theorem State.map_fst_inputCodes (s : State) : s.inputCodes.map Prod.fst = s.inputSymbols := by
  simp [State.inputCodes, Function.comp_def]

@[simp] theorem State.length_inputCodes (s : State) : s.inputCodes.length = s.inputSymbols.length := List.length_map _

/-- The payload of an input is its codes in order (R231). -/
theorem State.payload_encodedInput (s : State) : s.encodedInput.payload = s.inputCodes.flatMap Prod.snd := by
  rw [State.inputCodes, List.flatMap_map]
  rfl

/-- An input symbol is listed in the input's table (R164). -/
theorem State.mem_keys_of_mem_inputSymbols {s : State} {x : Symbol} (h : x ∈ s.inputSymbols) :
    x ∈ s.inputTable.map Prod.fst := by
  obtain ⟨hsorted, hcount, -⟩ := s.inputTable_spec
  refine (hsorted.mem_iff x).2 fun h0 => ?_
  have hpos := List.count_pos_iff.2 h
  rw [← hcount, h0] at hpos
  exact lt_irrefl _ hpos

/-- Every input symbol's code is its path in the input's tree (R170, R231). -/
theorem State.mem_paths_of_mem_inputCodes {s : State} {t : CodeTree} (h : s.builtInput.tree = some t)
    {e : Symbol × Bits} (he : e ∈ s.inputCodes) : e ∈ t.paths := by
  obtain ⟨x, hx, rfl⟩ := List.mem_map.1 he
  obtain ⟨hentries, -, hcodes⟩ := State.tree_builtInput h
  have hlisted : x ∈ s.builtInput.codeTable.map Prod.fst := by
    rw [(hcodes.map _).mem_iff, t.map_fst_paths, ← t.map_fst_leafEntries, (hentries.map _).mem_iff]
    exact State.mem_keys_of_mem_inputSymbols hx
  cases hlook : List.lookup x s.builtInput.codeTable with
  | none =>
    obtain ⟨e', he', hsym⟩ := List.mem_map.1 hlisted
    exact absurd hsym.symm (by simpa using List.lookup_eq_none_iff.1 hlook e' he')
  | some code => exact hcodes.mem_iff.1 (mem_of_lookup hlook)

/-- An input without a tree has no symbol (R171). -/
theorem State.inputSymbols_eq_nil {s : State} (h : s.builtInput.tree = none) : s.inputSymbols = [] := by
  have hempty := s.isNone_tree_builtInput
  rw [h, Option.isNone_none] at hempty
  exact (List.dedup_eq_nil _).1 (List.length_eq_zero_iff.1 (of_decide_eq_true hempty.symm))

/-! ### The stream of an input, decoded. -/

/-- The stream of an input decodes to the input's symbols, where these fit OUT (R252). -/
theorem decodeFrom_encodedInput {s : State} (hc : s.cfg.wf) (h : s.encodeResult = .ok s.encodedInput)
    (hout : s.inputSymbols.length * s.cfg.symBytes ≤ s.cfg.outCap) (acceptTrunc : Bool) :
    ∃ d, decodeFrom s.cfg s.encodedInput.stream s.inputSymbols.length acceptTrunc = .ok d ∧
      d.out = s.inputSymbols ∧ d.part = false := by
  have hfull := Nat.not_lt.2 hout
  cases htree : s.builtInput.tree with
  | none =>
    have hnil := State.inputSymbols_eq_nil htree
    have hstream : s.encodedInput.stream = [] := by
      rw [Encoded.stream, State.encodedInput, htree, hnil]
      rfl
    rw [hstream, hnil]
    exact ⟨_, decodeFrom_nil _ _, rfl, rfl⟩
  | some t =>
    obtain ⟨⟨hbounded, -, -, -, -⟩, -⟩ := encodeResult_bounded h
    obtain ⟨hnodes, hfit⟩ := hbounded t htree
    have hcodes : ∀ e ∈ s.inputCodes, e ∈ t.paths := fun _ => State.mem_paths_of_mem_inputCodes htree
    have hstream : s.encodedInput.stream = t.ser s.cfg ++ s.encodedInput.payload := by
      rw [Encoded.stream, State.encodedInput, htree]
      rfl
    rw [decodeFrom_of_eq_ser (w_le_of_wf hc) _ _ hstream hnodes hfit]
    cases t with
    | leaf x f =>
      have hall : s.inputSymbols = List.replicate s.inputSymbols.length x := by
        refine List.eq_replicate_of_mem fun y hy => ?_
        rw [← s.map_fst_inputCodes] at hy
        obtain ⟨e, he, rfl⟩ := List.mem_map.1 hy
        exact (CodeTree.mem_paths_leaf.1 (hcodes e he)).1
      rw [CodeTree.shape, decodePayload_leaf, if_neg hfull]
      exact ⟨_, rfl, hall.symm, rfl⟩
    | node l r f =>
      have hpayload : s.encodedInput.stream.drop ((CodeTree.node l r f).ser s.cfg).length =
          s.inputCodes.flatMap Prod.snd ++ [] := by
        rw [hstream, List.drop_left, List.append_nil, s.payload_encodedInput]
      have hpaths : ∀ e ∈ s.inputCodes, e ∈ (CodeTree.node l r f).shape.paths := by rwa [CodeTree.paths_shape]
      have hresult := decodePayload_codes (c := s.cfg) s.inputSymbols.length acceptTrunc hpaths (.inl rfl) hpayload
      rw [s.length_inputCodes, if_neg hfull, s.map_fst_inputCodes] at hresult
      exact ⟨_, hresult, rfl, rfl⟩

/-! ### The bytes of an input. -/

/-- Symbol i of the input is what `value_of_bytes` reads at its offset (R162). -/
theorem State.valueOfBytes_inSeq (s : State) {i : Nat} (hi : i < s.inputSymbols.length) :
    valueOfBytes s.cfg s.inSeq (i * s.cfg.symBytes) = .ok (s.inputSymbols.getD i 0) := by
  rw [State.length_inputSymbols] at hi
  have hin : i * s.cfg.symBytes + s.cfg.symBytes ≤ s.inLen.toNat := by
    rw [← Nat.succ_mul]
    exact (Nat.mul_le_mul_right _ hi).trans (Nat.div_mul_le_self _ _)
  rw [valueOfBytes_ok _ (by rwa [length_inSeq]), State.inSeq, Buffer.take_drop_readBytes _ hin]
  simp [State.inputSymbols, List.getD_eq_getElem?_getD, hi]

theorem State.length_inputSymbols_mul {s : State} (h : s.inLen.toNat % s.cfg.symBytes = 0) :
    s.inputSymbols.length * s.cfg.symBytes = s.inLen.toNat := by
  rw [State.length_inputSymbols, Nat.div_mul_cancel (Nat.dvd_of_mod_eq_zero h)]

/-- The bytes of the symbols of an input are its bytes (R67, R162). -/
theorem State.flatMap_bytesOf_inputSymbols {s : State} (hc : s.cfg.wf) (h : s.inLen.toNat % s.cfg.symBytes = 0) :
    s.inputSymbols.flatMap (bytesOf s.cfg) = s.inSeq := by
  have hlen := State.length_inputSymbols_mul h
  have hsym := symBytes_bounds hc
  refine List.ext_getElem (by simpa using hlen) fun a h1 h2 => ?_
  rw [← List.getD_eq_getElem _ 0, ← List.getD_eq_getElem _ 0]
  have hk : a % s.cfg.symBytes < s.cfg.symBytes := Nat.mod_lt _ (by omega)
  have hi : a / s.cfg.symBytes < s.inputSymbols.length := by
    rw [length_flatMap_bytesOf, Nat.mul_comm] at h1
    exact Nat.div_lt_of_lt_mul h1
  rw [← Nat.div_add_mod' a s.cfg.symBytes, getD_flatMap_bytesOf _ _ hi hk,
    extractLsb'_of_valueOfBytes hc (s.valueOfBytes_inSeq hi) hk]

/-! ### The statement. -/

/-- An ENCODE that leaves no error had an input of whole symbols, and left the input's stream in BITS and the counts
DECODE takes. -/
theorem exec_encode_success {s t : State} (h : exec .encode s = .next t) (he : t.err = none) :
    s.inLen.toNat % s.cfg.symBytes = 0 ∧ s.encodeResult = .ok s.encodedInput ∧ t.cfg = s.cfg ∧
      t.bitsBuf = (s.putBits s.encodedInput.stream).bitsBuf ∧ t.bitLen = word s.encodedInput.stream.length ∧
      t.symCount = word s.inputSymbols.length := by
  cases hr : s.encodeResult with
  | error e =>
    rw [exec_encode_error hr] at h
    cases h
    cases he
  | ok e =>
    obtain ⟨hwhole, rfl⟩ := encodeResult_ok hr
    rw [exec_encode_ok hr] at h
    cases h
    exact ⟨hwhole, rfl, rfl, rfl, rfl, rfl⟩

/-- DECODE after ENCODE, EXP_COUNT the number of input symbols, decodes the stream of the input. -/
theorem decodeResult_after_encode {s t : State} (hc : s.cfg.wf) (h : s.encodeResult = .ok s.encodedInput)
    (hcfg : t.cfg = s.cfg) (hbuf : t.bitsBuf = (s.putBits s.encodedInput.stream).bitsBuf)
    (hlen : t.bitLen = word s.encodedInput.stream.length) (hexp : t.expCount = word s.inputSymbols.length) :
    t.decodeResult = decodeFrom s.cfg s.encodedInput.stream s.inputSymbols.length t.acceptTrunc := by
  have hbitLen : t.bitLen.toNat ≤ t.cfg.bitCap := hcfg ▸ hlen ▸ toNat_word_le (length_stream_le h)
  have hcount : t.expCount.toNat = s.inputSymbols.length :=
    hexp ▸ toNat_word (s.length_inputSymbols.trans_le (Nat.div_le_self _ _)) s.inLen.isLt
  rw [decodeResult_eq hbitLen, bitsSeq_of_encoded hc h hbuf hlen, hcount, hcfg]

/-- Settles O51: BITS_SEQ is the stream of the input, which decodes to the input's symbols. -/
theorem encodeDecodeRoundTrip : Obligations.EncodeDecodeRoundTrip := by
  intro s t acceptTrunc hc h he hfit
  obtain ⟨hwhole, hresult, hcfg, hbuf, hbitLen, hsymCount⟩ := exec_encode_success h he
  have hlen := State.length_inputSymbols_mul hwhole
  obtain ⟨d, hdecode, hout, hpart⟩ := decodeFrom_encodedInput hc hresult (hlen.trans_le hfit) acceptTrunc
  have hexec := exec_decode_ok ((decodeResult_after_encode
    (t := { t with expCount := t.symCount, acceptTrunc := acceptTrunc }) hc hresult hcfg hbuf hbitLen hsymCount).trans
    hdecode)
  have hbytes : d.out.flatMap (bytesOf t.cfg) = s.inSeq := by
    rw [hcfg, hout, State.flatMap_bytesOf_inputSymbols hc hwhole]
  have houtLen : word (d.out.length * t.cfg.symBytes) = s.inLen := by rw [hcfg, hout, hlen, word_toNat]
  rw [hbytes, houtLen] at hexec
  refine ⟨_, hexec, rfl, hpart, rfl, fun a ha => ?_⟩
  exact (Buffer.byte_writeBytes_zero _ _ _).trans ((if_pos (by rwa [length_inSeq])).trans (s.getD_inSeq ha))

end Sys2Proof.Machine
end

section
/-! ENCODE and DECODE read no state left by an earlier command (spec/44_stream_codec.md rule R253). -/

namespace Sys2Proof.Machine

/-- What ENCODE computes is a function of the configuration, IN_LEN and the input bytes below it (R253). -/
theorem encodeResult_congr {s s' : State} (hcfg : s.cfg = s'.cfg) (hlen : s.inLen = s'.inLen)
    (hbytes : ∀ a, a < s.inLen.toNat → s.inBuf.byte a = s'.inBuf.byte a) : s.encodeResult = s'.encodeResult := by
  have hin : s.inSeq = s'.inSeq := by
    rw [State.inSeq, State.inSeq, ← hlen]
    exact Buffer.readBytes_congr fun i hi => by rw [Nat.zero_add]; exact hbytes i hi
  rw [State.encodeResult, State.encodeResult, State.checkInLen, State.checkInLen, hcfg, hlen, hin]

/-- What DECODE computes is a function of the configuration, BIT_LEN, BITS_SEQ, EXP_COUNT and ACCEPT_TRUNC (R253). -/
theorem decodeResult_congr {s s' : State} (hcfg : s.cfg = s'.cfg) (hlen : s.bitLen = s'.bitLen)
    (hbits : s.bitsSeq = s'.bitsSeq) (hexp : s.expCount = s'.expCount) (htrunc : s.acceptTrunc = s'.acceptTrunc) :
    s.decodeResult = s'.decodeResult := by
  rw [State.decodeResult, State.decodeResult, State.checkBitLen, State.checkBitLen, hcfg, hlen, hbits, hexp, htrunc]

/-- Bytes written to a buffer from offset 0 do not depend on what the buffer held. -/
theorem Buffer.byte_writeBytes_congr (b b' : Buffer) {bytes : List Byte} {a : Nat} (h : a < bytes.length) :
    (b.writeBytes 0 bytes).byte a = (b'.writeBytes 0 bytes).byte a := by
  rw [Buffer.byte_writeBytes_zero, Buffer.byte_writeBytes_zero, if_pos h, if_pos h]

/-- Settles O52: equal results are written, or equal errors raised, in both states. -/
theorem encodeAndDecodeReadNoEarlierState : Obligations.EncodeAndDecodeReadNoEarlierState := by
  refine ⟨fun s s' hcfg hlen hbytes => ?_, fun s s' hcfg hlen hbits hexp htrunc => ?_⟩
  · have hresult := encodeResult_congr hcfg hlen hbytes
    cases hr : s.encodeResult with
    | error e =>
      exact ⟨_, _, exec_encode_error hr, exec_encode_error (hresult ▸ hr), rfl, rfl, rfl, rfl, rfl, rfl, rfl, rfl, rfl,
        rfl, nofun⟩
    | ok e =>
      have hr' := hresult ▸ hr
      refine ⟨_, _, exec_encode_ok hr, exec_encode_ok hr', rfl, rfl, rfl, rfl, rfl, rfl, rfl, rfl, rfl, rfl,
        fun _ => ⟨rfl, rfl, rfl, fun hc => ?_⟩⟩
      exact Eq.trans (bitsSeq_of_encoded hc hr rfl rfl) (Eq.symm (bitsSeq_of_encoded (hcfg ▸ hc) hr' rfl rfl))
  · have hresult := decodeResult_congr hcfg hlen hbits hexp htrunc
    cases hr : s.decodeResult with
    | error e =>
      exact ⟨_, _, exec_decode_error hr, exec_decode_error (hresult ▸ hr), rfl, rfl, rfl, rfl, rfl, rfl, rfl, rfl, rfl,
        nofun⟩
    | ok d =>
      have hexec := exec_decode_ok (hresult ▸ hr)
      rw [← hcfg] at hexec
      refine ⟨_, _, exec_decode_ok hr, hexec, rfl, rfl, rfl, rfl, rfl, rfl, rfl, rfl, rfl,
        fun _ => ⟨rfl, fun _ a ha => Buffer.byte_writeBytes_congr _ _ ?_⟩⟩
      rw [length_flatMap_bytesOf]
      exact ha.trans_le (toNat_word_le le_rfl)

end Sys2Proof.Machine
end

section
/-! A command's life: acceptance, bounded latency and completion (spec/60_exceptions.md rules R279 and R280,
spec/70_reset_and_hazards.md rules R301 and R309). -/

namespace Sys2Proof.Machine

/-- A safe run starts with a step that answers, and what follows that step is a safe run (R304). -/
theorem exists_step_of_safeRun {n : Nat} {s : State} (h : SafeRun (n + 1) s) : ∃ t, step s = .next t ∧ SafeRun n t := by
  obtain ⟨u, hu⟩ := h
  simp only [Host.Core.run] at hu
  split at hu
  · exact ⟨_, ‹_›, u, hu⟩
  · cases hu
  · cases hu

/-- While a command runs, a host step leaves it latched with its latency, unless it asserts the reset input (R301, R303). -/
theorem hostStep_keeps_latched {s t : State} {op : Decoded} {n : Nat} (h : hostStep s = .next t)
    (hp : s.phase = .exec op n) (hr : s.inReset = false) :
    t.inReset = true ∨ t.phase = .exec op n ∧ t.inReset = false := by
  have hb : s.busy = true := by rw [State.busy, hp]
  obtain ⟨p, k, x, d, he⟩ := hostStep_cases h
  obtain hreset | ⟨done, ovr, rfl⟩ := he.busy_cases hb hr
  · exact .inl hreset
  · exact .inr ⟨hp, hr⟩

/-- Settles O8, by induction on the latency: each waiting step uses up one host step of it. -/
theorem acceptedCommandCompletes : Obligations.AcceptedCommandCompletes := by
  intro n
  induction n with
  | zero => exact fun s op hp _ _ => ⟨0, s, le_rfl, rfl, .inl ⟨0, hp, step_completes hp (.inl rfl)⟩⟩
  | succ n ih =>
    intro s op hp hr hsafe
    cases hd : s.hostDone with
    | true => exact ⟨0, s, Nat.zero_le _, rfl, .inl ⟨n + 1, hp, step_completes hp (.inr hd)⟩⟩
    | false =>
      obtain ⟨t, hstep, hrest⟩ := exists_step_of_safeRun hsafe
      obtain hreset | ⟨htp, htr⟩ := hostStep_keeps_latched ((step_waits hp hd).symm.trans hstep) rfl hr
      · exact ⟨1, t, by omega, run_succ_of_step hstep, .inr hreset⟩
      · obtain ⟨k, u, hk, hrun, hu⟩ := ih t op htp htr hrest
        exact ⟨k + 1, u, by omega, (run_succ_of_step hstep).trans hrun, hu⟩

/-- Settles O5: a write to CMD while IDLE is acceptance. -/
theorem commandWriteIsAcceptedWhenIdle : Obligations.CommandWriteIsAcceptedWhenIdle := by
  intro s w hp hr
  have hidle : s.busy = false := by rw [State.busy, hp]
  rw [performTxn_regWrite_cmd w hr]
  obtain ⟨hbusy, -⟩ | ⟨-, n, l, d, hw⟩ := writeCmd_cases w s
  · exact absurd (hidle.symm.trans hbusy) Bool.false_ne_true
  · exact ⟨n, l, d, congrArg _ hw⟩

/-- Settles O7: acceptance does not look at whether the word is legal, and the completion of an illegal one is
`State.finish` alone. -/
theorem illegalCommandWritesOnlyStatus : Obligations.IllegalCommandWritesOnlyStatus := by
  intro s w why hp hr hw
  obtain ⟨n, l, d, haccept⟩ := commandWriteIsAcceptedWhenIdle s w hp hr
  rw [hw] at haccept
  exact ⟨n, l, d, haccept, fun t ht => ⟨step_completes ht (.inl rfl), rfl⟩⟩

end Sys2Proof.Machine
end

section
/-! What a failed command leaves: its write set's registers 0, its buffer unspecified, its tree flags 0, and all else
kept (spec/60_exceptions.md rules R281 and R282). -/

namespace Sys2Proof.Machine

/-- Zeroing a result register makes it read 0 and changes what no other register reads (R281). -/
theorem reg_putReg_zero {c : Config} {i : Instr} {q : Reg} (hq : q ∈ writeRegs c i) (s : State) (r : Reg) :
    (s.putReg q 0).reg r = if r = q then 0 else s.reg r := by
  obtain hq | ⟨j, rfl⟩ := mem_writeRegs hq
  · fin_cases hq <;> cases r <;> rfl
  · cases r
    case codeW k =>
      by_cases hjk : j = k
      · subst hjk
        by_cases hj : j < s.codeW.length <;> simp [State.reg, List.getD_eq_getElem?_getD, hj]
      · simp [State.reg, List.getD_eq_getElem?_getD, hjk, eq_comm (a := k)]
    all_goals rfl

/-- Zeroing the registers of a list makes them and no other read 0. -/
theorem reg_foldl_putReg_zero {c : Config} {i : Instr} {rs : List Reg} (h : rs ⊆ writeRegs c i) (r : Reg) : ∀ s : State,
    (rs.foldl (fun t q => t.putReg q 0) s).reg r = if r ∈ rs then 0 else s.reg r := by
  induction rs with
  | nil => intro s; rfl
  | cons q rs ih =>
    intro s
    obtain ⟨hq, hrs⟩ := List.cons_subset.1 h
    rw [List.foldl_cons, ih hrs, reg_putReg_zero hq]
    by_cases h1 : r ∈ rs <;> by_cases h2 : r = q <;> simp [h1, h2]

/-- An unspecified buffer shows in no register. -/
@[simp] theorem State.unspecify_reg (s : State) (sp : Space) (r : Reg) : (s.unspecify sp).reg r = s.reg r := by
  cases sp <;> rfl

/-- The phase and the flags show in no register but STATUS (R26). -/
theorem reg_statusFields (s : State) {r : Reg} (hr : r ≠ .status) (phase : Phase) (err : Option ErrKind)
    (done freqValid tableValid treeValid treeEmpty partialFlag : Bool) :
    ({ s with phase := phase, err := err, done := done, freqValid := freqValid, tableValid := tableValid,
              treeValid := treeValid, treeEmpty := treeEmpty, partialFlag := partialFlag } : State).reg r = s.reg r := by
  cases r
  case status => exact absurd rfl hr
  all_goals rfl

/-- After a failure the registers of the write set read 0, and every other register but STATUS what it read before
(R281, R282). -/
theorem reg_failWriteSet (s : State) (i : Instr) {r : Reg} (hr : r ≠ .status) :
    (s.failWriteSet i).reg r = if r ∈ writeRegs s.cfg i then 0 else s.reg r := by
  have hbuffer : ∀ t : State, (t.failBuffer i).reg r = t.reg r := fun t => by
    unfold State.failBuffer
    split
    · exact t.unspecify_reg _ r
    · rfl
  have hflags : ∀ t : State, (t.failFlags i).reg r = t.reg r := fun t => by
    unfold State.failFlags
    split_ifs
    · exact reg_statusFields t hr _ _ _ _ _ _ _ _
    · rfl
  calc (s.failWriteSet i).reg r
    _ = (((writeRegs s.cfg i).foldl (fun t q => t.putReg q 0) s |>.failBuffer i |>.failFlags i)).reg r :=
      reg_statusFields _ hr _ _ _ _ _ _ _ _
    _ = ((writeRegs s.cfg i).foldl (fun t q => t.putReg q 0) s).reg r := (hflags _).trans (hbuffer _)
    _ = if r ∈ writeRegs s.cfg i then 0 else s.reg r := reg_foldl_putReg_zero (List.Subset.refl _) r s

/-- No command's write set lists STATUS, which every command writes (R26, R49). -/
theorem ne_status_of_mem_writeRegs {c : Config} {i : Instr} {r : Reg} (h : r ∈ writeRegs c i) : r ≠ .status := by
  rintro rfl
  obtain h | ⟨j, h⟩ := mem_writeRegs h <;> simp at h

/-- Zeroing registers keeps what zeroing each one keeps. -/
theorem foldl_putReg_zero_keeps {α : Type} {f : State → α} (h : ∀ t q, f (t.putReg q 0) = f t) (rs : List Reg) :
    ∀ s : State, f (rs.foldl (fun t q => t.putReg q 0) s) = f s := by
  induction rs with
  | nil => exact fun s => rfl
  | cons q rs ih => exact fun s => (ih _).trans (h s q)

/-- A failure makes the buffer of the write set unspecified, from the next draw, and keeps the other two (R281, R282). -/
theorem buf_failWriteSet (s : State) (i : Instr) (sp : Space) :
    (s.failWriteSet i).buf sp = if writeSpace i = some sp then Buffer.unwritten s.draws else s.buf sp := by
  obtain ⟨hbuf, hdraws⟩ := Prod.mk.inj <| foldl_putReg_zero_keeps (f := fun t => (t.buf sp, t.draws))
    (fun t q => by cases sp <;> simp) (writeRegs s.cfg i) s
  have hflags : ∀ t : State, (t.failFlags i).buf sp = t.buf sp := fun t => by
    unfold State.failFlags
    split_ifs <;> rfl
  refine (hflags _).trans ?_
  unfold State.failBuffer
  cases writeSpace i with
  | none => exact hbuf
  | some sp' =>
    refine (State.buf_setBuf _ sp' sp _).trans ?_
    simp only [hbuf, hdraws, Option.some.injEq, eq_comm (a := sp)]

/-- A failure of a command that writes the tree clears the four valid flags (R281). -/
theorem flags_failWriteSet (s : State) {i : Instr} (h : writesTree i = true) :
    (s.failWriteSet i).freqValid = false ∧ (s.failWriteSet i).tableValid = false ∧
      (s.failWriteSet i).treeValid = false ∧ (s.failWriteSet i).treeEmpty = false := by
  rw [State.failWriteSet, State.failFlags, if_pos h]
  exact ⟨rfl, rfl, rfl, rfl⟩

/-- A failure of any other command keeps the four flags and the tables (R282). -/
theorem tables_failWriteSet (s : State) {i : Instr} (h : writesTree i = false) :
    (s.failWriteSet i).freqValid = s.freqValid ∧ (s.failWriteSet i).tableValid = s.tableValid ∧
      (s.failWriteSet i).treeValid = s.treeValid ∧ (s.failWriteSet i).treeEmpty = s.treeEmpty ∧
      (s.failWriteSet i).freqTable = s.freqTable ∧ (s.failWriteSet i).tree = s.tree ∧
      (s.failWriteSet i).codeTable = s.codeTable := by
  have hregs := foldl_putReg_zero_keeps (f := fun t => (t.freqValid, t.tableValid, t.treeValid, t.treeEmpty,
    t.freqTable, t.tree, t.codeTable)) (fun t q => by simp) (writeRegs s.cfg i) s
  simp only [Prod.mk.injEq] at hregs
  rw [State.failWriteSet, State.failFlags, if_neg (by simp [h]), State.failBuffer]
  cases writeSpace i with
  | none => exact hregs
  | some sp => simpa using hregs

/-- Settles O53: an error comes with the failure of the write set, whose lemmas are above; what no command writes is
kept. -/
theorem failureDestroysOnlyTheWriteSet : Obligations.FailureDestroysOnlyTheWriteSet := by
  intro i s t e h he
  obtain ⟨hcfg, -, -, -, -, -, -, hovr, hlastOp, -⟩ := exec_keepsInputs h
  obtain ⟨u, -, rfl⟩ | ⟨e', rfl⟩ := exec_result h
  · cases he
  have hreg : ∀ r, r ≠ .status → ((s.failWriteSet i).finish (some e')).reg r =
      if r ∈ writeRegs s.cfg i then 0 else s.reg r := fun r hr =>
    (reg_statusFields _ hr _ _ _ _ _ _ _ _).trans (reg_failWriteSet s i hr)
  have hbuf : ∀ sp, ((s.failWriteSet i).finish (some e')).buf sp =
      if writeSpace i = some sp then Buffer.unwritten s.draws else s.buf sp := buf_failWriteSet s i
  refine ⟨fun r hr => ?_, rfl, rfl, rfl, fun sp hsp a => ?_, fun sp hsp => ?_, flags_failWriteSet s,
    tables_failWriteSet s, fun r hr hne => ?_, hcfg, hovr, hlastOp⟩
  · rw [hreg r (ne_status_of_mem_writeRegs hr), if_pos hr]
  · rw [hbuf, if_pos hsp]; rfl
  · rw [hbuf, if_neg hsp]
  · rw [hreg r hne, if_neg hr]

end Sys2Proof.Machine
end

section
/-! Reset, and host writes while a command runs (spec/70_reset_and_hazards.md rules R300, R301, R303 and R304). -/

namespace Sys2Proof.Machine

/-- Driving the reset input to its active level asserts reset (R300). -/
theorem State.drivePin_active (s : State) : s.drivePin s.cfg.resetActiveLevel = s.loadReset true := if_pos rfl

/-- Driving the reset input to its other level releases an asserted reset (R300). -/
theorem State.drivePin_release {s : State} (hr : s.inReset = true) :
    s.drivePin (!s.cfg.resetActiveLevel) = s.loadReset false :=
  (if_neg (Bool.not_ne_self _)).trans (if_pos hr)

/-- Every register reads after a reset event as it does after reset: the event keeps only the host's part (R300). -/
theorem State.reg_loadReset (s : State) (asserted : Bool) (r : Reg) :
    (s.loadReset asserted).reg r = (State.resetWith s.cfg s.draws).reg r := by cases r <;> rfl

/-- A reset event leaves every byte of a buffer a free value of a draw not made before (R50, R300). -/
theorem State.byte_loadReset (s : State) (asserted : Bool) (sp : Space) :
    ∃ g, s.draws ≤ g ∧ ∀ a, ((s.loadReset asserted).buf sp).byte a = Config.freeByte g a := by
  cases sp with
  | input => exact ⟨s.draws, le_rfl, fun _ => rfl⟩
  | bits => exact ⟨s.draws + 1, by omega, fun _ => rfl⟩
  | output => exact ⟨s.draws + 2, by omega, fun _ => rfl⟩

/-- Settles O22: asserting and releasing are one reset event each, the second from the state the first leaves. -/
theorem resetAbandonsTheRunningCommand : Obligations.ResetAbandonsTheRunningCommand := by
  intro s _
  have hassert : runStmt (.resetPin s.cfg.resetActiveLevel) s = .next (s.loadReset true) :=
    congrArg Host.Outcome.next s.drivePin_active
  have hrelease : runStmt (.resetPin (!s.cfg.resetActiveLevel)) (s.loadReset true) =
      .next ((s.loadReset true).loadReset false) :=
    congrArg Host.Outcome.next (State.drivePin_release (s := s.loadReset true) rfl)
  refine ⟨_, _, hassert, rfl, rfl, rfl, hrelease, rfl, rfl, rfl, fun n hn => ?_, fun sp => ?_, rfl, rfl, rfl⟩
  · exact ((s.loadReset true).reg_loadReset false _).trans (reg_resetWith _ _ hn)
  · obtain ⟨g, hg, hbyte⟩ := (s.loadReset true).byte_loadReset false sp
    have hdraws : (s.loadReset true).draws = s.draws + 3 := rfl
    exact ⟨g, by omega, hbyte⟩

/-- While reset is asserted a register write has no effect (R300). -/
theorem performTxn_regWrite_inReset {s : State} (n : Nat) (v : Word) (hr : s.inReset = true) :
    performTxn (.regWrite n v) s = .next s := if_pos hr

/-- While reset is asserted a byte write has no effect (R300). -/
theorem performTxn_bufWrite_inReset {s : State} (sp : Space) (a : Nat) (v : Byte) (hr : s.inReset = true) :
    performTxn (.bufWrite sp a v) s = .next s := if_pos (by rw [hr, Bool.true_or])

/-- While reset is asserted a register read is of a free value (R300). -/
theorem performTxn_regRead_inReset {s : State} (n : Nat) (e : Option Word) (hr : s.inReset = true) :
    performTxn (.regRead n e) s = .next { s.saw (.reg n (Config.freeWord s.draws) e) with draws := s.draws + 1 } :=
  congrArg Host.Outcome.next (if_pos (by rw [hr, Bool.true_or]))

/-- While reset is asserted a byte read is of a free value, in or out of range (R300). -/
theorem performTxn_bufRead_inReset {s : State} (sp : Space) (a : Nat) (hr : s.inReset = true) :
    performTxn (.bufRead sp a) s = .next { s.saw (.byte sp a (Config.freeByteRead s.draws)) with draws := s.draws + 1 } :=
  congrArg Host.Outcome.next (if_pos hr)

/-- Settles O23: each of the four accesses looks at reset before it looks at anything else. -/
theorem nothingHappensWhileResetIsAsserted : Obligations.NothingHappensWhileResetIsAsserted := fun _ hr =>
  ⟨fun n v => performTxn_regWrite_inReset n v hr, fun sp a v => performTxn_bufWrite_inReset sp a v hr,
    fun n e => performTxn_regRead_inReset n e hr, fun sp a => performTxn_bufRead_inReset sp a hr⟩

/-- Settles O6: the write reaches `State.writeCmd`, which is not acceptance while a command runs. -/
theorem commandWriteWhileBusyIsDropped : Obligations.CommandWriteWhileBusyIsDropped := by
  intro s w hb hr
  rw [performTxn_regWrite_cmd w hr]
  obtain ⟨-, hw⟩ | ⟨hidle, -⟩ := writeCmd_cases w s
  · exact congrArg Host.Outcome.next hw
  · exact absurd (hidle.symm.trans hb) Bool.false_ne_true

/-- While a command runs a host write of an argument is a fault naming the transaction (R304). -/
theorem inputWrite_busy {s : State} (t : Txn) (f : State → State) (hb : s.busy = true) :
    s.inputWrite t f = .fault (.inputWriteWhileBusy t) := if_pos hb

/-- A write to one of the six argument registers is an argument write (R24, R27, R28, R30 to R32). -/
theorem performTxn_regWrite_argument {s : State} {n : Nat} (v : Word) (hr : s.inReset = false)
    (hn : n ∈ [0x06, 0x09, 0x0A, 0x0C, 0x0D, 0x0E]) :
    ∃ f, performTxn (.regWrite n v) s = s.inputWrite (.regWrite n v) f := by
  have hreset : ¬ s.inReset = true := by rw [hr]; exact Bool.false_ne_true
  simp only [List.mem_cons, List.not_mem_nil, or_false] at hn
  obtain rfl | rfl | rfl | rfl | rfl | rfl := hn <;> exact ⟨_, if_neg hreset⟩

/-- A write to a byte inside IN or BITS is an argument write (R62). -/
theorem performTxn_bufWrite_argument {s : State} {sp : Space} {a : Nat} (v : Byte) (hr : s.inReset = false)
    (hsp : sp ≠ .output) (ha : a < bufSize s.cfg sp) :
    ∃ f, performTxn (.bufWrite sp a v) s = s.inputWrite (.bufWrite sp a v) f := by
  have hinside : ¬ (s.inReset || decide (bufSize s.cfg sp ≤ a)) = true := by
    rw [hr, decide_eq_false (Nat.not_le.2 ha)]; exact Bool.false_ne_true
  cases sp with
  | input => exact ⟨_, if_neg hinside⟩
  | bits => exact ⟨_, if_neg hinside⟩
  | output => exact absurd rfl hsp

/-- Settles O16: only argument writes look at BUSY to stop; writes to STATUS, CMD and read-only registers answer. -/
theorem inputWriteWhileBusyFaults : Obligations.InputWriteWhileBusyFaults := by
  intro s n a v x hb hr
  have hbyte {sp : Space} (hsp : sp ≠ .output) (ha : a < bufSize s.cfg sp) :
      performTxn (.bufWrite sp a x) s = .fault (.inputWriteWhileBusy (.bufWrite sp a x)) := by
    obtain ⟨f, hf⟩ := performTxn_bufWrite_argument x hr hsp ha
    exact hf.trans (inputWrite_busy _ f hb)
  refine ⟨fun hn => ?_, hbyte nofun, hbyte nofun, ⟨_, performTxn_regWrite_status v hr⟩,
    ⟨_, performTxn_regWrite_cmd v hr⟩, fun hn => performTxn_regWrite_readOnly v (isReadOnly_regOfNumber s.cfg hn)⟩
  obtain ⟨f, hf⟩ := performTxn_regWrite_argument v hr hn
  exact hf.trans (inputWrite_busy _ f hb)

end Sys2Proof.Machine
end
